-- ==== Sys2Proof/Word.lean ====
section
/-! DEFINITION. The machine word and the other plain widths (00_scope.md R7, R8). -/

namespace Sys2Proof

/-- A register, address or data value: an unsigned 32-bit number (R8). -/
abbrev Word := BitVec 32

/-- Two bytes: a 16-bit instruction or a halfword of data. -/
abbrev Half := BitVec 16

/-- The unit of addressing (20_memory.md R60). -/
abbrev Byte := BitVec 8

end Sys2Proof
end

