-- ==== Sys2Proof/Syntax.lean ====
section
/-! DEFINITION. The instructions of both sets as syntax (30_encoding.md): one constructor per instruction
and set; operand forms are arguments. Fields that the machine ignores (R98) are kept, so no bit of an
encoding is lost. -/

namespace Sys2Proof

/-- A visible register index, 0 to 15 (10_state.md R21). -/
abbrev Reg := Fin 16

/-- A 3-bit register field of the 16-bit set: R0 to R7 (45_thumb_alu.md R280). -/
abbrev LoReg := Fin 8

/-- The condition field (30_encoding.md R92), in the order of its encoding. -/
inductive Cond where
  | eq | ne | cs | cc | mi | pl | vs | vc | hi | ls | ge | lt | gt | le | al | nv
deriving DecidableEq, Repr

/-- The shift type field: 00 LSL, 01 LSR, 10 ASR, 11 ROR (30_encoding.md R94). -/
inductive ShiftType where
  | lsl | lsr | asr | ror
deriving DecidableEq, Repr

/-- The second operand of a data-processing instruction (41_arm_data_processing.md R181 to R183). -/
inductive Operand2 where
  /-- DP-imm: `imm8` rotated right by twice `rotate` (R181). -/
  | imm (rotate : Fin 16) (imm8 : BitVec 8)
  /-- DP-reg-imm: `rm` shifted by a 5-bit amount (R182). -/
  | regImm (rm : Reg) (type : ShiftType) (amount : Fin 32)
  /-- DP-reg-reg: `rm` shifted by the low byte of `rs` (R183). -/
  | regReg (rm : Reg) (type : ShiftType) (rs : Reg)
deriving DecidableEq, Repr

/-- The operand of MSR: a register, or an 8-bit immediate rotated right by twice `rotate` (R203). -/
inductive MsrOperand where
  | reg (rm : Reg)
  | imm (rotate : Fin 16) (imm8 : BitVec 8)
deriving DecidableEq, Repr

/-- The field mask of MSR, bits 19 to 16 (R203): `f` selects status bits 31:24, `c` bits 7:0, `s` and `x`
bytes that hold no state. -/
structure FieldMask where
  f : Bool
  s : Bool
  x : Bool
  c : Bool
deriving DecidableEq, Repr

/-- The P, U and W bits of a load, store or block transfer (44_arm_load_store.md R246, R255, R265). -/
structure IndexMode where
  /-- P: 1 pre-indexed, 0 post-indexed. -/
  p : Bool
  /-- U: 1 the offset is added, 0 subtracted. -/
  u : Bool
  /-- W: base writeback. -/
  w : Bool
deriving DecidableEq, Repr

/-- The offset of LDR, STR, LDRB, STRB (R246). -/
inductive WordOffset where
  | imm (imm12 : BitVec 12)
  | reg (rm : Reg) (type : ShiftType) (amount : Fin 32)
deriving DecidableEq, Repr

/-- The offset of LDRH, STRH, LDRSB, LDRSH (R255): `off8` is `offhi : offlo`. -/
inductive HalfOffset where
  | imm (off8 : BitVec 8)
  | reg (rm : Reg)
deriving DecidableEq, Repr

/-- Every instruction of both sets. Constructors without the prefix `t` belong to the 32-bit set and carry
their condition `c`; `sf` is the S bit. Constructors with the prefix `t` belong to the 16-bit set. -/
inductive Instr where
  -- 32-bit set, data processing (41_arm_data_processing.md R184 to R201)
  | and (c : Cond) (sf : Bool) (rn rd : Reg) (o : Operand2)
  | eor (c : Cond) (sf : Bool) (rn rd : Reg) (o : Operand2)
  | sub (c : Cond) (sf : Bool) (rn rd : Reg) (o : Operand2)
  | rsb (c : Cond) (sf : Bool) (rn rd : Reg) (o : Operand2)
  | add (c : Cond) (sf : Bool) (rn rd : Reg) (o : Operand2)
  | adc (c : Cond) (sf : Bool) (rn rd : Reg) (o : Operand2)
  | sbc (c : Cond) (sf : Bool) (rn rd : Reg) (o : Operand2)
  | rsc (c : Cond) (sf : Bool) (rn rd : Reg) (o : Operand2)
  /-- TST; `rd` is ignored (R95), as in TEQ, CMP and CMN. -/
  | tst (c : Cond) (rn rd : Reg) (o : Operand2)
  | teq (c : Cond) (rn rd : Reg) (o : Operand2)
  | cmp (c : Cond) (rn rd : Reg) (o : Operand2)
  | cmn (c : Cond) (rn rd : Reg) (o : Operand2)
  | orr (c : Cond) (sf : Bool) (rn rd : Reg) (o : Operand2)
  /-- MOV; `rn` is ignored (R95), as in MVN. -/
  | mov (c : Cond) (sf : Bool) (rn rd : Reg) (o : Operand2)
  | bic (c : Cond) (sf : Bool) (rn rd : Reg) (o : Operand2)
  | mvn (c : Cond) (sf : Bool) (rn rd : Reg) (o : Operand2)
  -- 32-bit set, status transfer (R202 to R204); `spsr` is the R bit
  | mrs (c : Cond) (spsr : Bool) (rd : Reg)
  | msr (c : Cond) (spsr : Bool) (fields : FieldMask) (o : MsrOperand)
  -- 32-bit set, multiply (42_arm_multiply.md R221 to R226)
  /-- MUL; `rn` (bits 15:12) is ignored. -/
  | mul (c : Cond) (sf : Bool) (rd rn rs rm : Reg)
  | mla (c : Cond) (sf : Bool) (rd rn rs rm : Reg)
  | umull (c : Cond) (sf : Bool) (rdHi rdLo rs rm : Reg)
  | umlal (c : Cond) (sf : Bool) (rdHi rdLo rs rm : Reg)
  | smull (c : Cond) (sf : Bool) (rdHi rdLo rs rm : Reg)
  | smlal (c : Cond) (sf : Bool) (rdHi rdLo rs rm : Reg)
  -- 32-bit set, swap (44_arm_load_store.md R262, R263)
  | swp (c : Cond) (rn rd rm : Reg)
  | swpb (c : Cond) (rn rd rm : Reg)
  -- 32-bit set, branch and exchange (43_arm_branch_system.md R232)
  | bx (c : Cond) (rm : Reg)
  -- 32-bit set, halfword and signed transfer (R256 to R259)
  | strh (c : Cond) (m : IndexMode) (rn rd : Reg) (o : HalfOffset)
  | ldrh (c : Cond) (m : IndexMode) (rn rd : Reg) (o : HalfOffset)
  | ldrsb (c : Cond) (m : IndexMode) (rn rd : Reg) (o : HalfOffset)
  | ldrsh (c : Cond) (m : IndexMode) (rn rd : Reg) (o : HalfOffset)
  -- 32-bit set, single data transfer (R247 to R250)
  | str (c : Cond) (m : IndexMode) (rn rd : Reg) (o : WordOffset)
  | ldr (c : Cond) (m : IndexMode) (rn rd : Reg) (o : WordOffset)
  | strb (c : Cond) (m : IndexMode) (rn rd : Reg) (o : WordOffset)
  | ldrb (c : Cond) (m : IndexMode) (rn rd : Reg) (o : WordOffset)
  -- 32-bit set, block transfer (R265 to R272)
  | stm (c : Cond) (m : IndexMode) (sf : Bool) (rn : Reg) (list : BitVec 16)
  | ldm (c : Cond) (m : IndexMode) (sf : Bool) (rn : Reg) (list : BitVec 16)
  -- 32-bit set, branches and software interrupt (R230, R231, R233)
  | b (c : Cond) (imm24 : BitVec 24)
  | bl (c : Cond) (imm24 : BitVec 24)
  | swi (c : Cond) (comment : BitVec 24)
  /-- An unallocated encoding of the 32-bit set (R97, R234): `bits` is `I[27:0]`. -/
  | undefinedArm (c : Cond) (bits : BitVec 28)
  -- 16-bit set, format 1 (45_thumb_alu.md R282 to R284)
  | tLslImm (rd rs : LoReg) (off5 : Fin 32)
  | tLsrImm (rd rs : LoReg) (off5 : Fin 32)
  | tAsrImm (rd rs : LoReg) (off5 : Fin 32)
  -- format 2 (R285 to R288)
  | tAddReg (rd rs rn : LoReg)
  | tSubReg (rd rs rn : LoReg)
  | tAddImm3 (rd rs : LoReg) (imm3 : BitVec 3)
  | tSubImm3 (rd rs : LoReg) (imm3 : BitVec 3)
  -- format 3 (R289 to R292)
  | tMovImm (rd : LoReg) (off8 : BitVec 8)
  | tCmpImm (rd : LoReg) (off8 : BitVec 8)
  | tAddImm8 (rd : LoReg) (off8 : BitVec 8)
  | tSubImm8 (rd : LoReg) (off8 : BitVec 8)
  -- format 4 (R293 to R309)
  | tAnd (rd rs : LoReg)
  | tEor (rd rs : LoReg)
  | tLslReg (rd rs : LoReg)
  | tLsrReg (rd rs : LoReg)
  | tAsrReg (rd rs : LoReg)
  | tAdc (rd rs : LoReg)
  | tSbc (rd rs : LoReg)
  | tRorReg (rd rs : LoReg)
  | tTst (rd rs : LoReg)
  | tNeg (rd rs : LoReg)
  | tCmpReg (rd rs : LoReg)
  | tCmn (rd rs : LoReg)
  | tOrr (rd rs : LoReg)
  | tMul (rd rs : LoReg)
  | tBic (rd rs : LoReg)
  | tMvn (rd rs : LoReg)
  -- format 5 (R316 to R321); `rd` and `rs` are the full register numbers
  | tAddHi (rd rs : Reg)
  | tCmpHi (rd rs : Reg)
  | tMovHi (rd rs : Reg)
  /-- BX with H1 = 0; `low` is the ignored field in bits 2:0 (R321). -/
  | tBx (rs : Reg) (low : BitVec 3)
  -- format 6 (46_thumb_memory.md R330)
  | tLdrPc (rd : LoReg) (word8 : BitVec 8)
  -- format 7 (R332 to R335)
  | tStrReg (rd rb ro : LoReg)
  | tStrbReg (rd rb ro : LoReg)
  | tLdrReg (rd rb ro : LoReg)
  | tLdrbReg (rd rb ro : LoReg)
  -- format 8 (R336 to R339)
  | tStrhReg (rd rb ro : LoReg)
  | tLdsbReg (rd rb ro : LoReg)
  | tLdrhReg (rd rb ro : LoReg)
  | tLdshReg (rd rb ro : LoReg)
  -- format 9 (R340 to R342, R345)
  | tStrImm (rd rb : LoReg) (off5 : BitVec 5)
  | tLdrImm (rd rb : LoReg) (off5 : BitVec 5)
  | tStrbImm (rd rb : LoReg) (off5 : BitVec 5)
  | tLdrbImm (rd rb : LoReg) (off5 : BitVec 5)
  -- format 10 (R349, R350)
  | tStrhImm (rd rb : LoReg) (off5 : BitVec 5)
  | tLdrhImm (rd rb : LoReg) (off5 : BitVec 5)
  -- format 11 (R343, R344)
  | tStrSp (rd : LoReg) (word8 : BitVec 8)
  | tLdrSp (rd : LoReg) (word8 : BitVec 8)
  -- formats 12 and 13 (45_thumb_alu.md R322 to R324)
  | tAddPcImm (rd : LoReg) (word8 : BitVec 8)
  | tAddSpImm (rd : LoReg) (word8 : BitVec 8)
  /-- ADD SP, #±imm; `neg` is the S bit. -/
  | tAdjustSp (neg : Bool) (sword7 : BitVec 7)
  -- formats 14 and 15 (46_thumb_memory.md R346, R347, R351, R352)
  /-- PUSH; `lr` is the R bit. -/
  | tPush (lr : Bool) (list : BitVec 8)
  /-- POP; `pc` is the R bit. -/
  | tPop (pc : Bool) (list : BitVec 8)
  | tStmia (rb : LoReg) (list : BitVec 8)
  | tLdmia (rb : LoReg) (list : BitVec 8)
  -- format 16 (47_thumb_branch.md R361)
  | tBeq (soff8 : BitVec 8)
  | tBne (soff8 : BitVec 8)
  | tBcs (soff8 : BitVec 8)
  | tBcc (soff8 : BitVec 8)
  | tBmi (soff8 : BitVec 8)
  | tBpl (soff8 : BitVec 8)
  | tBvs (soff8 : BitVec 8)
  | tBvc (soff8 : BitVec 8)
  | tBhi (soff8 : BitVec 8)
  | tBls (soff8 : BitVec 8)
  | tBge (soff8 : BitVec 8)
  | tBlt (soff8 : BitVec 8)
  | tBgt (soff8 : BitVec 8)
  | tBle (soff8 : BitVec 8)
  -- formats 17, 18, 19 (R364, R362, R366, R367)
  | tSwi (value8 : BitVec 8)
  | tB (off11 : BitVec 11)
  | tBlFirst (off11 : BitVec 11)
  | tBlSecond (off11 : BitVec 11)
  /-- An unallocated halfword of the 16-bit set (30_encoding.md R121, R368). -/
  | tUndefined (bits : Half)
deriving DecidableEq, Repr

/-- The condition of an instruction of the 32-bit set; the 16-bit set has none (R122). -/
def Instr.cond? : Instr → Option Cond
  | .and c .. | .eor c .. | .sub c .. | .rsb c .. | .add c .. | .adc c .. | .sbc c .. | .rsc c ..
  | .tst c .. | .teq c .. | .cmp c .. | .cmn c .. | .orr c .. | .mov c .. | .bic c .. | .mvn c ..
  | .mrs c .. | .msr c .. | .mul c .. | .mla c .. | .umull c .. | .umlal c .. | .smull c .. | .smlal c ..
  | .swp c .. | .swpb c .. | .bx c .. | .strh c .. | .ldrh c .. | .ldrsb c .. | .ldrsh c ..
  | .str c .. | .ldr c .. | .strb c .. | .ldrb c .. | .stm c .. | .ldm c .. | .b c .. | .bl c ..
  | .swi c .. | .undefinedArm c .. => some c
  | _ => none

end Sys2Proof
end

