-- ==== Sys2Proof/WellFormed.lean ====
section
/-! DEFINITION. Which instruction terms stand for an encoding. Operand fields are typed to their widths, so
only the two UNDEFINED constructors can be ill-formed: their bits must be unallocated. The two predicates
follow the spec's lists of unallocated encodings (30_encoding.md R97, R121), not the decoder. -/

namespace Sys2Proof

/-- The halfword/signed transfers that are no instruction (30_encoding.md R93 line 5, R260): a store with
SH = 10 or 11, or a register form with `I[11:8] != 0`. -/
def unallocatedHalfTransfer (i : BitVec 28) : Bool :=
  i.extractLsb' 25 3 = 0b000#3 ∧ i.getLsbD 7 ∧ i.getLsbD 4 ∧ i.extractLsb' 5 2 ≠ 0b00#2
    ∧ ((i.getLsbD 20 = false ∧ i.getLsbD 6) ∨ (i.getLsbD 22 = false ∧ i.extractLsb' 8 4 ≠ 0#4))

/-- `I[7:4] == 1001` in the `000` group and neither a multiply, a long multiply nor a swap (R93 line 6). -/
def unallocatedMultiply (i : BitVec 28) : Bool :=
  i.extractLsb' 25 3 = 0b000#3 ∧ i.extractLsb' 4 4 = 0b1001#4
    ∧ i.extractLsb' 22 6 ≠ 0#6 ∧ i.extractLsb' 23 5 ≠ 0b00001#5
    ∧ ¬ (i.extractLsb' 23 5 = 0b00010#5 ∧ i.extractLsb' 20 2 = 0b00#2 ∧ i.extractLsb' 8 4 = 0#4)

/-- The compare opcodes with S = 0 that are not BX, SWP, a halfword transfer, MRS or MSR (R93 line 10). -/
def unallocatedCompare (i : BitVec 28) : Bool :=
  i.extractLsb' 26 2 = 0b00#2 ∧ i.extractLsb' 23 2 = 0b10#2 ∧ i.getLsbD 20 = false
    ∧ ¬ (i.getLsbD 25 = false ∧ i.getLsbD 7 ∧ i.getLsbD 4)
    ∧ i.extractLsb' 4 24 ≠ 0x12FFF1#24
    ∧ ¬ (i.getLsbD 25 = false ∧ i.extractLsb' 16 6 = 0b001111#6 ∧ i.extractLsb' 0 12 = 0#12)
    ∧ ¬ (i.getLsbD 25 = false ∧ i.getLsbD 21 ∧ i.extractLsb' 4 12 = 0xF00#12)
    ∧ ¬ (i.getLsbD 25 ∧ i.getLsbD 21 ∧ i.extractLsb' 12 4 = 0b1111#4)

/-- The undefined-instruction space `011....1` (R93 line 12) and the coprocessor space (lines 16, 17). -/
def unallocatedSpace (i : BitVec 28) : Bool :=
  (i.extractLsb' 25 3 = 0b011#3 ∧ i.getLsbD 4) ∨ i.extractLsb' 25 3 = 0b110#3
    ∨ i.extractLsb' 24 4 = 0b1110#4

/-- The unallocated encodings of the 32-bit set, over `I[27:0]` (R97). -/
def unallocatedArm (i : BitVec 28) : Bool :=
  unallocatedHalfTransfer i || unallocatedMultiply i || unallocatedCompare i || unallocatedSpace i

/-- The unallocated halfwords of the 16-bit set, as the ranges of 30_encoding.md R121 (a) to (d). -/
def unallocatedThumb (h : Half) : Bool :=
  let n := h.toNat
  (0xB100 ≤ n ∧ n ≤ 0xB3FF) ∨ (0xB600 ≤ n ∧ n ≤ 0xBBFF) ∨ (0xBE00 ≤ n ∧ n ≤ 0xBFFF)
    ∨ (0xDE00 ≤ n ∧ n ≤ 0xDEFF) ∨ (0xE800 ≤ n ∧ n ≤ 0xEFFF) ∨ (0x4780 ≤ n ∧ n ≤ 0x47FF)

/-- An instruction term that some encoding stands for. -/
def Instr.wellFormed : Instr → Bool
  | .undefinedArm _ bits => unallocatedArm bits
  | .tUndefined bits => unallocatedThumb bits
  | _ => true

end Sys2Proof
end

