-- ==== Sys2Proof/Decode.lean ====
section
/-! DEFINITION. The decoders of both sets and the encoder (30_encoding.md). Decoding is total: every word
and every halfword is one instruction, UNDEFINED ones included (40_cycle_and_primitives.md R145). -/

namespace Sys2Proof

/-- The field of `len` bits whose lowest bit is bit `lo`. -/
def field {n : Nat} (w : BitVec n) (lo len : Nat) : BitVec len := w.extractLsb' lo len

/-- The 4-bit register field whose lowest bit is bit `lo`. -/
def regAt {n : Nat} (w : BitVec n) (lo : Nat) : Reg := (field w lo 4).toFin

/-- The 3-bit register field whose lowest bit is bit `lo`. -/
def loAt {n : Nat} (w : BitVec n) (lo : Nat) : LoReg := (field w lo 3).toFin

/-- The bits of a register number. -/
def Reg.bits (r : Reg) : BitVec 4 := BitVec.ofFin r

/-- The bits of a 3-bit register number. -/
def LoReg.bits (r : LoReg) : BitVec 3 := BitVec.ofFin r

/-! ## Small fields -/

/-- The condition field (R92). -/
def Cond.ofBits (b : BitVec 4) : Cond :=
  match b with
  | 0b0000#4 => .eq | 0b0001#4 => .ne | 0b0010#4 => .cs | 0b0011#4 => .cc
  | 0b0100#4 => .mi | 0b0101#4 => .pl | 0b0110#4 => .vs | 0b0111#4 => .vc
  | 0b1000#4 => .hi | 0b1001#4 => .ls | 0b1010#4 => .ge | 0b1011#4 => .lt
  | 0b1100#4 => .gt | 0b1101#4 => .le | 0b1110#4 => .al | _ => .nv

def Cond.bits : Cond → BitVec 4
  | .eq => 0b0000#4 | .ne => 0b0001#4 | .cs => 0b0010#4 | .cc => 0b0011#4
  | .mi => 0b0100#4 | .pl => 0b0101#4 | .vs => 0b0110#4 | .vc => 0b0111#4
  | .hi => 0b1000#4 | .ls => 0b1001#4 | .ge => 0b1010#4 | .lt => 0b1011#4
  | .gt => 0b1100#4 | .le => 0b1101#4 | .al => 0b1110#4 | .nv => 0b1111#4

/-- The shift type field (R94). -/
def ShiftType.ofBits (b : BitVec 2) : ShiftType :=
  match b with
  | 0b00#2 => .lsl | 0b01#2 => .lsr | 0b10#2 => .asr | _ => .ror

def ShiftType.bits : ShiftType → BitVec 2
  | .lsl => 0b00#2 | .lsr => 0b01#2 | .asr => 0b10#2 | .ror => 0b11#2

/-- P, U and W of a transfer: bits 24, 23 and 21. -/
def indexModeOf (i : BitVec 28) : IndexMode := ⟨i.getLsbD 24, i.getLsbD 23, i.getLsbD 21⟩

/-- A second operand that is no immediate: shifted by an immediate when bit 4 is 0, else by a register. -/
def shiftedOperand (i : BitVec 28) : Operand2 :=
  if i.getLsbD 4 then .regReg (regAt i 0) (ShiftType.ofBits (field i 5 2)) (regAt i 8)
  else .regImm (regAt i 0) (ShiftType.ofBits (field i 5 2)) (field i 7 5).toFin

/-! ## The 32-bit set -/

/-- R93 line 11: the data-processing opcodes of R95. -/
def decodeDataProcessing (c : Cond) (i : BitVec 28) (o : Operand2) : Instr :=
  let sf := i.getLsbD 20
  let rn := regAt i 16
  let rd := regAt i 12
  match field i 21 4 with
  | 0b0000#4 => .and c sf rn rd o
  | 0b0001#4 => .eor c sf rn rd o
  | 0b0010#4 => .sub c sf rn rd o
  | 0b0011#4 => .rsb c sf rn rd o
  | 0b0100#4 => .add c sf rn rd o
  | 0b0101#4 => .adc c sf rn rd o
  | 0b0110#4 => .sbc c sf rn rd o
  | 0b0111#4 => .rsc c sf rn rd o
  | 0b1000#4 => .tst c rn rd o
  | 0b1001#4 => .teq c rn rd o
  | 0b1010#4 => .cmp c rn rd o
  | 0b1011#4 => .cmn c rn rd o
  | 0b1100#4 => .orr c sf rn rd o
  | 0b1101#4 => .mov c sf rn rd o
  | 0b1110#4 => .bic c sf rn rd o
  | _ => .mvn c sf rn rd o

/-- R93 lines 2, 3, 4 and 6: `I[7:4] == 1001` in the `000` group. -/
def decodeMultiplySwap (c : Cond) (i : BitVec 28) : Instr :=
  let sf := i.getLsbD 20
  if field i 22 6 = 0b000000#6 then
    if i.getLsbD 21 then .mla c sf (regAt i 16) (regAt i 12) (regAt i 8) (regAt i 0)
    else .mul c sf (regAt i 16) (regAt i 12) (regAt i 8) (regAt i 0)
  else if field i 23 5 = 0b00001#5 then
    match field i 21 2 with
    | 0b00#2 => .umull c sf (regAt i 16) (regAt i 12) (regAt i 8) (regAt i 0)
    | 0b01#2 => .umlal c sf (regAt i 16) (regAt i 12) (regAt i 8) (regAt i 0)
    | 0b10#2 => .smull c sf (regAt i 16) (regAt i 12) (regAt i 8) (regAt i 0)
    | _ => .smlal c sf (regAt i 16) (regAt i 12) (regAt i 8) (regAt i 0)
  else if field i 23 5 = 0b00010#5 ∧ field i 20 2 = 0b00#2 ∧ field i 8 4 = 0#4 then
    if i.getLsbD 22 then .swpb c (regAt i 16) (regAt i 12) (regAt i 0)
    else .swp c (regAt i 16) (regAt i 12) (regAt i 0)
  else .undefinedArm c i

/-- R93 line 5: halfword and signed transfer (`I[7] == 1`, `I[4] == 1`, SH not 00). -/
def decodeHalfTransfer (c : Cond) (i : BitVec 28) : Instr :=
  let m := indexModeOf i
  let rn := regAt i 16
  let rd := regAt i 12
  let o : HalfOffset := if i.getLsbD 22 then .imm (field i 8 4 ++ field i 0 4) else .reg (regAt i 0)
  if i.getLsbD 22 = false ∧ field i 8 4 ≠ 0#4 then .undefinedArm c i
  else if i.getLsbD 20 then
    match field i 5 2 with
    | 0b01#2 => .ldrh c m rn rd o
    | 0b10#2 => .ldrsb c m rn rd o
    | _ => .ldrsh c m rn rd o
  else if field i 5 2 = 0b01#2 then .strh c m rn rd o
  else .undefinedArm c i

/-- The `000` group: R93 lines 1 to 8, 10 and 11. -/
def decodeGroup000 (c : Cond) (i : BitVec 28) : Instr :=
  if field i 4 24 = 0x12FFF1#24 then .bx c (regAt i 0)
  else if field i 4 4 = 0b1001#4 then decodeMultiplySwap c i
  else if i.getLsbD 7 ∧ i.getLsbD 4 then decodeHalfTransfer c i
  else if field i 23 5 = 0b00010#5 ∧ field i 16 6 = 0b001111#6 ∧ field i 0 12 = 0#12 then
    .mrs c (i.getLsbD 22) (regAt i 12)
  else if field i 23 5 = 0b00010#5 ∧ field i 20 2 = 0b10#2 ∧ field i 4 12 = 0xF00#12 then
    .msr c (i.getLsbD 22) ⟨i.getLsbD 19, i.getLsbD 18, i.getLsbD 17, i.getLsbD 16⟩ (.reg (regAt i 0))
  else if field i 23 2 = 0b10#2 ∧ i.getLsbD 20 = false then .undefinedArm c i
  else decodeDataProcessing c i (shiftedOperand i)

/-- The `001` group: R93 lines 9, 10 and 11 with an immediate operand. -/
def decodeGroup001 (c : Cond) (i : BitVec 28) : Instr :=
  if field i 23 2 = 0b10#2 ∧ field i 20 2 = 0b10#2 ∧ field i 12 4 = 0b1111#4 then
    .msr c (i.getLsbD 22) ⟨i.getLsbD 19, i.getLsbD 18, i.getLsbD 17, i.getLsbD 16⟩
      (.imm (field i 8 4).toFin (field i 0 8))
  else if field i 23 2 = 0b10#2 ∧ i.getLsbD 20 = false then .undefinedArm c i
  else decodeDataProcessing c i (.imm (field i 8 4).toFin (field i 0 8))

/-- R93 line 13: single data transfer; B is bit 22, L is bit 20. -/
def decodeSingleTransfer (c : Cond) (i : BitVec 28) (o : WordOffset) : Instr :=
  let m := indexModeOf i
  let rn := regAt i 16
  let rd := regAt i 12
  match i.getLsbD 22, i.getLsbD 20 with
  | false, false => .str c m rn rd o
  | false, true => .ldr c m rn rd o
  | true, false => .strb c m rn rd o
  | true, true => .ldrb c m rn rd o

/-- `I[27:0]` of the 32-bit set, by its top three bits `I[27:25]`: the map of 30_encoding.md R93. -/
def decodeArmBits (c : Cond) (i : BitVec 28) : Instr :=
  match field i 25 3 with
  | 0b000#3 => decodeGroup000 c i
  | 0b001#3 => decodeGroup001 c i
  | 0b010#3 => decodeSingleTransfer c i (.imm (field i 0 12))
  | 0b011#3 =>
    if i.getLsbD 4 then .undefinedArm c i
    else decodeSingleTransfer c i (.reg (regAt i 0) (ShiftType.ofBits (field i 5 2)) (field i 7 5).toFin)
  | 0b100#3 =>
    if i.getLsbD 20 then .ldm c (indexModeOf i) (i.getLsbD 22) (regAt i 16) (field i 0 16)
    else .stm c (indexModeOf i) (i.getLsbD 22) (regAt i 16) (field i 0 16)
  | 0b101#3 => if i.getLsbD 24 then .bl c (field i 0 24) else .b c (field i 0 24)
  | 0b110#3 => .undefinedArm c i
  | _ => if i.getLsbD 24 then .swi c (field i 0 24) else .undefinedArm c i

/-- The decoder of the 32-bit set: bits 31:28 are the condition, bits 27:0 select the instruction (R91). -/
def decodeArm (w : Word) : Instr := decodeArmBits (Cond.ofBits (field w 28 4)) (field w 0 28)

/-! ## The 16-bit set -/

/-- The format tags of the 16-bit set (30_encoding.md R110). -/
inductive ThumbFormat where
  | f1 | f2 | f3 | f4 | f5 | f6 | f7 | f8 | f9 | f10 | f11 | f12 | f13 | f14 | f15 | f16 | f17 | f18 | f19
  | unallocated
deriving DecidableEq, Repr

/-- The ordered match list of R110; the first matching line gives the format tag. -/
def thumbFormat (h : Half) : ThumbFormat :=
  if field h 8 8 = 0b11011111#8 then .f17
  else if field h 8 8 = 0b10110000#8 then .f13
  else if field h 10 6 = 0b010000#6 then .f4
  else if field h 10 6 = 0b010001#6 then .f5
  else if field h 11 5 = 0b00011#5 then .f2
  else if field h 11 5 = 0b01001#5 then .f6
  else if field h 11 5 = 0b11100#5 then .f18
  else if field h 12 4 = 0b0101#4 ∧ h.getLsbD 9 = true then .f8
  else if field h 12 4 = 0b0101#4 ∧ h.getLsbD 9 = false then .f7
  else if field h 12 4 = 0b1011#4 ∧ field h 9 2 = 0b10#2 then .f14
  else if field h 12 4 = 0b1000#4 then .f10
  else if field h 12 4 = 0b1001#4 then .f11
  else if field h 12 4 = 0b1010#4 then .f12
  else if field h 12 4 = 0b1100#4 then .f15
  else if field h 12 4 = 0b1101#4 then .f16
  else if field h 12 4 = 0b1111#4 then .f19
  else if field h 13 3 = 0b000#3 then .f1
  else if field h 13 3 = 0b001#3 then .f3
  else if field h 13 3 = 0b011#3 then .f9
  else .unallocated

/-- Format 4: op is bits 9:6 (R111). -/
def decodeThumbAlu (op : BitVec 4) (rd rs : LoReg) : Instr :=
  match op with
  | 0b0000#4 => .tAnd rd rs
  | 0b0001#4 => .tEor rd rs
  | 0b0010#4 => .tLslReg rd rs
  | 0b0011#4 => .tLsrReg rd rs
  | 0b0100#4 => .tAsrReg rd rs
  | 0b0101#4 => .tAdc rd rs
  | 0b0110#4 => .tSbc rd rs
  | 0b0111#4 => .tRorReg rd rs
  | 0b1000#4 => .tTst rd rs
  | 0b1001#4 => .tNeg rd rs
  | 0b1010#4 => .tCmpReg rd rs
  | 0b1011#4 => .tCmn rd rs
  | 0b1100#4 => .tOrr rd rs
  | 0b1101#4 => .tMul rd rs
  | 0b1110#4 => .tBic rd rs
  | _ => .tMvn rd rs

/-- Format 5: op is bits 9:8; the full registers are H1 : Rd and H2 : Rs (R316). BX with H1 = 1 is
unallocated (R321). -/
def decodeThumbHi (h : Half) : Instr :=
  let rd : Reg := (BitVec.ofBool (h.getLsbD 7) ++ field h 0 3).toFin
  let rs : Reg := regAt h 3
  match field h 8 2 with
  | 0b00#2 => .tAddHi rd rs
  | 0b01#2 => .tCmpHi rd rs
  | 0b10#2 => .tMovHi rd rs
  | _ => if h.getLsbD 7 then .tUndefined h else .tBx rs (field h 0 3)

/-- Format 16: cond 0000 to 1101; 1110 is unallocated and 1111 was format 17 (R361). -/
def decodeThumbCond (h : Half) : Instr :=
  let o := field h 0 8
  match field h 8 4 with
  | 0b0000#4 => .tBeq o
  | 0b0001#4 => .tBne o
  | 0b0010#4 => .tBcs o
  | 0b0011#4 => .tBcc o
  | 0b0100#4 => .tBmi o
  | 0b0101#4 => .tBpl o
  | 0b0110#4 => .tBvs o
  | 0b0111#4 => .tBvc o
  | 0b1000#4 => .tBhi o
  | 0b1001#4 => .tBls o
  | 0b1010#4 => .tBge o
  | 0b1011#4 => .tBlt o
  | 0b1100#4 => .tBgt o
  | 0b1101#4 => .tBle o
  | _ => .tUndefined h

/-- The decoder of the 16-bit set: the format tag, then the fields of R111. -/
def decodeThumb (h : Half) : Instr :=
  match thumbFormat h with
  | .f1 =>
    match field h 11 2 with
    | 0b00#2 => .tLslImm (loAt h 0) (loAt h 3) (field h 6 5).toFin
    | 0b01#2 => .tLsrImm (loAt h 0) (loAt h 3) (field h 6 5).toFin
    | _ => .tAsrImm (loAt h 0) (loAt h 3) (field h 6 5).toFin
  | .f2 =>
    match h.getLsbD 10, h.getLsbD 9 with
    | false, false => .tAddReg (loAt h 0) (loAt h 3) (loAt h 6)
    | false, true => .tSubReg (loAt h 0) (loAt h 3) (loAt h 6)
    | true, false => .tAddImm3 (loAt h 0) (loAt h 3) (field h 6 3)
    | true, true => .tSubImm3 (loAt h 0) (loAt h 3) (field h 6 3)
  | .f3 =>
    match field h 11 2 with
    | 0b00#2 => .tMovImm (loAt h 8) (field h 0 8)
    | 0b01#2 => .tCmpImm (loAt h 8) (field h 0 8)
    | 0b10#2 => .tAddImm8 (loAt h 8) (field h 0 8)
    | _ => .tSubImm8 (loAt h 8) (field h 0 8)
  | .f4 => decodeThumbAlu (field h 6 4) (loAt h 0) (loAt h 3)
  | .f5 => decodeThumbHi h
  | .f6 => .tLdrPc (loAt h 8) (field h 0 8)
  | .f7 =>
    match h.getLsbD 11, h.getLsbD 10 with
    | false, false => .tStrReg (loAt h 0) (loAt h 3) (loAt h 6)
    | false, true => .tStrbReg (loAt h 0) (loAt h 3) (loAt h 6)
    | true, false => .tLdrReg (loAt h 0) (loAt h 3) (loAt h 6)
    | true, true => .tLdrbReg (loAt h 0) (loAt h 3) (loAt h 6)
  | .f8 =>
    match h.getLsbD 10, h.getLsbD 11 with
    | false, false => .tStrhReg (loAt h 0) (loAt h 3) (loAt h 6)
    | false, true => .tLdrhReg (loAt h 0) (loAt h 3) (loAt h 6)
    | true, false => .tLdsbReg (loAt h 0) (loAt h 3) (loAt h 6)
    | true, true => .tLdshReg (loAt h 0) (loAt h 3) (loAt h 6)
  | .f9 =>
    match h.getLsbD 12, h.getLsbD 11 with
    | false, false => .tStrImm (loAt h 0) (loAt h 3) (field h 6 5)
    | false, true => .tLdrImm (loAt h 0) (loAt h 3) (field h 6 5)
    | true, false => .tStrbImm (loAt h 0) (loAt h 3) (field h 6 5)
    | true, true => .tLdrbImm (loAt h 0) (loAt h 3) (field h 6 5)
  | .f10 =>
    if h.getLsbD 11 then .tLdrhImm (loAt h 0) (loAt h 3) (field h 6 5)
    else .tStrhImm (loAt h 0) (loAt h 3) (field h 6 5)
  | .f11 =>
    if h.getLsbD 11 then .tLdrSp (loAt h 8) (field h 0 8) else .tStrSp (loAt h 8) (field h 0 8)
  | .f12 =>
    if h.getLsbD 11 then .tAddSpImm (loAt h 8) (field h 0 8) else .tAddPcImm (loAt h 8) (field h 0 8)
  | .f13 => .tAdjustSp (h.getLsbD 7) (field h 0 7)
  | .f14 =>
    if h.getLsbD 11 then .tPop (h.getLsbD 8) (field h 0 8) else .tPush (h.getLsbD 8) (field h 0 8)
  | .f15 =>
    if h.getLsbD 11 then .tLdmia (loAt h 8) (field h 0 8) else .tStmia (loAt h 8) (field h 0 8)
  | .f16 => decodeThumbCond h
  | .f17 => .tSwi (field h 0 8)
  | .f18 => .tB (field h 0 11)
  | .f19 => if h.getLsbD 11 then .tBlSecond (field h 0 11) else .tBlFirst (field h 0 11)
  | .unallocated => .tUndefined h

/-! ## Code words and bytes -/

/-- One encoded instruction: 4 bytes of the 32-bit set or 2 bytes of the 16-bit set (R90). -/
inductive Code where
  | arm (w : Word)
  | thumb (h : Half)
deriving DecidableEq, Repr

def Code.decode : Code → Instr
  | .arm w => decodeArm w
  | .thumb h => decodeThumb h

/-- Why bytes are no instruction: the only way decoding can fail. -/
inductive DecodeError where
  /-- Fewer bytes than the instruction set selected has in one instruction (safe). -/
  | tooFewBytes
deriving DecidableEq, Repr

/-- The little-endian bytes of an instruction (20_memory.md R66). -/
def Code.bytes : Code → List Byte
  | .arm w => [field w 0 8, field w 8 8, field w 16 8, field w 24 8]
  | .thumb h => [field h 0 8, field h 8 8]

/-- Decoding the bytes at an address in the set that `thumb` selects (R90), with the bytes that follow. -/
def decodeBytes (thumb : Bool) (bs : List Byte) : Except DecodeError (Instr × List Byte) :=
  match thumb, bs with
  | false, b0 :: b1 :: b2 :: b3 :: rest => .ok (decodeArm (b3 ++ b2 ++ b1 ++ b0), rest)
  | true, b0 :: b1 :: rest => .ok (decodeThumb (b1 ++ b0), rest)
  | _, _ => .error .tooFewBytes

/-- The instruction the decoder reads from a row's word of the opcode table: 32 bits are the 32-bit set,
16 bits the 16-bit set. -/
def decodeTableWord (nbits w : Nat) : Option Instr :=
  let code : Option (Bool × Code) :=
    if nbits = 32 then some (false, .arm (BitVec.ofNat 32 w))
    else if nbits = 16 then some (true, .thumb (BitVec.ofNat 16 w))
    else none
  match code with
  | none => none
  | some (thumb, k) =>
    match decodeBytes thumb k.bytes with
    | .ok (i, _) => some i
    | .error _ => none

/-! ## The encoder -/

/-- `I[25]` and the operand bits 11:0 of a data-processing instruction (R94). -/
def Operand2.immBit : Operand2 → BitVec 1
  | .imm .. => 1#1
  | .regImm .. => 0#1
  | .regReg .. => 0#1

def Operand2.bits : Operand2 → BitVec 12
  | .imm rotate imm8 => (BitVec.ofFin rotate : BitVec 4) ++ imm8
  | .regImm rm ty amount => (BitVec.ofFin amount : BitVec 5) ++ ty.bits ++ 0#1 ++ Reg.bits rm
  | .regReg rm ty rs => Reg.bits rs ++ 0#1 ++ ty.bits ++ 1#1 ++ Reg.bits rm

/-- A data-processing word: 00 I opcode S Rn Rd operand (R94). -/
def dpBits (op : BitVec 4) (sf : Bool) (rn rd : Reg) (o : Operand2) : BitVec 28 :=
  0b00#2 ++ o.immBit ++ op ++ BitVec.ofBool sf ++ Reg.bits rn ++ Reg.bits rd ++ o.bits

/-- 00 I 10 R 10 f s x c 1111 operand (R94, MSR-reg and MSR-imm). -/
def msrBits (spsr : Bool) (k : FieldMask) (o : MsrOperand) : BitVec 28 :=
  let mask : BitVec 4 := BitVec.ofBool k.f ++ BitVec.ofBool k.s ++ BitVec.ofBool k.x ++ BitVec.ofBool k.c
  match o with
  | .reg rm => 0b00010#5 ++ BitVec.ofBool spsr ++ 0b10#2 ++ mask ++ 0b1111#4 ++ 0#8 ++ Reg.bits rm
  | .imm rotate imm8 =>
    0b00110#5 ++ BitVec.ofBool spsr ++ 0b10#2 ++ mask ++ 0b1111#4 ++ (BitVec.ofFin rotate : BitVec 4) ++ imm8

/-- 000000 A S Rd Rn Rs 1001 Rm and 00001 U A S RdHi RdLo Rs 1001 Rm: `op` is bits 27:21 (R94). -/
def mulBits (op : BitVec 7) (sf : Bool) (hi lo rs rm : Reg) : BitVec 28 :=
  op ++ BitVec.ofBool sf ++ Reg.bits hi ++ Reg.bits lo ++ Reg.bits rs ++ 0b1001#4 ++ Reg.bits rm

/-- 00010 B 00 Rn Rd 0000 1001 Rm (R94, SWP). -/
def swpBits (byte : Bool) (rn rd rm : Reg) : BitVec 28 :=
  0b00010#5 ++ BitVec.ofBool byte ++ 0b00#2 ++ Reg.bits rn ++ Reg.bits rd ++ 0b00001001#8 ++ Reg.bits rm

/-- 000 P U I W L Rn Rd offhi 1 S H 1 offlo (R94, HW-reg and HW-imm). -/
def halfBits (load : Bool) (sh : BitVec 2) (m : IndexMode) (rn rd : Reg) (o : HalfOffset) : BitVec 28 :=
  let immBit : BitVec 1 := match o with | .imm _ => 1#1 | .reg _ => 0#1
  let hi : BitVec 4 := match o with | .imm off8 => field off8 4 4 | .reg _ => 0#4
  let lo : BitVec 4 := match o with | .imm off8 => field off8 0 4 | .reg rm => Reg.bits rm
  0b000#3 ++ BitVec.ofBool m.p ++ BitVec.ofBool m.u ++ immBit ++ BitVec.ofBool m.w ++ BitVec.ofBool load
    ++ Reg.bits rn ++ Reg.bits rd ++ hi ++ 1#1 ++ sh ++ 1#1 ++ lo

/-- 01 I P U B W L Rn Rd offset (R94, SDT-imm and SDT-reg). -/
def singleBits (byte load : Bool) (m : IndexMode) (rn rd : Reg) (o : WordOffset) : BitVec 28 :=
  let head : BitVec 3 := match o with | .imm _ => 0b010#3 | .reg .. => 0b011#3
  let off : BitVec 12 := match o with
    | .imm imm12 => imm12
    | .reg rm ty amount => (BitVec.ofFin amount : BitVec 5) ++ ty.bits ++ 0#1 ++ Reg.bits rm
  head ++ BitVec.ofBool m.p ++ BitVec.ofBool m.u ++ BitVec.ofBool byte ++ BitVec.ofBool m.w
    ++ BitVec.ofBool load ++ Reg.bits rn ++ Reg.bits rd ++ off

/-- 100 P U S W L Rn reglist (R94, BDT). -/
def blockBits (load sf : Bool) (m : IndexMode) (rn : Reg) (list : BitVec 16) : BitVec 28 :=
  0b100#3 ++ BitVec.ofBool m.p ++ BitVec.ofBool m.u ++ BitVec.ofBool sf ++ BitVec.ofBool m.w
    ++ BitVec.ofBool load ++ Reg.bits rn ++ list

/-- 010000 op Rs Rd (R111, format 4). -/
def aluHalf (op : BitVec 4) (rd rs : LoReg) : Half := 0b010000#6 ++ op ++ LoReg.bits rs ++ LoReg.bits rd

/-- 010001 op H1 H2 Rs Rd (R111, format 5). -/
def hiHalf (op : BitVec 2) (rd rs : Reg) : Half :=
  0b010001#6 ++ op ++ field (Reg.bits rd) 3 1 ++ Reg.bits rs ++ field (Reg.bits rd) 0 3

/-- A 7-bit prefix and three low registers (R111, formats 2, 7 and 8). -/
def threeHalf (op : BitVec 7) (rd rb ro : LoReg) : Half :=
  op ++ LoReg.bits ro ++ LoReg.bits rb ++ LoReg.bits rd

/-- A 5-bit prefix, a 5-bit offset and two low registers (R111, formats 1, 9 and 10). -/
def offHalf (op : BitVec 5) (off : BitVec 5) (rd rb : LoReg) : Half :=
  op ++ off ++ LoReg.bits rb ++ LoReg.bits rd

/-- A 5-bit prefix, a low register and 8 bits (R111, formats 3, 6, 11, 12 and 15). -/
def byteHalf (op : BitVec 5) (rd : LoReg) (b : BitVec 8) : Half := op ++ LoReg.bits rd ++ b

/-- The encoding of an instruction, from the formats of 30_encoding.md R94 and R111. -/
def encode : Instr → Code
  | .and c sf rn rd o => .arm (c.bits ++ dpBits 0b0000#4 sf rn rd o)
  | .eor c sf rn rd o => .arm (c.bits ++ dpBits 0b0001#4 sf rn rd o)
  | .sub c sf rn rd o => .arm (c.bits ++ dpBits 0b0010#4 sf rn rd o)
  | .rsb c sf rn rd o => .arm (c.bits ++ dpBits 0b0011#4 sf rn rd o)
  | .add c sf rn rd o => .arm (c.bits ++ dpBits 0b0100#4 sf rn rd o)
  | .adc c sf rn rd o => .arm (c.bits ++ dpBits 0b0101#4 sf rn rd o)
  | .sbc c sf rn rd o => .arm (c.bits ++ dpBits 0b0110#4 sf rn rd o)
  | .rsc c sf rn rd o => .arm (c.bits ++ dpBits 0b0111#4 sf rn rd o)
  | .tst c rn rd o => .arm (c.bits ++ dpBits 0b1000#4 true rn rd o)
  | .teq c rn rd o => .arm (c.bits ++ dpBits 0b1001#4 true rn rd o)
  | .cmp c rn rd o => .arm (c.bits ++ dpBits 0b1010#4 true rn rd o)
  | .cmn c rn rd o => .arm (c.bits ++ dpBits 0b1011#4 true rn rd o)
  | .orr c sf rn rd o => .arm (c.bits ++ dpBits 0b1100#4 sf rn rd o)
  | .mov c sf rn rd o => .arm (c.bits ++ dpBits 0b1101#4 sf rn rd o)
  | .bic c sf rn rd o => .arm (c.bits ++ dpBits 0b1110#4 sf rn rd o)
  | .mvn c sf rn rd o => .arm (c.bits ++ dpBits 0b1111#4 sf rn rd o)
  | .mrs c spsr rd =>
    .arm (c.bits ++ (0b00010#5 ++ BitVec.ofBool spsr ++ 0b001111#6 ++ Reg.bits rd ++ 0#12 : BitVec 28))
  | .msr c spsr k o => .arm (c.bits ++ msrBits spsr k o)
  | .mul c sf rd rn rs rm => .arm (c.bits ++ mulBits 0b0000000#7 sf rd rn rs rm)
  | .mla c sf rd rn rs rm => .arm (c.bits ++ mulBits 0b0000001#7 sf rd rn rs rm)
  | .umull c sf hi lo rs rm => .arm (c.bits ++ mulBits 0b0000100#7 sf hi lo rs rm)
  | .umlal c sf hi lo rs rm => .arm (c.bits ++ mulBits 0b0000101#7 sf hi lo rs rm)
  | .smull c sf hi lo rs rm => .arm (c.bits ++ mulBits 0b0000110#7 sf hi lo rs rm)
  | .smlal c sf hi lo rs rm => .arm (c.bits ++ mulBits 0b0000111#7 sf hi lo rs rm)
  | .swp c rn rd rm => .arm (c.bits ++ swpBits false rn rd rm)
  | .swpb c rn rd rm => .arm (c.bits ++ swpBits true rn rd rm)
  | .bx c rm => .arm (c.bits ++ (0x12FFF1#24 ++ Reg.bits rm : BitVec 28))
  | .strh c m rn rd o => .arm (c.bits ++ halfBits false 0b01#2 m rn rd o)
  | .ldrh c m rn rd o => .arm (c.bits ++ halfBits true 0b01#2 m rn rd o)
  | .ldrsb c m rn rd o => .arm (c.bits ++ halfBits true 0b10#2 m rn rd o)
  | .ldrsh c m rn rd o => .arm (c.bits ++ halfBits true 0b11#2 m rn rd o)
  | .str c m rn rd o => .arm (c.bits ++ singleBits false false m rn rd o)
  | .ldr c m rn rd o => .arm (c.bits ++ singleBits false true m rn rd o)
  | .strb c m rn rd o => .arm (c.bits ++ singleBits true false m rn rd o)
  | .ldrb c m rn rd o => .arm (c.bits ++ singleBits true true m rn rd o)
  | .stm c m sf rn list => .arm (c.bits ++ blockBits false sf m rn list)
  | .ldm c m sf rn list => .arm (c.bits ++ blockBits true sf m rn list)
  | .b c imm24 => .arm (c.bits ++ (0b1010#4 ++ imm24 : BitVec 28))
  | .bl c imm24 => .arm (c.bits ++ (0b1011#4 ++ imm24 : BitVec 28))
  | .swi c comment => .arm (c.bits ++ (0b1111#4 ++ comment : BitVec 28))
  | .undefinedArm c bits => .arm (c.bits ++ bits)
  | .tLslImm rd rs off5 => .thumb (offHalf 0b00000#5 (BitVec.ofFin off5) rd rs)
  | .tLsrImm rd rs off5 => .thumb (offHalf 0b00001#5 (BitVec.ofFin off5) rd rs)
  | .tAsrImm rd rs off5 => .thumb (offHalf 0b00010#5 (BitVec.ofFin off5) rd rs)
  | .tAddReg rd rs rn => .thumb (threeHalf 0b0001100#7 rd rs rn)
  | .tSubReg rd rs rn => .thumb (threeHalf 0b0001101#7 rd rs rn)
  | .tAddImm3 rd rs imm3 => .thumb (0b0001110#7 ++ imm3 ++ LoReg.bits rs ++ LoReg.bits rd)
  | .tSubImm3 rd rs imm3 => .thumb (0b0001111#7 ++ imm3 ++ LoReg.bits rs ++ LoReg.bits rd)
  | .tMovImm rd off8 => .thumb (byteHalf 0b00100#5 rd off8)
  | .tCmpImm rd off8 => .thumb (byteHalf 0b00101#5 rd off8)
  | .tAddImm8 rd off8 => .thumb (byteHalf 0b00110#5 rd off8)
  | .tSubImm8 rd off8 => .thumb (byteHalf 0b00111#5 rd off8)
  | .tAnd rd rs => .thumb (aluHalf 0b0000#4 rd rs)
  | .tEor rd rs => .thumb (aluHalf 0b0001#4 rd rs)
  | .tLslReg rd rs => .thumb (aluHalf 0b0010#4 rd rs)
  | .tLsrReg rd rs => .thumb (aluHalf 0b0011#4 rd rs)
  | .tAsrReg rd rs => .thumb (aluHalf 0b0100#4 rd rs)
  | .tAdc rd rs => .thumb (aluHalf 0b0101#4 rd rs)
  | .tSbc rd rs => .thumb (aluHalf 0b0110#4 rd rs)
  | .tRorReg rd rs => .thumb (aluHalf 0b0111#4 rd rs)
  | .tTst rd rs => .thumb (aluHalf 0b1000#4 rd rs)
  | .tNeg rd rs => .thumb (aluHalf 0b1001#4 rd rs)
  | .tCmpReg rd rs => .thumb (aluHalf 0b1010#4 rd rs)
  | .tCmn rd rs => .thumb (aluHalf 0b1011#4 rd rs)
  | .tOrr rd rs => .thumb (aluHalf 0b1100#4 rd rs)
  | .tMul rd rs => .thumb (aluHalf 0b1101#4 rd rs)
  | .tBic rd rs => .thumb (aluHalf 0b1110#4 rd rs)
  | .tMvn rd rs => .thumb (aluHalf 0b1111#4 rd rs)
  | .tAddHi rd rs => .thumb (hiHalf 0b00#2 rd rs)
  | .tCmpHi rd rs => .thumb (hiHalf 0b01#2 rd rs)
  | .tMovHi rd rs => .thumb (hiHalf 0b10#2 rd rs)
  | .tBx rs low => .thumb (0b010001110#9 ++ Reg.bits rs ++ low)
  | .tLdrPc rd word8 => .thumb (byteHalf 0b01001#5 rd word8)
  | .tStrReg rd rb ro => .thumb (threeHalf 0b0101000#7 rd rb ro)
  | .tStrbReg rd rb ro => .thumb (threeHalf 0b0101010#7 rd rb ro)
  | .tLdrReg rd rb ro => .thumb (threeHalf 0b0101100#7 rd rb ro)
  | .tLdrbReg rd rb ro => .thumb (threeHalf 0b0101110#7 rd rb ro)
  | .tStrhReg rd rb ro => .thumb (threeHalf 0b0101001#7 rd rb ro)
  | .tLdsbReg rd rb ro => .thumb (threeHalf 0b0101011#7 rd rb ro)
  | .tLdrhReg rd rb ro => .thumb (threeHalf 0b0101101#7 rd rb ro)
  | .tLdshReg rd rb ro => .thumb (threeHalf 0b0101111#7 rd rb ro)
  | .tStrImm rd rb off5 => .thumb (offHalf 0b01100#5 off5 rd rb)
  | .tLdrImm rd rb off5 => .thumb (offHalf 0b01101#5 off5 rd rb)
  | .tStrbImm rd rb off5 => .thumb (offHalf 0b01110#5 off5 rd rb)
  | .tLdrbImm rd rb off5 => .thumb (offHalf 0b01111#5 off5 rd rb)
  | .tStrhImm rd rb off5 => .thumb (offHalf 0b10000#5 off5 rd rb)
  | .tLdrhImm rd rb off5 => .thumb (offHalf 0b10001#5 off5 rd rb)
  | .tStrSp rd word8 => .thumb (byteHalf 0b10010#5 rd word8)
  | .tLdrSp rd word8 => .thumb (byteHalf 0b10011#5 rd word8)
  | .tAddPcImm rd word8 => .thumb (byteHalf 0b10100#5 rd word8)
  | .tAddSpImm rd word8 => .thumb (byteHalf 0b10101#5 rd word8)
  | .tAdjustSp neg sword7 => .thumb (0b10110000#8 ++ BitVec.ofBool neg ++ sword7)
  | .tPush lr list => .thumb (0b1011010#7 ++ BitVec.ofBool lr ++ list)
  | .tPop pc list => .thumb (0b1011110#7 ++ BitVec.ofBool pc ++ list)
  | .tStmia rb list => .thumb (byteHalf 0b11000#5 rb list)
  | .tLdmia rb list => .thumb (byteHalf 0b11001#5 rb list)
  | .tBeq o => .thumb (0xD0#8 ++ o)
  | .tBne o => .thumb (0xD1#8 ++ o)
  | .tBcs o => .thumb (0xD2#8 ++ o)
  | .tBcc o => .thumb (0xD3#8 ++ o)
  | .tBmi o => .thumb (0xD4#8 ++ o)
  | .tBpl o => .thumb (0xD5#8 ++ o)
  | .tBvs o => .thumb (0xD6#8 ++ o)
  | .tBvc o => .thumb (0xD7#8 ++ o)
  | .tBhi o => .thumb (0xD8#8 ++ o)
  | .tBls o => .thumb (0xD9#8 ++ o)
  | .tBge o => .thumb (0xDA#8 ++ o)
  | .tBlt o => .thumb (0xDB#8 ++ o)
  | .tBgt o => .thumb (0xDC#8 ++ o)
  | .tBle o => .thumb (0xDD#8 ++ o)
  | .tSwi value8 => .thumb (0xDF#8 ++ value8)
  | .tB off11 => .thumb (0b11100#5 ++ off11)
  | .tBlFirst off11 => .thumb (0b11110#5 ++ off11)
  | .tBlSecond off11 => .thumb (0b11111#5 ++ off11)
  | .tUndefined bits => .thumb bits

end Sys2Proof
end

