-- ==== Sys2Proof/Config.lean ====
section
/-! DEFINITION. What the environment fixes: the open parameters of 00_scope.md R7 that a model must settle. -/

namespace Sys2Proof.Config

/-- `BUS_FILL`: what a byte that nothing has written reads as on the reference bus of 20_memory.md R65.
DESIGN CHOICE (log entry 2): the spec's own default for tests, "typically 0"; unsafe. -/
def busFill : Byte := 0#8

/-- `POWER_ON`: the content of every general register before the first reset (10_state.md R55).
DESIGN CHOICE (log entry 1): the spec gives none; unsafe. -/
def powerOnWord : Word := 0#32

end Sys2Proof.Config
end

