-- ==== Sys2Proof/Machine/State.lean ====
section
/-! DEFINITION. The state of the core (10_state.md R20): 31 physical registers, CPSR, five SPSRs, the
pipeline buffer, the pending set, the run flag; and the memory of the reference bus (20_memory.md R65). -/

namespace Sys2Proof.Machine

/-- The seven modes (10_state.md R32). -/
inductive Mode where
  | user | fiq | irq | supervisor | abort | undefined | system
deriving DecidableEq, Repr

/-- The five modes that an exception enters: the ones with an SPSR (10_state.md R33). -/
inductive ExcMode where
  | fiq | irq | supervisor | abort | undefined
deriving DecidableEq, Repr

/-- The seven exception kinds, in the order of their codes 0 to 6 (60_exceptions.md R381). -/
inductive ExcKind where
  | reset | dataAbort | fastInterrupt | interrupt | prefetchAbort | softwareInterrupt | undefinedInstr
deriving DecidableEq, Repr

/-- The condition flags (10_state.md R31). -/
structure Flags where
  n : Bool
  z : Bool
  c : Bool
  v : Bool
deriving DecidableEq, Repr

/-- The current status register (10_state.md R30); its mode field is always one of the seven (R32, R34). -/
structure Cpsr where
  flags : Flags
  i : Bool
  f : Bool
  t : Bool
  mode : Mode
deriving DecidableEq, Repr

/-- A saved status register: the fields of the CPSR, with a mode field that may hold any 5-bit value
(10_state.md R33). -/
structure Psr where
  flags : Flags
  i : Bool
  f : Bool
  t : Bool
  m : BitVec 5
deriving DecidableEq, Repr

/-- The five SPSRs (10_state.md R33). -/
structure SpsrBank where
  fiq : Psr
  irq : Psr
  svc : Psr
  abt : Psr
  und : Psr
deriving DecidableEq, Repr

/-- The 31 physical general registers (10_state.md R23): R0 to R14 of the common bank, R8_fiq to R14_fiq,
R13 and R14 of four more modes, and R15. -/
structure RegFile where
  common : Vector Word 15
  fiq : Vector Word 7
  svc : Vector Word 2
  abt : Vector Word 2
  irq : Vector Word 2
  und : Vector Word 2
  pc : Word
deriving DecidableEq, Repr

/-- The name of one physical register. -/
inductive Phys where
  /-- R`i` of the common bank, `i` in 0 to 14. -/
  | common (i : Fin 15)
  /-- R`(8 + i)`_fiq. -/
  | fiq (i : Fin 7)
  /-- R`(13 + i)`_svc, and the same for the next three. -/
  | svc (i : Fin 2)
  | abt (i : Fin 2)
  | irq (i : Fin 2)
  | und (i : Fin 2)
  /-- R15. -/
  | pc
deriving DecidableEq, Repr

/-- The pending-exception set: one flag per kind (10_state.md R41). -/
structure Pending where
  reset : Bool
  dataAbort : Bool
  fastInterrupt : Bool
  interrupt : Bool
  prefetchAbort : Bool
  softwareInterrupt : Bool
  undefinedInstr : Bool
deriving DecidableEq, Repr

/-- Memory: the bytes that differ from what an unlisted address reads as, by rising address
(`Memory.wf` in Ops.lean). -/
abbrev Memory := List Host.Cell

/-- The whole state. -/
structure State where
  regs : RegFile
  cpsr : Cpsr
  spsr : SpsrBank
  /-- The instruction about to execute (10_state.md R40). -/
  pipeCur : Word
  /-- The instruction fetched after it. -/
  pipeNext : Word
  pending : Pending
  running : Bool
  mem : Memory
deriving DecidableEq, Repr

/-- Faults: none. "There are no recoverable-error return values in the core; all abnormal conditions are
modeled as processor exceptions" (60_exceptions.md R380), a bus access cannot fail (20_memory.md R61), and
nothing in the core is stuck (93_implementation_defined.md section 1). -/
inductive Fault where
deriving DecidableEq, Repr

/-- Refusals: the cases the spec itself calls `refuse`, outside the contract. -/
inductive Refusal where
  /-- Raised by `exec` for an instruction whose meaning is not written; safe. -/
  | notModelled (mnemonic : String)
  /-- Raised by MRS, MSR, a data-processing return or an LDM return that needs the current mode's SPSR in
  User or System mode (10_state.md R33, U8); safe. -/
  | noSpsr
  /-- Raised by MSR to the CPSR or a status restore whose mode field names none of the seven modes
  (10_state.md R34, U7); safe. -/
  | invalidMode
  /-- Raised by MSR to the CPSR when it would change the state bit T (41 R203, U9); safe. -/
  | msrChangesT
deriving DecidableEq, Repr

/-- A saved status register with every field 0. -/
def Psr.zero : Psr := ⟨⟨false, false, false, false⟩, false, false, false, 0#5⟩

/-- The register file before the first reset. DESIGN CHOICE (log entry 1): `POWER_ON` is any value (R55). -/
def RegFile.powerOn : RegFile where
  common := Vector.replicate 15 Config.powerOnWord
  fiq := Vector.replicate 7 Config.powerOnWord
  svc := Vector.replicate 2 Config.powerOnWord
  abt := Vector.replicate 2 Config.powerOnWord
  irq := Vector.replicate 2 Config.powerOnWord
  und := Vector.replicate 2 Config.powerOnWord
  pc := Config.powerOnWord

/-- No exception pending. -/
def Pending.none : Pending := ⟨false, false, false, false, false, false, false⟩

/-- The machine before its first reset: not running (10_state.md R42, R50). The register contents and the
CPSR `0x0000001F` are a DESIGN CHOICE (log entry 1), the one 95_test_vectors.md makes. -/
def State.powerOn : State where
  regs := RegFile.powerOn
  cpsr := ⟨⟨false, false, false, false⟩, false, false, false, .system⟩
  spsr := ⟨Psr.zero, Psr.zero, Psr.zero, Psr.zero, Psr.zero⟩
  pipeCur := 0#32
  pipeNext := 0#32
  pending := Pending.none
  running := false
  mem := []

/-- What a word of memory that nothing has written reads as: four fill bytes. -/
def fillWord : Word := Config.busFill ++ Config.busFill ++ Config.busFill ++ Config.busFill

/-- The machine right after `reset`: every row of 10_state.md R50, from the power-on state of log entry 1.
`State.hostReset` (Ops.lean) is the operation itself. -/
def State.reset : State where
  regs := { RegFile.powerOn with svc := #v[Config.powerOnWord, 0#32], pc := 0x00000008#32 }
  cpsr := ⟨⟨false, false, false, false⟩, true, true, false, .supervisor⟩
  spsr := { State.powerOn.spsr with svc := ⟨⟨false, false, false, false⟩, false, false, false, 0x1F#5⟩ }
  pipeCur := fillWord
  pipeNext := fillWord
  pending := Pending.none
  running := true
  mem := []

end Sys2Proof.Machine
end

