-- ==== Sys2Proof/Machine/Flags.lean ====
section
/-! DEFINITION. The arithmetic, logical, shift and multiply primitives with their flag behaviour, and the
condition test (40_cycle_and_primitives.md sections 2 to 5). -/

namespace Sys2Proof.Machine

/-- A primitive's result and the flags it leaves. -/
structure AluResult where
  value : Word
  flags : Flags
deriving DecidableEq, Repr

/-- A flag as a 32-bit operand. -/
def boolWord (b : Bool) : Word := if b then 1#32 else 0#32

/-- `SetNZ(r)`: N and Z from a result (R152). -/
def Flags.setNZ (f : Flags) (r : Word) : Flags := { f with n := r.msb, z := r == 0#32 }

/-- The carry out of a three-operand sum: the unsigned 64-bit sum exceeds `0xFFFFFFFF` (R150). -/
def addCarry (a b c : Word) : Bool := 0xFFFFFFFF < a.toNat + b.toNat + c.toNat

/-- Signed overflow of one two-operand addition (the `v1` and `v2` of R150). -/
def partialOverflow (a b : Word) : Bool := (a.msb == b.msb) && ((a + b).msb != a.msb)

/-- `Add(a, b, c, 1)` (R150): V when either partial sum overflows. -/
def add (a b c : Word) : AluResult :=
  let s1 := a + b
  let r := s1 + c
  ⟨r, { n := r.msb, z := r == 0#32, c := addCarry a b c,
        v := partialOverflow a b || partialOverflow s1 c }⟩

/-- `Sub(a, b, c, 1)` (R151): `Add(a, -b, -c)`, with V forced when `b` is the minimum signed value. -/
def sub (a b c : Word) : AluResult :=
  let r := add a (0#32 - b) (0#32 - c)
  { r with flags := { r.flags with v := r.flags.v || b == 0x80000000#32 } }

/-- The flags of a logical operation or a shift: N and Z from the result, C given, V unchanged
(R158, R159). -/
def logical (f : Flags) (cout : Bool) (r : Word) : AluResult := ⟨r, { f.setNZ r with c := cout }⟩

/-! ## Shifts and rotate (R153 to R157) -/

/-- `shl` of R153. -/
def shl (v : Word) (k : Nat) : Word := if k < 32 then v <<< k else 0#32

/-- `shr` of R153. -/
def shr (v : Word) (k : Nat) : Word := if k < 32 then v >>> k else 0#32

/-- `sar` of R153: the sign fills, also for counts of 32 and more. -/
def sar (v : Word) (k : Nat) : Word :=
  if k < 32 then v.sshiftRight k else if v.msb then 0xFFFFFFFF#32 else 0#32

/-- `rotr` of R153. -/
def rotr (v : Word) (k : Nat) : Word :=
  let j := k % 32
  if j = 0 then v else (v >>> j) ||| (v <<< (32 - j))

/-- `LSL(v, n)` with the carry before it (R154): result and carry out. -/
def lsl (cin : Bool) (v : Word) (n : Nat) : Word × Bool :=
  if n = 0 then (v, cin) else (shl v n, (shl v (n - 1)).getLsbD 31)

/-- `LSR(v, n)` (R155): amount 0 means 32. -/
def lsr (v : Word) (n : Nat) : Word × Bool :=
  let m := if n = 0 then 32 else n
  (shr v m, (shr v (m - 1)).getLsbD 0)

/-- `ASR(v, n)` (R156): amount 0 means 32. -/
def asr (v : Word) (n : Nat) : Word × Bool :=
  let m := if n = 0 then 32 else n
  (sar v m, (sar v (m - 1)).getLsbD 0)

/-- `ROR(v, n)` with the carry before it (R157). -/
def ror (cin : Bool) (v : Word) (n : Nat) : Word × Bool :=
  if n = 0 then (v, cin) else (rotr v n, (rotr v (n - 1)).getLsbD 0)

/-- The primitive that a shift type names. -/
def shift (ty : ShiftType) (cin : Bool) (v : Word) (n : Nat) : Word × Bool :=
  match ty with
  | .lsl => lsl cin v n
  | .lsr => lsr v n
  | .asr => asr v n
  | .ror => ror cin v n

/-- A shift by an amount from a register (41 R183, 45 R303): amount 0 bypasses the shifter. -/
def shiftByReg (ty : ShiftType) (cin : Bool) (v : Word) (n : Nat) : Word × Bool :=
  if n = 0 then (v, cin) else shift ty cin v n

/-! ## Multiply -/

/-- `Mul(a, b, 1)` (R160): C and V unchanged (90_conflicts.md C8; DEDUCED, log entry 4). -/
def mul (f : Flags) (a b : Word) : AluResult := ⟨a * b, f.setNZ (a * b)⟩

/-- The 64-bit product of a long multiply, zero- or sign-extended (42 R223, R225). -/
def mulLong (signed : Bool) (a b : Word) : BitVec 64 :=
  if signed then a.signExtend 64 * b.signExtend 64 else a.zeroExtend 64 * b.zeroExtend 64

/-- N and Z of a long multiply: bit 63 and all 64 bits; C and V unchanged (42 R223). -/
def Flags.setNZ64 (f : Flags) (p : BitVec 64) : Flags := { f with n := p.msb, z := p == 0#64 }

/-! ## Conditions -/

/-- `CondPassed(cond)` (R166) by the table of 30_encoding.md R92. -/
def condPassed (c : Cond) (f : Flags) : Bool :=
  match c with
  | .eq => f.z
  | .ne => !f.z
  | .cs => f.c
  | .cc => !f.c
  | .mi => f.n
  | .pl => !f.n
  | .vs => f.v
  | .vc => !f.v
  | .hi => f.c && !f.z
  | .ls => !f.c || f.z
  | .ge => f.n == f.v
  | .lt => f.n != f.v
  | .gt => !f.z && (f.n == f.v)
  | .le => f.z || (f.n != f.v)
  | .al => true
  | .nv => false

/-! ## The sixteen data-processing operations (41 R184 to R201) -/

/-- The data-processing opcodes (30_encoding.md R95). -/
inductive DpOp where
  | and | eor | sub | rsb | add | adc | sbc | rsc | tst | teq | cmp | cmn | orr | mov | bic | mvn
deriving DecidableEq, Repr

/-- The operation of an opcode on its operands `a` and `b`: value, and the flags it leaves when S = 1.
`f` holds the flags before the instruction (its C is `cin`), `cout` the shifter's carry out. -/
def DpOp.eval (op : DpOp) (f : Flags) (cout : Bool) (a b : Word) : AluResult :=
  match op with
  | .and => logical f cout (a &&& b)
  | .eor => logical f cout (a ^^^ b)
  | .sub => Machine.sub a b 0#32
  | .rsb => Machine.sub b a 0#32
  | .add => Machine.add a b 0#32
  | .adc => Machine.add a b (boolWord f.c)
  | .sbc => Machine.sub a b (boolWord (!f.c))
  | .rsc => Machine.sub b a (boolWord (!f.c))
  | .tst => logical f cout (a &&& b)
  | .teq => logical f cout (a ^^^ b)
  | .cmp => Machine.sub a b 0#32
  | .cmn => Machine.add a b 0#32
  | .orr => logical f cout (a ||| b)
  | .mov => logical f cout b
  | .bic => logical f cout (a &&& ~~~b)
  | .mvn => logical f cout (~~~b)

end Sys2Proof.Machine
end

