-- ==== Sys2Proof/Machine/Ops.lean ====
section
/-! DEFINITION. The named operations over memory, registers and status registers; the fetch unit; taking an
exception and returning from one; the host's operations. -/

namespace Sys2Proof

/-- A register field of the 16-bit set as a register index (45 R280). -/
def LoReg.reg (r : LoReg) : Reg := ⟨r.val, by omega⟩

end Sys2Proof

namespace Sys2Proof.Machine

/-- What a meaning or a step answers. -/
abbrev Result := Host.Outcome State Fault Refusal

/-! ## Memory: the reference bus (20_memory.md R61 to R66) -/

/-- The form of a memory list above a lower bound: addresses rise strictly, lie in the 32-bit space, and no
listed byte equals the fill byte. -/
def Memory.wfFrom (lo : Nat) : Memory → Bool
  | [] => true
  | (a, v) :: rest => lo ≤ a && a < 2 ^ 32 && v != Config.busFill && Memory.wfFrom (a + 1) rest

/-- The one canonical form of a memory: equal memories are equal lists. -/
def Memory.wf (m : Memory) : Bool := Memory.wfFrom 0 m

/-- `read_byte`: a listed byte, else `BUS_FILL` (R65). -/
def Memory.read (a : Nat) : Memory → Byte
  | [] => Config.busFill
  | (b, v) :: rest => if a = b then v else if a < b then Config.busFill else Memory.read a rest

/-- Put a byte in front unless it is the fill byte. -/
def Memory.consByte (a : Nat) (v : Byte) (m : Memory) : Memory :=
  if v = Config.busFill then m else (a, v) :: m

/-- `write_byte`, keeping the canonical form. -/
def Memory.write (a : Nat) (v : Byte) : Memory → Memory
  | [] => Memory.consByte a v []
  | (b, u) :: rest =>
    if a < b then Memory.consByte a v ((b, u) :: rest)
    else if a = b then Memory.consByte a v rest
    else (b, u) :: Memory.write a v rest

/-- One byte of the address space; an address is a 32-bit value (R60). -/
def State.readByte (s : State) (a : Word) : Byte := s.mem.read a.toNat

/-- `MemRead(a, 2)`: the low-order byte at the low address, addresses wrap (R62). -/
def State.readHalf (s : State) (a : Word) : Half := s.readByte (a + 1) ++ s.readByte a

/-- `MemRead(a, 4)` (R62). -/
def State.readWord (s : State) (a : Word) : Word :=
  s.readByte (a + 3) ++ s.readByte (a + 2) ++ s.readByte (a + 1) ++ s.readByte a

/-- `MemWrite(a, 1, v)`. -/
def State.writeByte (s : State) (a : Word) (v : Byte) : State := { s with mem := s.mem.write a.toNat v }

/-- `MemWrite(a, 2, v)`: bytes in ascending order (R62). -/
def State.writeHalf (s : State) (a : Word) (v : Half) : State :=
  (s.writeByte a (field v 0 8)).writeByte (a + 1) (field v 8 8)

/-- `MemWrite(a, 4, v)` (R62). -/
def State.writeWord (s : State) (a : Word) (v : Word) : State :=
  (((s.writeByte a (field v 0 8)).writeByte (a + 1) (field v 8 8)).writeByte (a + 2)
    (field v 16 8)).writeByte (a + 3) (field v 24 8)

/-- Bytes stored one after another from an address: what the environment may do between ticks (70 R422). -/
def State.storeBytes (s : State) (a : Word) : List Byte → State
  | [] => s
  | b :: bs => (s.writeByte a b).storeBytes (a + 1) bs

/-! ## Registers (10_state.md R21 to R26) -/

/-- Reading one physical register. -/
def RegFile.read (r : RegFile) : Phys → Word
  | .common i => r.common[i]
  | .fiq i => r.fiq[i]
  | .svc i => r.svc[i]
  | .abt i => r.abt[i]
  | .irq i => r.irq[i]
  | .und i => r.und[i]
  | .pc => r.pc

/-- Writing one physical register. -/
def RegFile.write (r : RegFile) (p : Phys) (v : Word) : RegFile :=
  match p with
  | .common i => { r with common := r.common.set i v }
  | .fiq i => { r with fiq := r.fiq.set i v }
  | .svc i => { r with svc := r.svc.set i v }
  | .abt i => { r with abt := r.abt.set i v }
  | .irq i => { r with irq := r.irq.set i v }
  | .und i => { r with und := r.und.set i v }
  | .pc => { r with pc := v }

/-- The bank mapping `phys(m, i)` of R24. -/
def phys (m : Mode) (i : Reg) : Phys :=
  if h15 : i.val = 15 then .pc
  else if h8 : i.val < 8 then .common ⟨i.val, by omega⟩
  else
    match m with
    | .user => .common ⟨i.val, by omega⟩
    | .system => .common ⟨i.val, by omega⟩
    | .fiq => .fiq ⟨i.val - 8, by omega⟩
    | .supervisor => if h13 : i.val < 13 then .common ⟨i.val, by omega⟩ else .svc ⟨i.val - 13, by omega⟩
    | .abort => if h13 : i.val < 13 then .common ⟨i.val, by omega⟩ else .abt ⟨i.val - 13, by omega⟩
    | .irq => if h13 : i.val < 13 then .common ⟨i.val, by omega⟩ else .irq ⟨i.val - 13, by omega⟩
    | .undefined => if h13 : i.val < 13 then .common ⟨i.val, by omega⟩ else .und ⟨i.val - 13, by omega⟩

/-- The program counter `x[15]`. -/
def State.pc (s : State) : Word := s.regs.pc

/-- `x[i]`: a visible register of the current mode (R24). -/
def State.readReg (s : State) (i : Reg) : Word := s.regs.read (phys s.cpsr.mode i)

/-- `x_usr[i]`: through the User bank whatever the mode (R24). -/
def State.readUserReg (s : State) (i : Reg) : Word := s.regs.read (phys .user i)

/-- Writing a physical register, and nothing else. -/
def State.setPhys (s : State) (p : Phys) (v : Word) : State := { s with regs := s.regs.write p v }

/-- Writing `x[15]`, and nothing else: the pipeline is reloaded by the caller. -/
def State.setPc (s : State) (v : Word) : State := s.setPhys .pc v

/-! ## The fetch unit (40_cycle_and_primitives.md R142 to R144) -/

/-- The current instruction width `w` (00_scope.md R9). -/
def State.width (s : State) : Word := if s.cpsr.t then 2#32 else 4#32

/-- `Fetch(addr)` (R144): a halfword is zero-extended. -/
def State.fetch (s : State) (a : Word) : Word :=
  if s.cpsr.t then (s.readHalf a).zeroExtend 32 else s.readWord a

/-- An address aligned to the current instruction width: `a & ~(w - 1)`. -/
def State.align (s : State) (a : Word) : Word := a &&& ~~~(s.width - 1)

/-- `advance()` (R142). -/
def State.advance (s : State) : State :=
  let a := s.align s.pc
  { s with pipeCur := s.pipeNext, pipeNext := s.fetch a, regs := { s.regs with pc := a + s.width } }

/-- `reload()` (R143): the current slot is left 0 and never decoded (U4; DEDUCED, log entry 5). -/
def State.reload (s : State) : State :=
  let a := s.align s.pc
  { s with pipeCur := 0#32, pipeNext := s.fetch a, regs := { s.regs with pc := a + s.width } }

/-- `pc <- target` (00_scope.md R11): write and reload. -/
def State.branchTo (s : State) (target : Word) : State := (s.setPc target).reload

/-- `x[i] <- v` by an instruction: a write of register 15 is `pc <- v` (00_scope.md R11). -/
def State.writeReg (s : State) (i : Reg) (v : Word) : State :=
  if i = 15 then s.branchTo v else s.setPhys (phys s.cpsr.mode i) v

/-- `x_usr[i] <- v` (44 R270). -/
def State.writeUserReg (s : State) (i : Reg) (v : Word) : State :=
  if i = 15 then s.branchTo v else s.setPhys (phys .user i) v

/-- The instruction in the current slot, by the decoder that the state bit selects (R141, R145). -/
def State.currentInstr (s : State) : Instr :=
  if s.cpsr.t then decodeThumb (field s.pipeCur 0 16) else decodeArm s.pipeCur

/-- `BX(target)` (R165): bit 0 selects the instruction set. -/
def State.branchExchange (s : State) (target : Word) : State :=
  if target.getLsbD 0 then
    { s with cpsr := { s.cpsr with t := true } }.branchTo (target &&& 0xFFFFFFFE#32)
  else { s with cpsr := { s.cpsr with t := false } }.branchTo (target &&& 0xFFFFFFFC#32)

/-! ## Status registers (10_state.md R30 to R34) -/

/-- The mode numbers (R32). -/
def Mode.bits : Mode → BitVec 5
  | .user => 0x10#5
  | .fiq => 0x11#5
  | .irq => 0x12#5
  | .supervisor => 0x13#5
  | .abort => 0x17#5
  | .undefined => 0x1B#5
  | .system => 0x1F#5

/-- The mode a 5-bit field names, if any (R32). -/
def Mode.ofBits? (b : BitVec 5) : Option Mode :=
  match b with
  | 0x10#5 => some .user
  | 0x11#5 => some .fiq
  | 0x12#5 => some .irq
  | 0x13#5 => some .supervisor
  | 0x17#5 => some .abort
  | 0x1B#5 => some .undefined
  | 0x1F#5 => some .system
  | _ => none

/-- The exception mode that a mode is, if it owns an SPSR (R33). -/
def Mode.excMode? : Mode → Option ExcMode
  | .user => none
  | .system => none
  | .fiq => some .fiq
  | .irq => some .irq
  | .supervisor => some .supervisor
  | .abort => some .abort
  | .undefined => some .undefined

def ExcMode.mode : ExcMode → Mode
  | .fiq => .fiq
  | .irq => .irq
  | .supervisor => .supervisor
  | .abort => .abort
  | .undefined => .undefined

def SpsrBank.get (b : SpsrBank) : ExcMode → Psr
  | .fiq => b.fiq
  | .irq => b.irq
  | .supervisor => b.svc
  | .abort => b.abt
  | .undefined => b.und

def SpsrBank.set (b : SpsrBank) (m : ExcMode) (p : Psr) : SpsrBank :=
  match m with
  | .fiq => { b with fiq := p }
  | .irq => { b with irq := p }
  | .supervisor => { b with svc := p }
  | .abort => { b with abt := p }
  | .undefined => { b with und := p }

/-- A status register as a 32-bit value; bits 27:8 are zero (R30). -/
def Psr.word (p : Psr) : Word :=
  BitVec.ofBool p.flags.n ++ BitVec.ofBool p.flags.z ++ BitVec.ofBool p.flags.c ++ BitVec.ofBool p.flags.v
    ++ 0#20 ++ BitVec.ofBool p.i ++ BitVec.ofBool p.f ++ BitVec.ofBool p.t ++ p.m

/-- The fields of a 32-bit status value; bits 27:8 are ignored (R30). -/
def Psr.ofWord (w : Word) : Psr :=
  ⟨⟨w.getLsbD 31, w.getLsbD 30, w.getLsbD 29, w.getLsbD 28⟩, w.getLsbD 7, w.getLsbD 6, w.getLsbD 5,
    field w 0 5⟩

/-- The CPSR as saved in an SPSR. -/
def Cpsr.toPsr (c : Cpsr) : Psr := ⟨c.flags, c.i, c.f, c.t, c.mode.bits⟩

/-- The CPSR a saved status describes, if its mode field names a mode (R34). -/
def Psr.toCpsr? (p : Psr) : Option Cpsr :=
  (Mode.ofBits? p.m).map fun mode => ⟨p.flags, p.i, p.f, p.t, mode⟩

/-- The CPSR read as a 32-bit value. -/
def Cpsr.word (c : Cpsr) : Word := c.toPsr.word

/-- The flags replaced, nothing else of the state. -/
def State.setFlags (s : State) (f : Flags) : State := { s with cpsr := { s.cpsr with flags := f } }

/-! ## Taking an exception (60_exceptions.md R381 to R386) -/

/-- The exception kinds from the highest priority to the lowest (R381). -/
def ExcKind.byPriority : List ExcKind :=
  [.reset, .dataAbort, .fastInterrupt, .interrupt, .prefetchAbort, .softwareInterrupt, .undefinedInstr]

/-- The fixed vector address of each kind (R382). -/
def ExcKind.vector : ExcKind → Word
  | .reset => 0x00#32
  | .undefinedInstr => 0x04#32
  | .softwareInterrupt => 0x08#32
  | .prefetchAbort => 0x0C#32
  | .dataAbort => 0x10#32
  | .interrupt => 0x18#32
  | .fastInterrupt => 0x1C#32

/-- The entry mode of each kind (R382). -/
def ExcKind.entryMode : ExcKind → ExcMode
  | .reset => .supervisor
  | .undefinedInstr => .undefined
  | .softwareInterrupt => .supervisor
  | .prefetchAbort => .abort
  | .dataAbort => .abort
  | .interrupt => .irq
  | .fastInterrupt => .fiq

/-- Reset and FastInterrupt also set F (R382, R386). -/
def ExcKind.setsF : ExcKind → Bool
  | .reset => true
  | .fastInterrupt => true
  | _ => false

def Pending.get (p : Pending) : ExcKind → Bool
  | .reset => p.reset
  | .dataAbort => p.dataAbort
  | .fastInterrupt => p.fastInterrupt
  | .interrupt => p.interrupt
  | .prefetchAbort => p.prefetchAbort
  | .softwareInterrupt => p.softwareInterrupt
  | .undefinedInstr => p.undefinedInstr

def Pending.set (p : Pending) (k : ExcKind) (b : Bool) : Pending :=
  match k with
  | .reset => { p with reset := b }
  | .dataAbort => { p with dataAbort := b }
  | .fastInterrupt => { p with fastInterrupt := b }
  | .interrupt => { p with interrupt := b }
  | .prefetchAbort => { p with prefetchAbort := b }
  | .softwareInterrupt => { p with softwareInterrupt := b }
  | .undefinedInstr => { p with undefinedInstr := b }

/-- `pending[k] <- b`. -/
def State.setPending (s : State) (k : ExcKind) (b : Bool) : State :=
  { s with pending := s.pending.set k b }

/-- `raise_exception(k)`, by the environment or by an instruction (R383). -/
def State.raiseException (s : State) (k : ExcKind) : State := s.setPending k true

/-- The CPSR an entry leaves: mode of the kind, T = 0, I = 1, F set for two kinds, flags kept (R386). -/
def Cpsr.entered (c : Cpsr) (k : ExcKind) : Cpsr :=
  { c with i := true, f := c.f || k.setsF, t := false, mode := k.entryMode.mode }

/-- `Enter(k)` (R386): SPSR and R14 of the entry mode are saved, the status changes, the PC goes to the
vector and the pipeline reloads. The link value is `x[15] - 4` in both states (90_conflicts.md C3). -/
def State.enter (s : State) (k : ExcKind) : State :=
  let link := s.pc - 4
  let s := { s with spsr := s.spsr.set k.entryMode s.cpsr.toPsr, cpsr := s.cpsr.entered k }
  (s.setPhys (phys k.entryMode.mode 14) link).branchTo k.vector

/-- Whether a kind is masked: Interrupt by I, FastInterrupt by F (R385). -/
def Cpsr.masks (c : Cpsr) : ExcKind → Bool
  | .interrupt => c.i
  | .fastInterrupt => c.f
  | _ => false

/-- The loop of `service()` over the kinds still to visit: each pending flag visited is cleared, a masked
kind is dropped, the first other one is entered (R384, R385). -/
def State.serviceFrom (s : State) : List ExcKind → Bool × State
  | [] => (false, s)
  | k :: ks =>
    if s.pending.get k then
      let s := s.setPending k false
      if s.cpsr.masks k then s.serviceFrom ks else (true, s.enter k)
    else s.serviceFrom ks

/-- `service()` (R384): whether an exception was entered, and the state. -/
def State.service (s : State) : Bool × State := s.serviceFrom ExcKind.byPriority

/-! ## Returning from an exception (41 R200, 44 R271) -/

/-- `CPSR <- SPSR` of the current mode, then the rest of the instruction. No SPSR, or a saved mode field
that names no mode, is `refuse` (10_state.md R33, R34). -/
def State.restoreStatus (s : State) (k : State → Result) : Result :=
  match s.cpsr.mode.excMode? with
  | none => .refused .noSpsr
  | some m =>
    match (s.spsr.get m).toCpsr? with
    | none => .refused .invalidMode
    | some c => k { s with cpsr := c }

/-- The return: the status is restored, then `pc <- target` reloads under the restored state bit. -/
def State.exceptionReturn (s : State) (target : Word) : Result :=
  s.restoreStatus fun s => .next (s.branchTo target)

/-! ## Conditions and the host -/

/-- A 32-bit instruction whose condition fails does nothing at all (43 R235). -/
def State.whenCond (s : State) (c : Cond) (k : State → Result) : Result :=
  if condPassed c s.cpsr.flags then k s else .next s

/-- `reset(bus)` (70 R421): running, nothing pending, the Reset entry, one advance, then R14_svc <- 0. -/
def State.hostReset (s : State) : State :=
  let s := { s with running := true, pending := Pending.none }
  (s.enter .reset).advance.setPhys (phys .supervisor 14) 0#32

end Sys2Proof.Machine
end

