-- ==== Sys2Proof/Machine/Operands.lean ====
section
/-! DEFINITION. Operand forms and addressing modes of both sets (30_encoding.md R99, R112). -/

namespace Sys2Proof

/-- The status bits an MSR field mask selects: f 31:28, c 7:0; s and x select no state (41 R203). -/
def FieldMask.word (k : FieldMask) : Word :=
  (if k.f then 0xF0000000#32 else 0#32) ||| (if k.c then 0x000000FF#32 else 0#32)

/-- `idx` of R246 and R255: the base with the offset added or subtracted. -/
def IndexMode.index (m : IndexMode) (base off : Word) : Word := if m.u then base + off else base - off

/-- `addr` of R246 and R255: pre-indexed or post-indexed. -/
def IndexMode.address (m : IndexMode) (base off : Word) : Word := if m.p then m.index base off else base

/-- `wb` of R246 and R255: post-indexing always writes the base back. -/
def IndexMode.writesBack (m : IndexMode) : Bool := !m.p || m.w

/-- The registers 0 to 15, ascending. -/
def allRegs : List Reg := [0, 1, 2, 3, 4, 5, 6, 7, 8, 9, 10, 11, 12, 13, 14, 15]

/-- The registers of a 16-bit register list, ascending (44 R265). -/
def regsOfList (list : BitVec 16) : List Reg := allRegs.filter fun r => list.getLsbD r.val

/-- The registers R0 to R7 of an 8-bit register list, ascending (46 R353). -/
def loRegsOfList (list : BitVec 8) : List Reg := regsOfList (list.zeroExtend 16)

/-- `4 * n` as a word. -/
def blockSize (n : Nat) : Word := BitVec.ofNat 32 (4 * n)

/-- The first address of a block transfer of `n` registers (44 R265). -/
def IndexMode.blockStart (m : IndexMode) (base : Word) (n : Nat) : Word :=
  match m.u, m.p with
  | true, true => base + 4
  | true, false => base
  | false, true => base - blockSize n
  | false, false => base - blockSize n + 4

/-- The base a block transfer writes back (44 R265). -/
def IndexMode.blockFinal (m : IndexMode) (base : Word) (n : Nat) : Word :=
  if m.u then base + blockSize n else base - blockSize n

/-- Whether a block transfer of `list` writes the base back: with W = 1, but an empty list changes nothing, R15
as base included (44 R269). -/
def IndexMode.blockWritesBack (m : IndexMode) (list : BitVec 16) : Bool := m.w && list != 0#16

end Sys2Proof

namespace Sys2Proof.Machine

/-- The immediate of a data-processing instruction or MSR: `imm8` rotated right by `2 * rotate`. -/
def rotatedImm (rotate : Fin 16) (imm8 : BitVec 8) : Word := rotr (imm8.zeroExtend 32) (2 * rotate.val)

/-- The second operand and the shifter's carry out (41 R181, R182, R183). -/
def State.operand2 (s : State) : Operand2 → Word × Bool
  | .imm rotate imm8 => ror s.cpsr.flags.c (imm8.zeroExtend 32) (2 * rotate.val)
  | .regImm rm ty amount => shift ty s.cpsr.flags.c (s.readReg rm) amount.val
  | .regReg rm ty rs => shiftByReg ty s.cpsr.flags.c (s.readReg rm) (field (s.readReg rs) 0 8).toNat

/-- The operand of MSR (41 R203). -/
def State.msrOperand (s : State) : MsrOperand → Word
  | .reg rm => s.readReg rm
  | .imm rotate imm8 => rotatedImm rotate imm8

/-- The offset of a single data transfer; the shifter's carry is discarded (44 R246). -/
def State.wordOffset (s : State) : WordOffset → Word
  | .imm imm12 => imm12.zeroExtend 32
  | .reg rm ty amount => (shift ty s.cpsr.flags.c (s.readReg rm) amount.val).1

/-- The offset of a halfword or signed transfer (44 R255). -/
def State.halfOffset (s : State) : HalfOffset → Word
  | .imm off8 => off8.zeroExtend 32
  | .reg rm => s.readReg rm

/-- The base writeback of a single transfer; to register 15 it is a branch (44 R245 (e), R273). -/
def State.writeBack (s : State) (m : IndexMode) (rn : Reg) (idx : Word) : State :=
  if m.writesBack then s.writeReg rn idx else s

/-- `n` words read in ascending address order. -/
def State.loadWords (s : State) (a : Word) : Nat → List Word
  | 0 => []
  | n + 1 => s.readWord a :: s.loadWords (a + 4) n

/-- Words written in ascending address order. -/
def State.storeWords (s : State) (a : Word) : List Word → State
  | [] => s
  | v :: vs => (s.writeWord a v).storeWords (a + 4) vs

/-- Loaded values put into their registers, in order. -/
def State.writeRegs (s : State) : List (Reg × Word) → State
  | [] => s
  | (r, v) :: rest => (s.writeReg r v).writeRegs rest

/-- Loaded values put into the User bank, in order (44 R270). -/
def State.writeUserRegs (s : State) : List (Reg × Word) → State
  | [] => s
  | (r, v) :: rest => (s.writeUserReg r v).writeUserRegs rest

/-- The PC value that the 16-bit set's formats 6 and 12 use: bit 1 cleared (46 R330, 45 R322). -/
def State.wordPc (s : State) : Word := s.pc &&& 0xFFFFFFFD#32

end Sys2Proof.Machine
end

