-- ==== Sys2Proof/Machine/BlockTransfer.lean ====
section
/-! DEFINITION. LDM and STM of the 32-bit set (44_arm_load_store.md R265 to R273). -/

namespace Sys2Proof.Machine

/-- LDM: all words are read first, then the base writeback, then the loaded registers, then R15
(R266). With S = 1 and R15 in the list the status is restored before `pc` (R271); with S = 1 and no R15
the User bank is loaded (R270). An empty list changes nothing (R269). -/
def execLdm (c : Cond) (m : IndexMode) (sf : Bool) (rn : Reg) (list : BitVec 16) (s : State) : Result :=
  s.whenCond c fun s =>
    let base := s.readReg rn
    let n := (regsOfList list).length
    let low := (regsOfList list).filter (· ≠ 15)
    let start := m.blockStart base n
    let loaded := low.zip (s.loadWords start low.length)
    let target := s.readWord (start + blockSize low.length)
    let s1 := if m.blockWritesBack list then s.writeReg rn (m.blockFinal base n) else s
    if list.getLsbD 15 then
      if sf then (s1.writeRegs loaded).exceptionReturn target
      else .next ((s1.writeRegs loaded).branchTo target)
    else if sf then .next (s1.writeUserRegs loaded)
    else .next (s1.writeRegs loaded)

/-- STM: all registers are read first, so a base in the list stores its original value (R267); with S = 1
the User bank is stored (R272). An empty list changes nothing (R269). -/
def execStm (c : Cond) (m : IndexMode) (sf : Bool) (rn : Reg) (list : BitVec 16) (s : State) : Result :=
  s.whenCond c fun s =>
    let base := s.readReg rn
    let regs := regsOfList list
    let n := regs.length
    let vs := regs.map (if sf then s.readUserReg else s.readReg)
    let s1 := s.storeWords (m.blockStart base n) vs
    .next (if m.blockWritesBack list then s1.writeReg rn (m.blockFinal base n) else s1)

end Sys2Proof.Machine
end

