-- ==== Sys2Proof/Machine/Branch.lean ====
section
/-! DEFINITION. Branches, software interrupt and unallocated encodings of the 32-bit set
(43_arm_branch_system.md). -/

namespace Sys2Proof.Machine

/-- The target of B and BL: `x[15] + (sext_24(imm24) << 2)` (R230). -/
def State.armTarget (s : State) (imm24 : BitVec 24) : Word := s.pc + (imm24.signExtend 32 <<< 2)

/-- B (R230). -/
def execB (c : Cond) (imm24 : BitVec 24) (s : State) : Result :=
  s.whenCond c fun s => .next (s.branchTo (s.armTarget imm24))

/-- BL (R231): R14 receives the address of the following instruction. -/
def execBl (c : Cond) (imm24 : BitVec 24) (s : State) : Result :=
  s.whenCond c fun s => .next ((s.writeReg 14 (s.pc - 4)).branchTo (s.armTarget imm24))

/-- BX (R232). -/
def execBx (c : Cond) (rm : Reg) (s : State) : Result :=
  s.whenCond c fun s => .next (s.branchExchange (s.readReg rm))

/-- SWI (R233): SoftwareInterrupt becomes pending and is entered by the next tick's `service()`; the
comment is ignored. -/
def execSwi (c : Cond) (s : State) : Result :=
  s.whenCond c fun s => .next (s.raiseException .softwareInterrupt)

/-- An unallocated encoding (R234): UndefinedInstr becomes pending and nothing else happens. -/
def execUndefinedArm (c : Cond) (s : State) : Result :=
  s.whenCond c fun s => .next (s.raiseException .undefinedInstr)

end Sys2Proof.Machine
end

