-- ==== Sys2Proof/Machine/DataProcessing.lean ====
section
/-! DEFINITION. Data processing of the 32-bit set (41_arm_data_processing.md R180 to R201). -/

namespace Sys2Proof.Machine

/-- A data-processing instruction that writes a register (R180). Operands are read before anything is
written; with S = 1 and Rd = 15 it is an exception return (R200), else S = 1 sets the flags; a write of
R15 reloads the pipeline. -/
def dataProcessing (op : DpOp) (c : Cond) (sf : Bool) (rn rd : Reg) (o : Operand2) (s : State) : Result :=
  s.whenCond c fun s =>
    let b := s.operand2 o
    let r := op.eval s.cpsr.flags b.2 (s.readReg rn) b.1
    if sf && rd == 15 then s.exceptionReturn r.value
    else .next ((if sf then s.setFlags r.flags else s).writeReg rd r.value)

/-- TST, TEQ, CMP, CMN: the flags are set and no register is written; Rd is ignored (R180, R192 to R195). -/
def dataCompare (op : DpOp) (c : Cond) (rn : Reg) (o : Operand2) (s : State) : Result :=
  s.whenCond c fun s =>
    let b := s.operand2 o
    .next (s.setFlags (op.eval s.cpsr.flags b.2 (s.readReg rn) b.1).flags)

/-- AND (R184). -/
def execAnd (c : Cond) (sf : Bool) (rn rd : Reg) (o : Operand2) (s : State) : Result :=
  dataProcessing .and c sf rn rd o s

/-- EOR (R185). -/
def execEor (c : Cond) (sf : Bool) (rn rd : Reg) (o : Operand2) (s : State) : Result :=
  dataProcessing .eor c sf rn rd o s

/-- SUB (R186). -/
def execSub (c : Cond) (sf : Bool) (rn rd : Reg) (o : Operand2) (s : State) : Result :=
  dataProcessing .sub c sf rn rd o s

/-- RSB (R187). -/
def execRsb (c : Cond) (sf : Bool) (rn rd : Reg) (o : Operand2) (s : State) : Result :=
  dataProcessing .rsb c sf rn rd o s

/-- ADD (R188). -/
def execAdd (c : Cond) (sf : Bool) (rn rd : Reg) (o : Operand2) (s : State) : Result :=
  dataProcessing .add c sf rn rd o s

/-- ADC (R189). -/
def execAdc (c : Cond) (sf : Bool) (rn rd : Reg) (o : Operand2) (s : State) : Result :=
  dataProcessing .adc c sf rn rd o s

/-- SBC (R190). -/
def execSbc (c : Cond) (sf : Bool) (rn rd : Reg) (o : Operand2) (s : State) : Result :=
  dataProcessing .sbc c sf rn rd o s

/-- RSC (R191). -/
def execRsc (c : Cond) (sf : Bool) (rn rd : Reg) (o : Operand2) (s : State) : Result :=
  dataProcessing .rsc c sf rn rd o s

/-- ORR (R196). -/
def execOrr (c : Cond) (sf : Bool) (rn rd : Reg) (o : Operand2) (s : State) : Result :=
  dataProcessing .orr c sf rn rd o s

/-- MOV (R197). -/
def execMov (c : Cond) (sf : Bool) (rn rd : Reg) (o : Operand2) (s : State) : Result :=
  dataProcessing .mov c sf rn rd o s

/-- BIC (R198). -/
def execBic (c : Cond) (sf : Bool) (rn rd : Reg) (o : Operand2) (s : State) : Result :=
  dataProcessing .bic c sf rn rd o s

/-- MVN (R201). -/
def execMvn (c : Cond) (sf : Bool) (rn rd : Reg) (o : Operand2) (s : State) : Result :=
  dataProcessing .mvn c sf rn rd o s

/-- TST (R192). -/
def execTst (c : Cond) (rn : Reg) (o : Operand2) (s : State) : Result := dataCompare .tst c rn o s

/-- TEQ (R193). -/
def execTeq (c : Cond) (rn : Reg) (o : Operand2) (s : State) : Result := dataCompare .teq c rn o s

/-- CMP (R194). -/
def execCmp (c : Cond) (rn : Reg) (o : Operand2) (s : State) : Result := dataCompare .cmp c rn o s

/-- CMN (R195). -/
def execCmn (c : Cond) (rn : Reg) (o : Operand2) (s : State) : Result := dataCompare .cmn c rn o s

end Sys2Proof.Machine
end

