-- ==== Sys2Proof/Machine/LoadStore.lean ====
section
/-! DEFINITION. Single, halfword and signed transfers and swaps of the 32-bit set
(44_arm_load_store.md R245 to R263). -/

namespace Sys2Proof.Machine

/-- A load: the access, then the base writeback, then the destination, so that a loaded base wins
(R247, R256). -/
def loadTransfer (read : State → Word → Word) (off : State → Word) (c : Cond) (m : IndexMode) (rn rd : Reg)
    (s : State) : Result :=
  s.whenCond c fun s =>
    let base := s.readReg rn
    let v := read s (m.address base (off s))
    .next ((s.writeBack m rn (m.index base (off s))).writeReg rd v)

/-- A store: the data is read before the writeback (R248, R257). -/
def storeTransfer (write : State → Word → Word → State) (off : State → Word) (c : Cond) (m : IndexMode)
    (rn rd : Reg) (s : State) : Result :=
  s.whenCond c fun s =>
    let base := s.readReg rn
    .next ((write s (m.address base (off s)) (s.readReg rd)).writeBack m rn (m.index base (off s)))

/-! ## The access widths (20_memory.md R68) -/

def State.loadByte (s : State) (a : Word) : Word := (s.readByte a).zeroExtend 32

def State.loadHalf (s : State) (a : Word) : Word := (s.readHalf a).zeroExtend 32

def State.loadSignedByte (s : State) (a : Word) : Word := (s.readByte a).signExtend 32

def State.loadSignedHalf (s : State) (a : Word) : Word := (s.readHalf a).signExtend 32

/-- The low byte of `v` stored (R64). -/
def State.storeByte (s : State) (a v : Word) : State := s.writeByte a (field v 0 8)

/-- The low halfword of `v` stored (R64). -/
def State.storeHalf (s : State) (a v : Word) : State := s.writeHalf a (field v 0 16)

/-! ## The instructions -/

/-- LDR (R247). -/
def execLdr (c : Cond) (m : IndexMode) (rn rd : Reg) (o : WordOffset) (s : State) : Result :=
  loadTransfer State.readWord (fun s => s.wordOffset o) c m rn rd s

/-- LDRB (R249). -/
def execLdrb (c : Cond) (m : IndexMode) (rn rd : Reg) (o : WordOffset) (s : State) : Result :=
  loadTransfer State.loadByte (fun s => s.wordOffset o) c m rn rd s

/-- STR (R248). -/
def execStr (c : Cond) (m : IndexMode) (rn rd : Reg) (o : WordOffset) (s : State) : Result :=
  storeTransfer State.writeWord (fun s => s.wordOffset o) c m rn rd s

/-- STRB (R250). -/
def execStrb (c : Cond) (m : IndexMode) (rn rd : Reg) (o : WordOffset) (s : State) : Result :=
  storeTransfer State.storeByte (fun s => s.wordOffset o) c m rn rd s

/-- LDRH (R256). -/
def execLdrh (c : Cond) (m : IndexMode) (rn rd : Reg) (o : HalfOffset) (s : State) : Result :=
  loadTransfer State.loadHalf (fun s => s.halfOffset o) c m rn rd s

/-- LDRSB (R258). -/
def execLdrsb (c : Cond) (m : IndexMode) (rn rd : Reg) (o : HalfOffset) (s : State) : Result :=
  loadTransfer State.loadSignedByte (fun s => s.halfOffset o) c m rn rd s

/-- LDRSH (R259). -/
def execLdrsh (c : Cond) (m : IndexMode) (rn rd : Reg) (o : HalfOffset) (s : State) : Result :=
  loadTransfer State.loadSignedHalf (fun s => s.halfOffset o) c m rn rd s

/-- STRH (R257). -/
def execStrh (c : Cond) (m : IndexMode) (rn rd : Reg) (o : HalfOffset) (s : State) : Result :=
  storeTransfer State.storeHalf (fun s => s.halfOffset o) c m rn rd s

/-- SWP (R262): the read precedes the write. -/
def execSwp (c : Cond) (rn rd rm : Reg) (s : State) : Result :=
  s.whenCond c fun s =>
    let addr := s.readReg rn
    .next ((s.writeWord addr (s.readReg rm)).writeReg rd (s.readWord addr))

/-- SWPB (R263). -/
def execSwpb (c : Cond) (rn rd rm : Reg) (s : State) : Result :=
  s.whenCond c fun s =>
    let addr := s.readReg rn
    .next ((s.storeByte addr (s.readReg rm)).writeReg rd (s.loadByte addr))

end Sys2Proof.Machine
end

