-- ==== Sys2Proof/Machine/Multiply.lean ====
section
/-! DEFINITION. The multiplies of the 32-bit set (42_arm_multiply.md R220 to R226). -/

namespace Sys2Proof.Machine

/-- MUL (R221): `wrap32(x[Rm] * x[Rs])`; C and V unchanged. -/
def execMul (c : Cond) (sf : Bool) (rd rs rm : Reg) (s : State) : Result :=
  s.whenCond c fun s =>
    let r := mul s.cpsr.flags (s.readReg rm) (s.readReg rs)
    .next ((if sf then s.setFlags r.flags else s).writeReg rd r.value)

/-- MLA (R222): `wrap32(x[Rm] * x[Rs] + x[Rn])`; N and Z only. -/
def execMla (c : Cond) (sf : Bool) (rd rn rs rm : Reg) (s : State) : Result :=
  s.whenCond c fun s =>
    let r := s.readReg rm * s.readReg rs + s.readReg rn
    .next ((if sf then s.setFlags (s.cpsr.flags.setNZ r) else s).writeReg rd r)

/-- `x[RdHi] : x[RdLo]` as the 64-bit accumulator (R224). -/
def State.accumulator (s : State) (rdHi rdLo : Reg) : BitVec 64 := s.readReg rdHi ++ s.readReg rdLo

/-- The common end of the long multiplies: flags, then RdLo, then RdHi (R223). -/
def writeLong (sf : Bool) (rdHi rdLo : Reg) (p : BitVec 64) (s : State) : Result :=
  let s := if sf then s.setFlags (s.cpsr.flags.setNZ64 p) else s
  .next ((s.writeReg rdLo (field p 0 32)).writeReg rdHi (field p 32 32))

/-- UMULL (R223). -/
def execUmull (c : Cond) (sf : Bool) (rdHi rdLo rs rm : Reg) (s : State) : Result :=
  s.whenCond c fun s => writeLong sf rdHi rdLo (mulLong false (s.readReg rm) (s.readReg rs)) s

/-- UMLAL (R224): a carry out of bit 63 is lost. -/
def execUmlal (c : Cond) (sf : Bool) (rdHi rdLo rs rm : Reg) (s : State) : Result :=
  s.whenCond c fun s =>
    writeLong sf rdHi rdLo (mulLong false (s.readReg rm) (s.readReg rs) + s.accumulator rdHi rdLo) s

/-- SMULL (R225). -/
def execSmull (c : Cond) (sf : Bool) (rdHi rdLo rs rm : Reg) (s : State) : Result :=
  s.whenCond c fun s => writeLong sf rdHi rdLo (mulLong true (s.readReg rm) (s.readReg rs)) s

/-- SMLAL (R226). -/
def execSmlal (c : Cond) (sf : Bool) (rdHi rdLo rs rm : Reg) (s : State) : Result :=
  s.whenCond c fun s =>
    writeLong sf rdHi rdLo (mulLong true (s.readReg rm) (s.readReg rs) + s.accumulator rdHi rdLo) s

end Sys2Proof.Machine
end

