-- ==== Sys2Proof/Machine/StatusTransfer.lean ====
section
/-! DEFINITION. MRS and MSR (41_arm_data_processing.md R202 to R204). -/

namespace Sys2Proof.Machine

/-- MRS (R202): the CPSR, or the SPSR of the current mode, to a register; refused where there is no SPSR. -/
def execMrs (c : Cond) (spsr : Bool) (rd : Reg) (s : State) : Result :=
  s.whenCond c fun s =>
    if spsr then
      match s.cpsr.mode.excMode? with
      | none => .refused .noSpsr
      | some m => .next (s.writeReg rd (s.spsr.get m).word)
    else .next (s.writeReg rd s.cpsr.word)

/-- MSR to the CPSR (R203): in User mode the control field is protected; a change of T, or a mode value
that names no mode, is refused. -/
def writeCpsr (k : FieldMask) (v : Word) (s : State) : Result :=
  let mask := if s.cpsr.mode = .user then k.word &&& 0xF0000000#32 else k.word
  if mask.getLsbD 5 && v.getLsbD 5 != s.cpsr.t then .refused .msrChangesT
  else
    match (Psr.ofWord ((s.cpsr.word &&& ~~~mask) ||| (v &&& mask))).toCpsr? with
    | none => .refused .invalidMode
    | some new => .next { s with cpsr := new }

/-- MSR to the SPSR of the current mode (R204): any mode value and any T may be stored. -/
def writeSpsr (k : FieldMask) (v : Word) (s : State) : Result :=
  match s.cpsr.mode.excMode? with
  | none => .refused .noSpsr
  | some m =>
    let new := ((s.spsr.get m).word &&& ~~~k.word) ||| (v &&& k.word)
    .next { s with spsr := s.spsr.set m (Psr.ofWord new) }

/-- MSR: the R bit selects the CPSR (R203) or the SPSR (R204). -/
def execMsr (c : Cond) (spsr : Bool) (k : FieldMask) (o : MsrOperand) (s : State) : Result :=
  s.whenCond c fun s =>
    if spsr then writeSpsr k (s.msrOperand o) s else writeCpsr k (s.msrOperand o) s

end Sys2Proof.Machine
end

