-- ==== Sys2Proof/Machine/ThumbAlu.lean ====
section
/-! DEFINITION. The 16-bit set's formats 1 to 5, 12 and 13 (45_thumb_alu.md). -/

namespace Sys2Proof.Machine

/-- Flags and destination written. -/
def writeLo (rd : LoReg) (r : AluResult) (s : State) : Result :=
  .next ((s.setFlags r.flags).writeReg rd.reg r.value)

/-- Flags written, result discarded. -/
def flagsOnly (r : AluResult) (s : State) : Result := .next (s.setFlags r.flags)

/-- Format 1: shift by a 5-bit immediate (R282 to R284). -/
def thumbShiftImm (ty : ShiftType) (rd rs : LoReg) (off5 : Fin 32) (s : State) : Result :=
  let r := shift ty s.cpsr.flags.c (s.readReg rs.reg) off5.val
  writeLo rd (logical s.cpsr.flags r.2 r.1) s

/-- Format 4: shift by the low byte of a register; amount 0 leaves value and C (R303). -/
def thumbShiftReg (ty : ShiftType) (rd rs : LoReg) (s : State) : Result :=
  let r := shiftByReg ty s.cpsr.flags.c (s.readReg rd.reg) (field (s.readReg rs.reg) 0 8).toNat
  writeLo rd (logical s.cpsr.flags r.2 r.1) s

/-- Format 4: an operation on Rd and Rs with its result to Rd; a logical one leaves C (R281). -/
def thumbAlu (op : DpOp) (rd rs : LoReg) (s : State) : Result :=
  writeLo rd (op.eval s.cpsr.flags s.cpsr.flags.c (s.readReg rd.reg) (s.readReg rs.reg)) s

/-- Format 4: an operation whose result is discarded. -/
def thumbCompare (op : DpOp) (rd rs : LoReg) (s : State) : Result :=
  flagsOnly (op.eval s.cpsr.flags s.cpsr.flags.c (s.readReg rd.reg) (s.readReg rs.reg)) s

/-! ## Format 1 -/

/-- LSL immediate (R282). -/
def execTLslImm (rd rs : LoReg) (off5 : Fin 32) (s : State) : Result := thumbShiftImm .lsl rd rs off5 s

/-- LSR immediate (R283). -/
def execTLsrImm (rd rs : LoReg) (off5 : Fin 32) (s : State) : Result := thumbShiftImm .lsr rd rs off5 s

/-- ASR immediate (R284). -/
def execTAsrImm (rd rs : LoReg) (off5 : Fin 32) (s : State) : Result := thumbShiftImm .asr rd rs off5 s

/-! ## Format 2 -/

/-- ADD register (R285). -/
def execTAddReg (rd rs rn : LoReg) (s : State) : Result :=
  writeLo rd (add (s.readReg rs.reg) (s.readReg rn.reg) 0#32) s

/-- SUB register (R286). -/
def execTSubReg (rd rs rn : LoReg) (s : State) : Result :=
  writeLo rd (sub (s.readReg rs.reg) (s.readReg rn.reg) 0#32) s

/-- ADD 3-bit immediate (R287). -/
def execTAddImm3 (rd rs : LoReg) (imm3 : BitVec 3) (s : State) : Result :=
  writeLo rd (add (s.readReg rs.reg) (imm3.zeroExtend 32) 0#32) s

/-- SUB 3-bit immediate (R288). -/
def execTSubImm3 (rd rs : LoReg) (imm3 : BitVec 3) (s : State) : Result :=
  writeLo rd (sub (s.readReg rs.reg) (imm3.zeroExtend 32) 0#32) s

/-! ## Format 3 -/

/-- MOV immediate (R289): C and V unchanged. -/
def execTMovImm (rd : LoReg) (off8 : BitVec 8) (s : State) : Result :=
  writeLo rd (logical s.cpsr.flags s.cpsr.flags.c (off8.zeroExtend 32)) s

/-- CMP immediate (R290). -/
def execTCmpImm (rd : LoReg) (off8 : BitVec 8) (s : State) : Result :=
  flagsOnly (sub (s.readReg rd.reg) (off8.zeroExtend 32) 0#32) s

/-- ADD 8-bit immediate (R291). -/
def execTAddImm8 (rd : LoReg) (off8 : BitVec 8) (s : State) : Result :=
  writeLo rd (add (s.readReg rd.reg) (off8.zeroExtend 32) 0#32) s

/-- SUB 8-bit immediate (R292). -/
def execTSubImm8 (rd : LoReg) (off8 : BitVec 8) (s : State) : Result :=
  writeLo rd (sub (s.readReg rd.reg) (off8.zeroExtend 32) 0#32) s

/-! ## Format 4 -/

/-- AND (R293). -/
def execTAnd (rd rs : LoReg) (s : State) : Result := thumbAlu .and rd rs s

/-- EOR (R294). -/
def execTEor (rd rs : LoReg) (s : State) : Result := thumbAlu .eor rd rs s

/-- LSL register (R295). -/
def execTLslReg (rd rs : LoReg) (s : State) : Result := thumbShiftReg .lsl rd rs s

/-- LSR register (R296). -/
def execTLsrReg (rd rs : LoReg) (s : State) : Result := thumbShiftReg .lsr rd rs s

/-- ASR register (R297). -/
def execTAsrReg (rd rs : LoReg) (s : State) : Result := thumbShiftReg .asr rd rs s

/-- ADC (R298). -/
def execTAdc (rd rs : LoReg) (s : State) : Result := thumbAlu .adc rd rs s

/-- SBC (R299). -/
def execTSbc (rd rs : LoReg) (s : State) : Result := thumbAlu .sbc rd rs s

/-- ROR register (R300). -/
def execTRorReg (rd rs : LoReg) (s : State) : Result := thumbShiftReg .ror rd rs s

/-- TST (R301). -/
def execTTst (rd rs : LoReg) (s : State) : Result := thumbCompare .tst rd rs s

/-- NEG (R302): `Sub(0, b, 0)`. -/
def execTNeg (rd rs : LoReg) (s : State) : Result := writeLo rd (sub 0#32 (s.readReg rs.reg) 0#32) s

/-- CMP register (R304). -/
def execTCmpReg (rd rs : LoReg) (s : State) : Result := thumbCompare .cmp rd rs s

/-- CMN (R305). -/
def execTCmn (rd rs : LoReg) (s : State) : Result := thumbCompare .cmn rd rs s

/-- ORR (R306). -/
def execTOrr (rd rs : LoReg) (s : State) : Result := thumbAlu .orr rd rs s

/-- MUL (R307): C and V unchanged. -/
def execTMul (rd rs : LoReg) (s : State) : Result :=
  writeLo rd (mul s.cpsr.flags (s.readReg rd.reg) (s.readReg rs.reg)) s

/-- BIC (R308). -/
def execTBic (rd rs : LoReg) (s : State) : Result := thumbAlu .bic rd rs s

/-- MVN (R309). -/
def execTMvn (rd rs : LoReg) (s : State) : Result := thumbAlu .mvn rd rs s

/-! ## Format 5 -/

/-- ADD high registers (R317): no flags. -/
def execTAddHi (rd rs : Reg) (s : State) : Result := .next (s.writeReg rd (s.readReg rd + s.readReg rs))

/-- CMP high registers (R318). -/
def execTCmpHi (rd rs : Reg) (s : State) : Result := flagsOnly (sub (s.readReg rd) (s.readReg rs) 0#32) s

/-- MOV high registers (R319): no flags. -/
def execTMovHi (rd rs : Reg) (s : State) : Result := .next (s.writeReg rd (s.readReg rs))

/-- BX (R321). -/
def execTBx (rs : Reg) (s : State) : Result := .next (s.branchExchange (s.readReg rs))

/-! ## Formats 12 and 13 -/

/-- ADD Rd, PC, #imm (R322): bit 1 of the PC value is cleared first. -/
def execTAddPcImm (rd : LoReg) (word8 : BitVec 8) (s : State) : Result :=
  .next (s.writeReg rd.reg (s.wordPc + (word8.zeroExtend 32 <<< 2)))

/-- ADD Rd, SP, #imm (R323). -/
def execTAddSpImm (rd : LoReg) (word8 : BitVec 8) (s : State) : Result :=
  .next (s.writeReg rd.reg (s.readReg 13 + (word8.zeroExtend 32 <<< 2)))

/-- ADD SP, #±imm (R324). -/
def execTAdjustSp (neg : Bool) (sword7 : BitVec 7) (s : State) : Result :=
  let off : Word := sword7.zeroExtend 32 <<< 2
  .next (s.writeReg 13 (if neg then s.readReg 13 - off else s.readReg 13 + off))

end Sys2Proof.Machine
end

