-- ==== Sys2Proof/Machine/ThumbBranch.lean ====
section
/-! DEFINITION. The 16-bit set's branches, software interrupt and unallocated encodings
(47_thumb_branch.md). -/

namespace Sys2Proof.Machine

/-- The target of a 16-bit branch: `x[15]` plus a signed offset in halfwords (R360). -/
def State.thumbTarget (s : State) (off : Word) : Word := s.pc + (off <<< 1)

/-- B{cond} (R361): nothing when the condition fails. -/
def thumbCondBranch (c : Cond) (soff8 : BitVec 8) (s : State) : Result :=
  s.whenCond c fun s => .next (s.branchTo (s.thumbTarget (soff8.signExtend 32)))

/-- BEQ (R361). -/
def execTBeq (soff8 : BitVec 8) (s : State) : Result := thumbCondBranch .eq soff8 s

/-- BNE (R361). -/
def execTBne (soff8 : BitVec 8) (s : State) : Result := thumbCondBranch .ne soff8 s

/-- BCS (R361). -/
def execTBcs (soff8 : BitVec 8) (s : State) : Result := thumbCondBranch .cs soff8 s

/-- BCC (R361). -/
def execTBcc (soff8 : BitVec 8) (s : State) : Result := thumbCondBranch .cc soff8 s

/-- BMI (R361). -/
def execTBmi (soff8 : BitVec 8) (s : State) : Result := thumbCondBranch .mi soff8 s

/-- BPL (R361). -/
def execTBpl (soff8 : BitVec 8) (s : State) : Result := thumbCondBranch .pl soff8 s

/-- BVS (R361). -/
def execTBvs (soff8 : BitVec 8) (s : State) : Result := thumbCondBranch .vs soff8 s

/-- BVC (R361). -/
def execTBvc (soff8 : BitVec 8) (s : State) : Result := thumbCondBranch .vc soff8 s

/-- BHI (R361). -/
def execTBhi (soff8 : BitVec 8) (s : State) : Result := thumbCondBranch .hi soff8 s

/-- BLS (R361). -/
def execTBls (soff8 : BitVec 8) (s : State) : Result := thumbCondBranch .ls soff8 s

/-- BGE (R361). -/
def execTBge (soff8 : BitVec 8) (s : State) : Result := thumbCondBranch .ge soff8 s

/-- BLT (R361). -/
def execTBlt (soff8 : BitVec 8) (s : State) : Result := thumbCondBranch .lt soff8 s

/-- BGT (R361). -/
def execTBgt (soff8 : BitVec 8) (s : State) : Result := thumbCondBranch .gt soff8 s

/-- BLE (R361). -/
def execTBle (soff8 : BitVec 8) (s : State) : Result := thumbCondBranch .le soff8 s

/-- SWI (R364): SoftwareInterrupt becomes pending; `value8` is ignored. -/
def execTSwi (s : State) : Result := .next (s.raiseException .softwareInterrupt)

/-- B (R362). -/
def execTB (off11 : BitVec 11) (s : State) : Result :=
  .next (s.branchTo (s.thumbTarget (off11.signExtend 32)))

/-- BL, first half (R366): R14 receives `A + 4` plus the high part of the offset. -/
def execTBlFirst (off11 : BitVec 11) (s : State) : Result :=
  .next (s.writeReg 14 (s.pc + (off11.signExtend 32 <<< 12)))

/-- BL, second half (R367): branch to R14 plus the low part; R14 receives the return address with bit 0
set. -/
def execTBlSecond (off11 : BitVec 11) (s : State) : Result :=
  let t := s.readReg 14 + (off11.zeroExtend 32 <<< 1)
  .next ((s.writeReg 14 ((s.pc - 2) ||| 1)).branchTo t)

/-- An unallocated halfword (R368): UndefinedInstr becomes pending and nothing else happens. -/
def execTUndefined (s : State) : Result := .next (s.raiseException .undefinedInstr)

end Sys2Proof.Machine
end

