-- ==== Sys2Proof/Machine/ThumbMemory.lean ====
section
/-! DEFINITION. The 16-bit set's formats 6 to 11, 14 and 15 (46_thumb_memory.md). -/

namespace Sys2Proof.Machine

/-- A load into a low register; no writeback (R331). -/
def thumbLoad (read : State → Word → Word) (rd : LoReg) (addr : Word) (s : State) : Result :=
  .next (s.writeReg rd.reg (read s addr))

/-- A store of a low register; no writeback (R331). -/
def thumbStore (write : State → Word → Word → State) (rd : LoReg) (addr : Word) (s : State) : Result :=
  .next (write s addr (s.readReg rd.reg))

/-- The address of formats 7 and 8: `x[Rb] + x[Ro]`. -/
def State.regAddress (s : State) (rb ro : LoReg) : Word := s.readReg rb.reg + s.readReg ro.reg

/-- The address of formats 9 and 10: `x[Rb] + (zext_5(offset5) << k)` (30_encoding.md R112). -/
def State.immAddress (s : State) (rb : LoReg) (off5 : BitVec 5) (k : Nat) : Word :=
  s.readReg rb.reg + (off5.zeroExtend 32 <<< k)

/-- The address of format 11: `x[13] + (zext_8(word8) << 2)`. -/
def State.spAddress (s : State) (word8 : BitVec 8) : Word := s.readReg 13 + (word8.zeroExtend 32 <<< 2)

/-! ## Format 6 -/

/-- LDR Rd, [PC, #imm] (R330). -/
def execTLdrPc (rd : LoReg) (word8 : BitVec 8) (s : State) : Result :=
  thumbLoad State.readWord rd (s.wordPc + (word8.zeroExtend 32 <<< 2)) s

/-! ## Formats 7 and 8 -/

/-- STR Rd, [Rb, Ro] (R332). -/
def execTStrReg (rd rb ro : LoReg) (s : State) : Result :=
  thumbStore State.writeWord rd (s.regAddress rb ro) s

/-- STRB Rd, [Rb, Ro] (R333). -/
def execTStrbReg (rd rb ro : LoReg) (s : State) : Result :=
  thumbStore State.storeByte rd (s.regAddress rb ro) s

/-- LDR Rd, [Rb, Ro] (R334). -/
def execTLdrReg (rd rb ro : LoReg) (s : State) : Result := thumbLoad State.readWord rd (s.regAddress rb ro) s

/-- LDRB Rd, [Rb, Ro] (R335). -/
def execTLdrbReg (rd rb ro : LoReg) (s : State) : Result :=
  thumbLoad State.loadByte rd (s.regAddress rb ro) s

/-- STRH Rd, [Rb, Ro] (R336). -/
def execTStrhReg (rd rb ro : LoReg) (s : State) : Result :=
  thumbStore State.storeHalf rd (s.regAddress rb ro) s

/-- LDSB Rd, [Rb, Ro] (R337). -/
def execTLdsbReg (rd rb ro : LoReg) (s : State) : Result :=
  thumbLoad State.loadSignedByte rd (s.regAddress rb ro) s

/-- LDRH Rd, [Rb, Ro] (R338). -/
def execTLdrhReg (rd rb ro : LoReg) (s : State) : Result :=
  thumbLoad State.loadHalf rd (s.regAddress rb ro) s

/-- LDSH Rd, [Rb, Ro] (R339). -/
def execTLdshReg (rd rb ro : LoReg) (s : State) : Result :=
  thumbLoad State.loadSignedHalf rd (s.regAddress rb ro) s

/-! ## Formats 9 and 10 -/

/-- STR Rd, [Rb, #imm] (R340). -/
def execTStrImm (rd rb : LoReg) (off5 : BitVec 5) (s : State) : Result :=
  thumbStore State.writeWord rd (s.immAddress rb off5 2) s

/-- LDR Rd, [Rb, #imm] (R341). -/
def execTLdrImm (rd rb : LoReg) (off5 : BitVec 5) (s : State) : Result :=
  thumbLoad State.readWord rd (s.immAddress rb off5 2) s

/-- STRB Rd, [Rb, #imm] (R342). -/
def execTStrbImm (rd rb : LoReg) (off5 : BitVec 5) (s : State) : Result :=
  thumbStore State.storeByte rd (s.immAddress rb off5 0) s

/-- LDRB Rd, [Rb, #imm] (R345). -/
def execTLdrbImm (rd rb : LoReg) (off5 : BitVec 5) (s : State) : Result :=
  thumbLoad State.loadByte rd (s.immAddress rb off5 0) s

/-- STRH Rd, [Rb, #imm] (R349). -/
def execTStrhImm (rd rb : LoReg) (off5 : BitVec 5) (s : State) : Result :=
  thumbStore State.storeHalf rd (s.immAddress rb off5 1) s

/-- LDRH Rd, [Rb, #imm] (R350). -/
def execTLdrhImm (rd rb : LoReg) (off5 : BitVec 5) (s : State) : Result :=
  thumbLoad State.loadHalf rd (s.immAddress rb off5 1) s

/-! ## Format 11 -/

/-- STR Rd, [SP, #imm] (R343). -/
def execTStrSp (rd : LoReg) (word8 : BitVec 8) (s : State) : Result :=
  thumbStore State.writeWord rd (s.spAddress word8) s

/-- LDR Rd, [SP, #imm] (R344). -/
def execTLdrSp (rd : LoReg) (word8 : BitVec 8) (s : State) : Result :=
  thumbLoad State.readWord rd (s.spAddress word8) s

/-! ## Formats 14 and 15 -/

/-- PUSH (R346): a full descending stack; R14 is stored last, at the highest address. -/
def execTPush (lr : Bool) (list : BitVec 8) (s : State) : Result :=
  let regs := loRegsOfList list ++ (if lr then [14] else [])
  let start := s.readReg 13 - blockSize regs.length
  .next ((s.storeWords start (regs.map s.readReg)).writeReg 13 start)

/-- POP (R347): all words are read first; with R = 1 the last goes to `pc`, T unchanged. -/
def execTPop (pc : Bool) (list : BitVec 8) (s : State) : Result :=
  let low := loRegsOfList list
  let n := low.length + (if pc then 1 else 0)
  let start := s.readReg 13
  let target := s.readWord (start + blockSize low.length)
  let loaded := low.zip (s.loadWords start low.length)
  let s1 := (s.writeReg 13 (start + blockSize n)).writeRegs loaded
  .next (if pc then s1.branchTo target else s1)

/-- STMIA (R351): the original base is stored wherever it stands in the list. -/
def execTStmia (rb : LoReg) (list : BitVec 8) (s : State) : Result :=
  let regs := loRegsOfList list
  let start := s.readReg rb.reg
  .next ((s.storeWords start (regs.map s.readReg)).writeReg rb.reg (start + blockSize regs.length))

/-- LDMIA (R352): a loaded base wins over the writeback. -/
def execTLdmia (rb : LoReg) (list : BitVec 8) (s : State) : Result :=
  let regs := loRegsOfList list
  let start := s.readReg rb.reg
  let loaded := regs.zip (s.loadWords start regs.length)
  .next ((s.writeReg rb.reg (start + blockSize regs.length)).writeRegs loaded)

end Sys2Proof.Machine
end

