-- ==== Sys2Proof/Machine/Dispatch.lean ====
section
/-! DEFINITION. One arm per instruction (40_cycle_and_primitives.md R145). -/

namespace Sys2Proof.Machine

/-- The effect of one instruction, without the `advance()` that ends its tick. -/
def exec (i : Instr) (s : State) : Host.Outcome State Fault Refusal :=
  match i with
  | .and c sf rn rd o => Sys2Proof.Machine.execAnd c sf rn rd o s
  | .eor c sf rn rd o => Sys2Proof.Machine.execEor c sf rn rd o s
  | .sub c sf rn rd o => Sys2Proof.Machine.execSub c sf rn rd o s
  | .rsb c sf rn rd o => Sys2Proof.Machine.execRsb c sf rn rd o s
  | .add c sf rn rd o => Sys2Proof.Machine.execAdd c sf rn rd o s
  | .adc c sf rn rd o => Sys2Proof.Machine.execAdc c sf rn rd o s
  | .sbc c sf rn rd o => Sys2Proof.Machine.execSbc c sf rn rd o s
  | .rsc c sf rn rd o => Sys2Proof.Machine.execRsc c sf rn rd o s
  | .tst c rn _ o => Sys2Proof.Machine.execTst c rn o s
  | .teq c rn _ o => Sys2Proof.Machine.execTeq c rn o s
  | .cmp c rn _ o => Sys2Proof.Machine.execCmp c rn o s
  | .cmn c rn _ o => Sys2Proof.Machine.execCmn c rn o s
  | .orr c sf rn rd o => Sys2Proof.Machine.execOrr c sf rn rd o s
  | .mov c sf rn rd o => Sys2Proof.Machine.execMov c sf rn rd o s
  | .bic c sf rn rd o => Sys2Proof.Machine.execBic c sf rn rd o s
  | .mvn c sf rn rd o => Sys2Proof.Machine.execMvn c sf rn rd o s
  | .mrs c spsr rd => Sys2Proof.Machine.execMrs c spsr rd s
  | .msr c spsr k o => Sys2Proof.Machine.execMsr c spsr k o s
  | .mul c sf rd _ rs rm => Sys2Proof.Machine.execMul c sf rd rs rm s
  | .mla c sf rd rn rs rm => Sys2Proof.Machine.execMla c sf rd rn rs rm s
  | .umull c sf rdHi rdLo rs rm => Sys2Proof.Machine.execUmull c sf rdHi rdLo rs rm s
  | .umlal c sf rdHi rdLo rs rm => Sys2Proof.Machine.execUmlal c sf rdHi rdLo rs rm s
  | .smull c sf rdHi rdLo rs rm => Sys2Proof.Machine.execSmull c sf rdHi rdLo rs rm s
  | .smlal c sf rdHi rdLo rs rm => Sys2Proof.Machine.execSmlal c sf rdHi rdLo rs rm s
  | .swp c rn rd rm => Sys2Proof.Machine.execSwp c rn rd rm s
  | .swpb c rn rd rm => Sys2Proof.Machine.execSwpb c rn rd rm s
  | .bx c rm => Sys2Proof.Machine.execBx c rm s
  | .strh c m rn rd o => Sys2Proof.Machine.execStrh c m rn rd o s
  | .ldrh c m rn rd o => Sys2Proof.Machine.execLdrh c m rn rd o s
  | .ldrsb c m rn rd o => Sys2Proof.Machine.execLdrsb c m rn rd o s
  | .ldrsh c m rn rd o => Sys2Proof.Machine.execLdrsh c m rn rd o s
  | .str c m rn rd o => Sys2Proof.Machine.execStr c m rn rd o s
  | .ldr c m rn rd o => Sys2Proof.Machine.execLdr c m rn rd o s
  | .strb c m rn rd o => Sys2Proof.Machine.execStrb c m rn rd o s
  | .ldrb c m rn rd o => Sys2Proof.Machine.execLdrb c m rn rd o s
  | .stm c m sf rn list => Sys2Proof.Machine.execStm c m sf rn list s
  | .ldm c m sf rn list => Sys2Proof.Machine.execLdm c m sf rn list s
  | .b c imm24 => Sys2Proof.Machine.execB c imm24 s
  | .bl c imm24 => Sys2Proof.Machine.execBl c imm24 s
  | .swi c _ => Sys2Proof.Machine.execSwi c s
  | .undefinedArm c _ => Sys2Proof.Machine.execUndefinedArm c s
  | .tLslImm rd rs off5 => Sys2Proof.Machine.execTLslImm rd rs off5 s
  | .tLsrImm rd rs off5 => Sys2Proof.Machine.execTLsrImm rd rs off5 s
  | .tAsrImm rd rs off5 => Sys2Proof.Machine.execTAsrImm rd rs off5 s
  | .tAddReg rd rs rn => Sys2Proof.Machine.execTAddReg rd rs rn s
  | .tSubReg rd rs rn => Sys2Proof.Machine.execTSubReg rd rs rn s
  | .tAddImm3 rd rs imm3 => Sys2Proof.Machine.execTAddImm3 rd rs imm3 s
  | .tSubImm3 rd rs imm3 => Sys2Proof.Machine.execTSubImm3 rd rs imm3 s
  | .tMovImm rd off8 => Sys2Proof.Machine.execTMovImm rd off8 s
  | .tCmpImm rd off8 => Sys2Proof.Machine.execTCmpImm rd off8 s
  | .tAddImm8 rd off8 => Sys2Proof.Machine.execTAddImm8 rd off8 s
  | .tSubImm8 rd off8 => Sys2Proof.Machine.execTSubImm8 rd off8 s
  | .tAnd rd rs => Sys2Proof.Machine.execTAnd rd rs s
  | .tEor rd rs => Sys2Proof.Machine.execTEor rd rs s
  | .tLslReg rd rs => Sys2Proof.Machine.execTLslReg rd rs s
  | .tLsrReg rd rs => Sys2Proof.Machine.execTLsrReg rd rs s
  | .tAsrReg rd rs => Sys2Proof.Machine.execTAsrReg rd rs s
  | .tAdc rd rs => Sys2Proof.Machine.execTAdc rd rs s
  | .tSbc rd rs => Sys2Proof.Machine.execTSbc rd rs s
  | .tRorReg rd rs => Sys2Proof.Machine.execTRorReg rd rs s
  | .tTst rd rs => Sys2Proof.Machine.execTTst rd rs s
  | .tNeg rd rs => Sys2Proof.Machine.execTNeg rd rs s
  | .tCmpReg rd rs => Sys2Proof.Machine.execTCmpReg rd rs s
  | .tCmn rd rs => Sys2Proof.Machine.execTCmn rd rs s
  | .tOrr rd rs => Sys2Proof.Machine.execTOrr rd rs s
  | .tMul rd rs => Sys2Proof.Machine.execTMul rd rs s
  | .tBic rd rs => Sys2Proof.Machine.execTBic rd rs s
  | .tMvn rd rs => Sys2Proof.Machine.execTMvn rd rs s
  | .tAddHi rd rs => Sys2Proof.Machine.execTAddHi rd rs s
  | .tCmpHi rd rs => Sys2Proof.Machine.execTCmpHi rd rs s
  | .tMovHi rd rs => Sys2Proof.Machine.execTMovHi rd rs s
  | .tBx rs _ => Sys2Proof.Machine.execTBx rs s
  | .tLdrPc rd word8 => Sys2Proof.Machine.execTLdrPc rd word8 s
  | .tStrReg rd rb ro => Sys2Proof.Machine.execTStrReg rd rb ro s
  | .tStrbReg rd rb ro => Sys2Proof.Machine.execTStrbReg rd rb ro s
  | .tLdrReg rd rb ro => Sys2Proof.Machine.execTLdrReg rd rb ro s
  | .tLdrbReg rd rb ro => Sys2Proof.Machine.execTLdrbReg rd rb ro s
  | .tStrhReg rd rb ro => Sys2Proof.Machine.execTStrhReg rd rb ro s
  | .tLdsbReg rd rb ro => Sys2Proof.Machine.execTLdsbReg rd rb ro s
  | .tLdrhReg rd rb ro => Sys2Proof.Machine.execTLdrhReg rd rb ro s
  | .tLdshReg rd rb ro => Sys2Proof.Machine.execTLdshReg rd rb ro s
  | .tStrImm rd rb off5 => Sys2Proof.Machine.execTStrImm rd rb off5 s
  | .tLdrImm rd rb off5 => Sys2Proof.Machine.execTLdrImm rd rb off5 s
  | .tStrbImm rd rb off5 => Sys2Proof.Machine.execTStrbImm rd rb off5 s
  | .tLdrbImm rd rb off5 => Sys2Proof.Machine.execTLdrbImm rd rb off5 s
  | .tStrhImm rd rb off5 => Sys2Proof.Machine.execTStrhImm rd rb off5 s
  | .tLdrhImm rd rb off5 => Sys2Proof.Machine.execTLdrhImm rd rb off5 s
  | .tStrSp rd word8 => Sys2Proof.Machine.execTStrSp rd word8 s
  | .tLdrSp rd word8 => Sys2Proof.Machine.execTLdrSp rd word8 s
  | .tAddPcImm rd word8 => Sys2Proof.Machine.execTAddPcImm rd word8 s
  | .tAddSpImm rd word8 => Sys2Proof.Machine.execTAddSpImm rd word8 s
  | .tAdjustSp neg sword7 => Sys2Proof.Machine.execTAdjustSp neg sword7 s
  | .tPush lr list => Sys2Proof.Machine.execTPush lr list s
  | .tPop pc list => Sys2Proof.Machine.execTPop pc list s
  | .tStmia rb list => Sys2Proof.Machine.execTStmia rb list s
  | .tLdmia rb list => Sys2Proof.Machine.execTLdmia rb list s
  | .tBeq soff8 => Sys2Proof.Machine.execTBeq soff8 s
  | .tBne soff8 => Sys2Proof.Machine.execTBne soff8 s
  | .tBcs soff8 => Sys2Proof.Machine.execTBcs soff8 s
  | .tBcc soff8 => Sys2Proof.Machine.execTBcc soff8 s
  | .tBmi soff8 => Sys2Proof.Machine.execTBmi soff8 s
  | .tBpl soff8 => Sys2Proof.Machine.execTBpl soff8 s
  | .tBvs soff8 => Sys2Proof.Machine.execTBvs soff8 s
  | .tBvc soff8 => Sys2Proof.Machine.execTBvc soff8 s
  | .tBhi soff8 => Sys2Proof.Machine.execTBhi soff8 s
  | .tBls soff8 => Sys2Proof.Machine.execTBls soff8 s
  | .tBge soff8 => Sys2Proof.Machine.execTBge soff8 s
  | .tBlt soff8 => Sys2Proof.Machine.execTBlt soff8 s
  | .tBgt soff8 => Sys2Proof.Machine.execTBgt soff8 s
  | .tBle soff8 => Sys2Proof.Machine.execTBle soff8 s
  | .tSwi _ => Sys2Proof.Machine.execTSwi s
  | .tB off11 => Sys2Proof.Machine.execTB off11 s
  | .tBlFirst off11 => Sys2Proof.Machine.execTBlFirst off11 s
  | .tBlSecond off11 => Sys2Proof.Machine.execTBlSecond off11 s
  | .tUndefined _ => Sys2Proof.Machine.execTUndefined s

end Sys2Proof.Machine
end

