-- ==== Sys2Proof/Machine/Step.lean ====
section
/-! DEFINITION. One tick (40_cycle_and_primitives.md R141). -/

namespace Sys2Proof.Machine

/-- `step(bus)` (R141): nothing when not running; else one exception entry or one instruction, then
`advance()`. The prefetch notification has no effect on the core (20_memory.md R75; DEDUCED,
log entry 3); what the environment does between ticks is no part of it (log entry 7). -/
def step (s : State) : Host.Outcome State Fault Refusal :=
  if s.running then
    match s.service with
    | (true, t) => .next t.advance
    | (false, t) =>
      match exec t.currentInstr t with
      | .next u => .next u.advance
      | .fault f => .fault f
      | .refused r => .refused r
  else .next s

/-- `s` with an instruction stored where `step` takes its next one from (log entry 6). The next instruction
is the one in the current slot, fetched from `x[15] - 2w`: so the word is written to memory at that address
(aligned to the width that `nbits` selects), the state bit selects its set, the pipeline is filled from
there, nothing is pending and the machine runs. -/
def State.withFetchWord (s : State) (nbits w : Nat) : State :=
  let thumb := nbits == 16
  let code : Code := if thumb then .thumb (BitVec.ofNat 16 w) else .arm (BitVec.ofNat 32 w)
  let here := s.pc - s.width - s.width
  let s := { s with running := true, pending := Pending.none, cpsr := { s.cpsr with t := thumb } }
  let here := s.align here
  ((s.storeBytes here code.bytes).branchTo here).advance

end Sys2Proof.Machine
end

