-- ==== Sys2Proof/Safety.lean ====
section
/-! DEFINITION. What the claims speak of: the invariant of a running machine, what an instruction may change,
and what a safe run is. -/

namespace Sys2Proof.Machine

/-! ## The invariant and safe runs -/

/-- What holds at the start of every tick (40_cycle_and_primitives.md R146): memory is in its canonical form,
and while the machine runs R15 is aligned to the instruction width and, in Thumb state, each pipeline slot
holds a zero-extended halfword (10_state.md R40). -/
abbrev State.Inv (s : State) : Prop :=
  s.mem.wf = true ∧
    (s.running = true →
      s.align s.pc = s.pc ∧ (s.cpsr.t = true → s.pipeCur.toNat < 2 ^ 16 ∧ s.pipeNext.toNat < 2 ^ 16))

/-- A run of `n` ticks that nothing refuses. -/
def SafeRun (n : Nat) (s : State) : Prop := ∃ t, Sys2Proof.core.run n s = .next t

/-- The code of an exception kind; a lower code has the higher priority (60_exceptions.md R381). -/
def ExcKind.code : ExcKind → Nat
  | .reset => 0
  | .dataAbort => 1
  | .fastInterrupt => 2
  | .interrupt => 3
  | .prefetchAbort => 4
  | .softwareInterrupt => 5
  | .undefinedInstr => 6

/-! ## What changes in the registers -/

/-- The value that the last of a list of register writes gives a physical register, if one writes it. -/
def lastWrite (p : Phys) : List (Phys × Word) → Option Word
  | [] => none
  | (q, v) :: rest => (lastWrite p rest).or (if q = p then some v else none)

/-- Writes of visible registers, as writes of the physical registers that the mode of `s` names. -/
def State.seen (s : State) (ws : List (Reg × Word)) : List (Phys × Word) :=
  ws.map fun w => (phys s.cpsr.mode w.1, w.2)

/-- Writes of the User bank's registers (`x_usr`). -/
def userSeen (ws : List (Reg × Word)) : List (Phys × Word) := ws.map fun w => (phys .user w.1, w.2)

/-- `t` has gone on to `target` (40 R143): R15 leads the aligned target by one width and the next slot holds
the instruction there. The current slot, which no rule reads, is left out. -/
def State.At (t : State) (target : Word) : Prop :=
  t.pc = t.align target + t.width ∧ t.pipeNext = t.fetch (t.align target)

/-- From `s` to `t` exactly the registers of `ws` were written, in order: every other physical register of
every bank keeps its value, and R15 and the pipeline move only if `ws` writes R15. -/
def Wrote (ws : List (Phys × Word)) (s t : State) : Prop :=
  (∀ p, p ≠ .pc → t.regs.read p = (lastWrite p ws).getD (s.regs.read p)) ∧
    (match lastWrite .pc ws with
      | some v => t.At v
      | none => t.pc = s.pc ∧ t.pipeCur = s.pipeCur ∧ t.pipeNext = s.pipeNext)

/-- Everything but memory, from `s` to `t`: the flags become `fl`, the registers of `ws` are written, and the
mode, masks, state bit, saved statuses, pending set and run flag stay. -/
structure Effect (s t : State) (fl : Flags) (ws : List (Phys × Word)) : Prop where
  flags : t.cpsr.flags = fl
  maskI : t.cpsr.i = s.cpsr.i
  maskF : t.cpsr.f = s.cpsr.f
  stateBit : t.cpsr.t = s.cpsr.t
  mode : t.cpsr.mode = s.cpsr.mode
  spsr : t.spsr = s.spsr
  pending : t.pending = s.pending
  running : t.running = s.running
  regs : Wrote ws s t

/-! ## What changes in memory -/

/-- Every byte reads as before. -/
def State.SameBytes (s t : State) : Prop := ∀ a, t.readByte a = s.readByte a

/-- The bytes `bs` stand at `a` and the addresses after it, and every other byte reads as before. -/
def State.Stored (s t : State) (a : Word) (bs : List Byte) : Prop :=
  (∀ k, (h : k < bs.length) → t.readByte (a + BitVec.ofNat 32 k) = bs[k]) ∧
    ∀ b, (∀ k, k < bs.length → b ≠ a + BitVec.ofNat 32 k) → t.readByte b = s.readByte b

/-- The bytes of a halfword, the low-order one first (20_memory.md R62). -/
def halfBytes (v : Half) : List Byte := [v.extractLsb' 0 8, v.extractLsb' 8 8]

/-- The bytes of a word, the low-order one first. -/
def wordBytes (v : Word) : List Byte :=
  [v.extractLsb' 0 8, v.extractLsb' 8 8, v.extractLsb' 16 8, v.extractLsb' 24 8]

/-! ## The shapes of an instruction's outcome -/

/-- `i` completes in `s`: the flags become `fl`, the registers `ws` are written, memory is untouched and
nothing else changes. -/
def Computes (i : Instr) (s : State) (fl : Flags) (ws : List (Phys × Word)) : Prop :=
  ∃ t, exec i s = .next t ∧ Effect s t fl ws ∧ s.SameBytes t

/-- `i` completes in `s`: the bytes `bs` are stored at `a`, the registers `ws` are written and nothing else
changes. -/
def Stores (i : Instr) (s : State) (ws : List (Phys × Word)) (a : Word) (bs : List Byte) : Prop :=
  ∃ t, exec i s = .next t ∧ Effect s t s.cpsr.flags ws ∧ s.Stored t a bs

/-- `i` completes in `s` by making the exception `k` pending, and does nothing else at all. -/
def Raises (i : Instr) (s : State) (k : ExcKind) : Prop :=
  exec i s = .next { s with pending := s.pending.set k true }

/-- `i` returns from an exception in `s` once the registers `ws` are written in the mode it starts in: the
saved status of the current mode becomes the CPSR and control goes to `target` under the restored state bit.
Without a saved status, or with one whose mode field names no mode, it is refused (10_state.md R33, R34). -/
def Returns (i : Instr) (s : State) (ws : List (Phys × Word)) (target : Word) : Prop :=
  match s.cpsr.mode.excMode? with
  | none => exec i s = .refused .noSpsr
  | some m =>
    match Mode.ofBits? (s.spsr.get m).m with
    | none => exec i s = .refused .invalidMode
    | some mode =>
      ∃ t, exec i s = .next t ∧
        t.cpsr = ⟨(s.spsr.get m).flags, (s.spsr.get m).i, (s.spsr.get m).f, (s.spsr.get m).t, mode⟩ ∧
        t.At target ∧ (∀ p, p ≠ .pc → t.regs.read p = (lastWrite p ws).getD (s.regs.read p)) ∧
        t.spsr = s.spsr ∧ t.pending = s.pending ∧ t.running = s.running ∧ s.SameBytes t

/-! ## Classes of instructions -/

/-- The instructions that return from an exception: a data-processing instruction other than a compare with
S = 1 and Rd = 15, and LDM with S = 1 and R15 in its list (60_exceptions.md R393). -/
def isReturn : Instr → Bool
  | .and _ sf _ rd _ | .eor _ sf _ rd _ | .sub _ sf _ rd _ | .rsb _ sf _ rd _ | .add _ sf _ rd _
  | .adc _ sf _ rd _ | .sbc _ sf _ rd _ | .rsc _ sf _ rd _ | .orr _ sf _ rd _ | .mov _ sf _ rd _
  | .bic _ sf _ rd _ | .mvn _ sf _ rd _ => sf && rd == 15
  | .ldm _ _ sf _ list => sf && list.getLsbD 15
  | _ => false

/-- The instructions that write memory (20_memory.md R68). -/
def isStore : Instr → Bool
  | .str .. | .strb .. | .strh .. | .stm .. | .swp .. | .swpb .. | .tStrReg .. | .tStrbReg ..
  | .tStrhReg .. | .tStrImm .. | .tStrbImm .. | .tStrhImm .. | .tStrSp .. | .tPush .. | .tStmia .. => true
  | _ => false

/-- The stores whose base writeback or swap destination is register 15, which is a branch
(44_arm_load_store.md R245, R273). -/
def storeWritesPc : Instr → Bool
  | .str _ m rn _ _ | .strb _ m rn _ _ | .strh _ m rn _ _ => m.writesBack && rn == 15
  | .stm _ m _ rn list => m.blockWritesBack list && rn == 15
  | .swp _ _ rd _ | .swpb _ _ rd _ => rd == 15
  | _ => false

/-- The condition of an instruction passes; the 16-bit set has none (30_encoding.md R91, R122). -/
def passes (i : Instr) (s : State) : Bool :=
  match i.cond? with
  | some c => condPassed c s.cpsr.flags
  | none => true

/-- Why a status restore is refused, if it is (10_state.md R33, R34). -/
def restoreRefusal (s : State) : Option Refusal :=
  match s.cpsr.mode.excMode? with
  | none => some .noSpsr
  | some m => if (Mode.ofBits? (s.spsr.get m).m).isSome then none else some .invalidMode

/-- Why MSR of the value `v` to the CPSR is refused, if it is: the control field is selected, the mode is not
User, and T would change or the new mode is none of the seven (41 R203). -/
def controlRefusal (k : FieldMask) (v : Word) (s : State) : Option Refusal :=
  if k.c && s.cpsr.mode != .user then
    if v.getLsbD 5 != s.cpsr.t then some .msrChangesT
    else if (Mode.ofBits? (v.extractLsb' 0 5)).isSome then none else some .invalidMode
  else none

/-- The cases the spec calls `refuse`, and no other (93_implementation_defined.md U7 to U9). -/
def refusalOf (i : Instr) (s : State) : Option Refusal :=
  if passes i s then
    if isReturn i then restoreRefusal s
    else
      match i with
      | .mrs _ true _ => if s.cpsr.mode.excMode?.isNone then some .noSpsr else none
      | .msr _ true _ _ => if s.cpsr.mode.excMode?.isNone then some .noSpsr else none
      | .msr _ false k o => controlRefusal k (s.msrOperand o) s
      | _ => none
  else none

/-- The next state of an outcome after which `advance()` ends the tick (40 R141). -/
def thenAdvance : Result → Result
  | .next t => .next t.advance
  | .fault f => .fault f
  | .refused r => .refused r

end Sys2Proof.Machine
end

