-- ==== Sys2Proof/Certificates/Slice0/Obligations.lean ====
section
/-! DEFINITION. The statements for the provers. Each docstring names the rule of spec/ that it formalises. The
shapes `Computes`, `Stores`, `Raises`, `Returns` and `Effect` of Safety.lean say what an instruction changes and
that it changes nothing else. -/

open Sys2Proof Sys2Proof.Machine

/-! ## Encoding -/

/-- Words written out from the formats of 30_encoding.md R94 and R111 decode to the instructions they stand
for. -/
def Obligations.SampleWordsDecode : Prop :=
  decodeTableWord 32 0xE0810102 = some (.add .al false 1 0 (.regImm 2 .lsl 2)) ∧
    decodeTableWord 32 0xE3A00009 = some (.mov .al false 0 0 (.imm 0 9)) ∧
    decodeTableWord 32 0xE328F20F = some (.msr .al false ⟨true, false, false, false⟩ (.imm 2 15)) ∧
    decodeTableWord 32 0xE0A10392 = some (.umlal .al false 1 0 3 2) ∧
    decodeTableWord 32 0xE12FFF10 = some (.bx .al 0) ∧
    decodeTableWord 32 0xE4810004 = some (.str .al ⟨false, true, false⟩ 1 0 (.imm 4)) ∧
    decodeTableWord 32 0xE05100F2 = some (.ldrsh .al ⟨false, false, false⟩ 1 0 (.imm 2)) ∧
    decodeTableWord 32 0xE8FD8001 = some (.ldm .al ⟨false, true, true⟩ true 13 0x8001#16) ∧
    decodeTableWord 32 0xE7F000F0 = some (.undefinedArm .al 0x7F000F0#28) ∧
    decodeTableWord 16 0x081A = some (.tLsrImm 2 3 0) ∧
    decodeTableWord 16 0x45C8 = some (.tCmpHi 8 9) ∧
    decodeTableWord 16 0x9001 = some (.tStrSp 0 1#8) ∧
    decodeTableWord 16 0xBD10 = some (.tPop true 0x10#8) ∧
    decodeTableWord 16 0xD002 = some (.tBeq 2#8) ∧
    decodeTableWord 16 0xF802 = some (.tBlSecond 2#11) ∧
    decodeTableWord 16 0xDE00 = some (.tUndefined 0xDE00#16)

/-- Decoding the encoding of a well-formed instruction gives it back, for every instruction of both sets and
every value of every operand. -/
def Obligations.DecodeOfEncode : Prop :=
  ∀ i : Instr, i.wellFormed = true → (encode i).decode = i

/-- Every word and every halfword decodes to one well-formed instruction, whose encoding is that word: no bit
is dropped and no two encodings fall together. -/
def Obligations.EncodeOfDecode : Prop :=
  (∀ w : Word, encode (decodeArm w) = .arm w ∧ (decodeArm w).wellFormed = true) ∧
    (∀ h : Half, encode (decodeThumb h) = .thumb h ∧ (decodeThumb h).wellFormed = true)

/-- The unallocated encodings of both sets are the ones of R97 and R121, and they alone: they decode to the
UNDEFINED instructions, which make UndefinedInstr pending and do nothing else. -/
def Obligations.UnallocatedEncodings : Prop :=
  (∀ w : Word, (∃ c bits, decodeArm w = .undefinedArm c bits) ↔ unallocatedArm (w.extractLsb' 0 28) = true) ∧
    (∀ h : Half, decodeThumb h = .tUndefined h ↔
      (0xB100 ≤ h.toNat ∧ h.toNat ≤ 0xB3FF) ∨ (0xB600 ≤ h.toNat ∧ h.toNat ≤ 0xBBFF) ∨
        (0xBE00 ≤ h.toNat ∧ h.toNat ≤ 0xBFFF) ∨ (0xDE00 ≤ h.toNat ∧ h.toNat ≤ 0xDEFF) ∨
        (0xE800 ≤ h.toNat ∧ h.toNat ≤ 0xEFFF) ∨ (0x4780 ≤ h.toNat ∧ h.toNat ≤ 0x47FF)) ∧
    (∀ (w : Word) (s : State), unallocatedArm (w.extractLsb' 0 28) = true →
      condPassed (Cond.ofBits (w.extractLsb' 28 4)) s.cpsr.flags = true →
        Raises (decodeArm w) s .undefinedInstr) ∧
    (∀ (h : Half) (s : State), decodeThumb h = .tUndefined h → Raises (decodeThumb h) s .undefinedInstr)

/-! ## The tick -/

/-- R141, R145, R146: when nothing is pending and the current slot holds what the bytes at `x[15] - 2w` hold,
and those bytes decode to `i`, a step is `exec i` followed by `advance()`. -/
def Obligations.StepRunsDecodedInstruction : Prop :=
  ∀ (s : State) (i : Instr) (rest : List Byte), s.running = true → s.pending = Pending.none →
    (s.cpsr.t = false → s.pipeCur = s.readWord (s.pc - 8) ∧
      decodeBytes false [s.readByte (s.pc - 8), s.readByte (s.pc - 7), s.readByte (s.pc - 6),
        s.readByte (s.pc - 5)] = .ok (i, rest)) →
    (s.cpsr.t = true → s.pipeCur = (s.readHalf (s.pc - 4)).zeroExtend 32 ∧
      decodeBytes true [s.readByte (s.pc - 4), s.readByte (s.pc - 3)] = .ok (i, rest)) →
    step s = thenAdvance (exec i s)

/-- R384, R385: the pending kinds are visited from code 0 up. Where every pending kind is masked, all are
dropped and the instruction runs; else the first unmasked one is entered, the flags of every kind up to it are
clear and those of lower priority stay pending. -/
def Obligations.ServiceTakesHighestUnmasked : Prop :=
  ∀ s : State, s.running = true →
    ((∀ k, s.pending.get k = true → s.cpsr.masks k = true) →
      step s = thenAdvance (exec s.currentInstr { s with pending := Pending.none })) ∧
    (∀ k, s.pending.get k = true → s.cpsr.masks k = false →
      (∀ j, j.code < k.code → s.pending.get j = true → s.cpsr.masks j = true) →
      ∃ p : Pending, (∀ j, p.get j = (s.pending.get j && decide (k.code < j.code))) ∧
        step s = .next ({ s with pending := p }.enter k).advance)

/-- R42, R383: not running at power-on; while not running a step changes nothing; the `reset` operation makes
the core run and clears every flag; nothing stops it again. Raising a kind, running or not, sets its flag and
nothing else, and twice is once. -/
def Obligations.RunStateAndRaise : Prop :=
  State.powerOn.running = false ∧
    (∀ s : State, s.running = false → step s = .next s) ∧
    (∀ (s : State) (k : ExcKind), (∀ j, (s.raiseException k).pending.get j = (s.pending.get j || j == k)) ∧
      { s.raiseException k with pending := s.pending } = s ∧
      (s.raiseException k).raiseException k = s.raiseException k) ∧
    (∀ s : State, s.hostReset.running = true ∧ ∀ k, s.hostReset.pending.get k = false) ∧
    (∀ s t : State, step s = .next t → t.running = s.running)

/-- Every step keeps the invariant of R146: canonical memory, R15 aligned to the instruction width, halfwords
in the slots in Thumb state. -/
def Obligations.StepKeepsInvariant : Prop :=
  ∀ s t : State, s.Inv → step s = .next t → t.Inv

/-- The invariant holds at reset, and after the `reset` operation from any state with canonical memory;
`State.reset` is that operation from the power-on state of log entry 1 (its register values are the model's
choice, DESIGN CHOICE). -/
def Obligations.ResetMeetsInvariant : Prop :=
  State.reset.Inv ∧ State.reset = State.powerOn.hostReset ∧ ∀ s : State, s.mem.wf = true → s.hostReset.Inv

/-- No step faults, and an instruction is refused exactly where the spec says `refuse`, with that reason:
everywhere else it completes. -/
def Obligations.RefusalsExactlyWhereSpecRefuses : Prop :=
  (∀ (i : Instr) (s : State),
    match refusalOf i s with
    | some r => exec i s = .refused r
    | none => ∃ t, exec i s = .next t) ∧
    (∀ s : State, (∀ k, s.pending.get k = true → s.cpsr.masks k = true) → refusalOf s.currentInstr s = none →
      SafeRun 1 s)

/-! ## What no instruction can do -/

/-- R401: in User mode no instruction changes the mode or a mask, a saved status, or a register of another
mode's bank; only an exception leaves User mode. -/
def Obligations.UserModeIsConfined : Prop :=
  ∀ (i : Instr) (s t : State), s.cpsr.mode = .user → exec i s = .next t →
    t.cpsr.mode = .user ∧ t.cpsr.i = s.cpsr.i ∧ t.cpsr.f = s.cpsr.f ∧ t.spsr = s.spsr ∧
      ∀ p, (∀ r, phys .user r ≠ p) → t.regs.read p = s.regs.read p

/-- R436, R34: only BX and a return change the state bit, and with it the pipeline reloads in the new state;
exception entry clears it and reloads; MSR never changes it. Only MSR and a return change the mode or a
mask. -/
def Obligations.StatusControlChanges : Prop :=
  (∀ (i : Instr) (s t : State), exec i s = .next t → t.cpsr.t ≠ s.cpsr.t →
    ((∃ c rm, i = .bx c rm) ∨ (∃ rs low, i = .tBx rs low) ∨ isReturn i = true) ∧
      t.align t.pc = t.pc ∧ t.pipeNext = t.fetch (t.pc - t.width)) ∧
    (∀ (s : State) (k : ExcKind), (s.enter k).cpsr.t = false ∧ (s.enter k).At k.vector) ∧
    (∀ (i : Instr) (s t : State), exec i s = .next t →
      (t.cpsr.mode ≠ s.cpsr.mode ∨ t.cpsr.i ≠ s.cpsr.i ∨ t.cpsr.f ≠ s.cpsr.f) →
        (∃ c k o, i = .msr c false k o) ∨ isReturn i = true)

/-- Only stores change memory, only MSR to the SPSR changes a saved status, only SWI and the UNDEFINED
encodings change the pending set, and no instruction changes the run flag. -/
def Obligations.InstructionsLeaveTheRest : Prop :=
  ∀ (i : Instr) (s t : State), exec i s = .next t →
    t.running = s.running ∧ (isStore i = false → t.mem = s.mem) ∧
      ((∀ c k o, i ≠ .msr c true k o) → t.spsr = s.spsr) ∧
      (t.pending = s.pending ∨
        (t.pending = s.pending.set .softwareInterrupt true ∧
          ((∃ c n, i = .swi c n) ∨ ∃ n, i = .tSwi n)) ∨
        (t.pending = s.pending.set .undefinedInstr true ∧
          ((∃ c b, i = .undefinedArm c b) ∨ ∃ b, i = .tUndefined b)))

/-! ## The primitives -/

/-- R92, R166, R235: the condition table, by the number of the condition; an instruction whose condition fails
does nothing at all, whatever its other bits, and 1111 always fails. -/
def Obligations.ConditionField : Prop :=
  (∀ f : Flags,
    (condPassed (Cond.ofBits 0b0000#4) f ↔ f.z = true) ∧
      (condPassed (Cond.ofBits 0b0001#4) f ↔ f.z = false) ∧
      (condPassed (Cond.ofBits 0b0010#4) f ↔ f.c = true) ∧
      (condPassed (Cond.ofBits 0b0011#4) f ↔ f.c = false) ∧
      (condPassed (Cond.ofBits 0b0100#4) f ↔ f.n = true) ∧
      (condPassed (Cond.ofBits 0b0101#4) f ↔ f.n = false) ∧
      (condPassed (Cond.ofBits 0b0110#4) f ↔ f.v = true) ∧
      (condPassed (Cond.ofBits 0b0111#4) f ↔ f.v = false) ∧
      (condPassed (Cond.ofBits 0b1000#4) f ↔ f.c = true ∧ f.z = false) ∧
      (condPassed (Cond.ofBits 0b1001#4) f ↔ f.c = false ∨ f.z = true) ∧
      (condPassed (Cond.ofBits 0b1010#4) f ↔ f.n = f.v) ∧
      (condPassed (Cond.ofBits 0b1011#4) f ↔ f.n ≠ f.v) ∧
      (condPassed (Cond.ofBits 0b1100#4) f ↔ f.z = false ∧ f.n = f.v) ∧
      (condPassed (Cond.ofBits 0b1101#4) f ↔ f.z = true ∨ f.n ≠ f.v) ∧
      condPassed (Cond.ofBits 0b1110#4) f = true ∧ condPassed (Cond.ofBits 0b1111#4) f = false) ∧
    (∀ (w : Word) (s : State), condPassed (Cond.ofBits (w.extractLsb' 28 4)) s.cpsr.flags = false →
      exec (decodeArm w) s = .next s) ∧
    ∀ (i : Instr) (c : Cond) (s : State), i.cond? = some c → condPassed c s.cpsr.flags = false →
      exec i s = .next s

/-- R150: the wrapping sum of three operands, carry when the exact unsigned sum exceeds 32 bits, overflow when
either partial sum leaves the signed range, for every value of the third operand. -/
def Obligations.AddPrimitive : Prop :=
  ∀ a b c : Word,
    let r := Machine.add a b c
    let out (x : Int) : Prop := x < -2 ^ 31 ∨ 2 ^ 31 ≤ x
    r.value = a + b + c ∧ (r.flags.c = true ↔ 0xFFFFFFFF < a.toNat + b.toNat + c.toNat) ∧
      (r.flags.v = true ↔ out (a.toInt + b.toInt) ∨ out ((a + b).toInt + c.toInt)) ∧
      (r.flags.z = true ↔ r.value = 0#32) ∧ r.flags.n = r.value.getLsbD 31

/-- R151 with its consequences (a) to (f): subtraction is the addition of the negated operands, with overflow
forced for the least signed subtrahend. -/
def Obligations.SubPrimitive : Prop :=
  ∀ a b c : Word,
    let r := Machine.sub a b c
    let out (x : Int) : Prop := x < -2 ^ 31 ∨ 2 ^ 31 ≤ x
    r.value = a - b - c ∧ (r.flags.z = true ↔ r.value = 0#32) ∧ r.flags.n = r.value.getLsbD 31 ∧
      (r.flags.c = true ↔ 0xFFFFFFFF < a.toNat + (0#32 - b).toNat + (0#32 - c).toNat) ∧
      (r.flags.v = true ↔ b = 0x80000000#32 ∨ (Machine.add a (0#32 - b) (0#32 - c)).flags.v = true) ∧
      (c = 0#32 → b ≠ 0#32 → (r.flags.c = true ↔ b.toNat ≤ a.toNat)) ∧
      (c = 0#32 → b = 0#32 → r.flags.c = false) ∧
      (c = 1#32 → b ≠ 0#32 → r.flags.c = true) ∧
      (c = 1#32 → b = 0#32 → (r.flags.c = true ↔ a ≠ 0#32)) ∧
      (c = 0#32 → b ≠ 0x80000000#32 → (r.flags.v = true ↔ out (a.toInt - b.toInt))) ∧
      (b = 0x80000000#32 → r.flags.v = true)

/-- R154 to R157: the four shifts for every amount, with their carry out; amount 0 is the identity for LSL and
ROR and means 32 for LSR and ASR. -/
def Obligations.ShiftPrimitives : Prop :=
  ∀ (cin : Bool) (v : Word) (n : Nat),
    let m := if n = 0 then 32 else n
    (n = 0 → lsl cin v n = (v, cin) ∧ ror cin v n = (v, cin)) ∧
      (1 ≤ n → n ≤ 32 → lsl cin v n = (BitVec.ofNat 32 (v.toNat * 2 ^ n), v.getLsbD (32 - n))) ∧
      (32 < n → lsl cin v n = (0#32, false)) ∧
      (lsr v n).1.toNat = v.toNat / 2 ^ m ∧ (lsr v n).2 = v.getLsbD (m - 1) ∧
      (asr v n).1.toInt = v.toInt / 2 ^ m ∧ (asr v n).2 = v.getLsbD (min m 32 - 1) ∧
      (1 ≤ n → (∀ j, j < 32 → (ror cin v n).1.getLsbD j = v.getLsbD ((j + n) % 32)) ∧
        (ror cin v n).2 = v.getLsbD ((n - 1) % 32) ∧ (ror cin v n).2 = (ror cin v n).1.getLsbD 31)

/-- R181, R182, R183: the three forms of the second operand and their carry out. -/
def Obligations.SecondOperandForms : Prop :=
  ∀ s : State,
    (∀ imm8, s.operand2 (.imm 0 imm8) = (imm8.zeroExtend 32, s.cpsr.flags.c)) ∧
      (∀ (rotate : Fin 16) (imm8 : BitVec 8), rotate ≠ 0 →
        (s.operand2 (.imm rotate imm8)).1 = (imm8.zeroExtend 32).rotateRight (2 * rotate.val) ∧
          (s.operand2 (.imm rotate imm8)).2 = (s.operand2 (.imm rotate imm8)).1.getLsbD 31) ∧
      (∀ (rm : Reg) (ty : ShiftType) (n : Fin 32),
        s.operand2 (.regImm rm ty n) = shift ty s.cpsr.flags.c (s.readReg rm) n.val) ∧
      (∀ rm, s.operand2 (.regImm rm .lsl 0) = (s.readReg rm, s.cpsr.flags.c) ∧
        s.operand2 (.regImm rm .ror 0) = (s.readReg rm, s.cpsr.flags.c) ∧
        s.operand2 (.regImm rm .lsr 0) = (0#32, (s.readReg rm).getLsbD 31) ∧
        s.operand2 (.regImm rm .asr 0) =
          (if (s.readReg rm).getLsbD 31 then 0xFFFFFFFF#32 else 0#32, (s.readReg rm).getLsbD 31)) ∧
      (∀ (rm : Reg) (ty : ShiftType) (rs : Reg),
        let n := (s.readReg rs).toNat % 256
        (n = 0 → s.operand2 (.regReg rm ty rs) = (s.readReg rm, s.cpsr.flags.c)) ∧
          (n ≠ 0 → s.operand2 (.regReg rm ty rs) = shift ty s.cpsr.flags.c (s.readReg rm) n)) ∧
      s.readReg 15 = s.pc

/-! ## Registers, status words, memory, pipeline -/

/-- R24, R25: what a register write does to what every mode sees. Index `j` in mode `m` shows the written value
exactly if it names the same physical register: the same index, and an unbanked one or the same bank. -/
def Obligations.BankedRegistersAreSeparate : Prop :=
  (∀ (s : State) (i : Reg) (v : Word), i ≠ 15 → ∀ (m : Mode) (j : Reg), j ≠ 15 →
    (s.writeReg i v).regs.read (phys m j) =
      if phys m j = phys s.cpsr.mode i then v else s.regs.read (phys m j)) ∧
    (∀ (m m' : Mode) (i j : Reg), phys m i = phys m' j ↔
      i = j ∧ (i.val < 8 ∨ i = 15 ∨ m = m' ∨
        (m.excMode? = none ∧ m'.excMode? = none) ∨
        (i.val < 13 ∧ m ≠ .fiq ∧ m' ≠ .fiq))) ∧
    (∀ (s : State) (c : Cpsr) (p : Phys), ({ s with cpsr := c } : State).regs.read p = s.regs.read p)

/-- R30: the layout of a status word; and from R32 the numbers of the seven modes, no other value naming a mode,
and which modes have a saved status. -/
def Obligations.StatusWordLayout : Prop :=
  (∀ p : Psr, p.word.getLsbD 31 = p.flags.n ∧ p.word.getLsbD 30 = p.flags.z ∧
    p.word.getLsbD 29 = p.flags.c ∧ p.word.getLsbD 28 = p.flags.v ∧ p.word.extractLsb' 8 20 = 0#20 ∧
    p.word.getLsbD 7 = p.i ∧ p.word.getLsbD 6 = p.f ∧ p.word.getLsbD 5 = p.t ∧
    p.word.extractLsb' 0 5 = p.m ∧ Psr.ofWord p.word = p) ∧
    (∀ w : Word, (Psr.ofWord w).word = w &&& 0xF00000FF#32) ∧
    (let number : Mode → BitVec 5
        | .user => 0x10#5
        | .fiq => 0x11#5
        | .irq => 0x12#5
        | .supervisor => 0x13#5
        | .abort => 0x17#5
        | .undefined => 0x1B#5
        | .system => 0x1F#5
      (∀ c : Cpsr, c.word.extractLsb' 0 5 = number c.mode) ∧
        (∀ (b : BitVec 5) (m : Mode), Mode.ofBits? b = some m ↔ b = number m) ∧
        ∀ m : Mode, m.excMode? = none ↔ m = .user ∨ m = .system)

/-- R62, R63, R64: stores and loads of halfwords and words are the little-endian composition of byte accesses
at any address, aligned or not, and every other byte is left alone. -/
def Obligations.LittleEndianComposition : Prop :=
  ∀ (s : State) (a : Word), s.mem.wf = true →
    (∀ v : Byte, s.Stored (s.writeByte a v) a [v]) ∧
      (∀ v : Half, s.Stored (s.writeHalf a v) a (halfBytes v) ∧ (s.writeHalf a v).readHalf a = v) ∧
      (∀ v : Word, s.Stored (s.writeWord a v) a (wordBytes v) ∧ (s.writeWord a v).readWord a = v) ∧
      (s.readHalf a).toNat = (s.readByte a).toNat + 2 ^ 8 * (s.readByte (a + 1)).toNat ∧
      (s.readWord a).toNat = (s.readByte a).toNat + 2 ^ 8 * (s.readByte (a + 1)).toNat +
        2 ^ 16 * (s.readByte (a + 2)).toNat + 2 ^ 24 * (s.readByte (a + 3)).toNat

/-- R143, R437: after `pc <- target` and the `advance()` that ends the tick, the two slots hold the two
instructions at the aligned target and R15 leads it by two widths; the low bits of the target are dropped.
70 R430, 20 R74: what a store by the instruction at `A` writes, for every store that does not also write R15
(`storeWritesPc`), is not seen by the next tick, which runs what was fetched before it; the fetch of the
instruction at `A + 2w`, which ends the tick, sees it. -/
def Obligations.PipelineBuffer : Prop :=
  (∀ (s : State) (target : Word),
    let t := (s.branchTo target).advance
    let w : Nat := if s.cpsr.t then 2 else 4
    let a : Word := BitVec.ofNat 32 (target.toNat / w * w)
    t.pipeCur = s.fetch a ∧ t.pipeNext = s.fetch (a + BitVec.ofNat 32 w) ∧
      t.pc = a + BitVec.ofNat 32 (2 * w) ∧ t.mem = s.mem ∧ t.cpsr = s.cpsr) ∧
    (∀ s : State, s.running = true → s.pending = Pending.none → s.align s.pc = s.pc →
      isStore s.currentInstr = true → storeWritesPc s.currentInstr = false →
      ∃ u t, exec s.currentInstr s = .next u ∧ step s = .next t ∧ t.mem = u.mem ∧ t.pipeCur = s.pipeNext ∧
        t.pipeNext = u.fetch s.pc ∧ t.pc = s.pc + s.width)

/-! ## Exceptions and reset -/

/-- R382, R386: the entry sequence for each of the seven kinds, and that it touches nothing else. -/
def Obligations.ExceptionEntrySequence : Prop :=
  ∀ (s : State) (k : ExcKind),
    let t := s.enter k
    let m := k.entryMode
    (k.vector, m.mode) = (match k with
        | .reset => (0x00#32, Mode.supervisor)
        | .undefinedInstr => (0x04#32, Mode.undefined)
        | .softwareInterrupt => (0x08#32, Mode.supervisor)
        | .prefetchAbort => (0x0C#32, Mode.abort)
        | .dataAbort => (0x10#32, Mode.abort)
        | .interrupt => (0x18#32, Mode.irq)
        | .fastInterrupt => (0x1C#32, Mode.fiq)) ∧
      (t.spsr.get m).word = s.cpsr.word ∧ (∀ m', m' ≠ m → t.spsr.get m' = s.spsr.get m') ∧
      t.cpsr = { flags := s.cpsr.flags, i := true,
                 f := s.cpsr.f || (k == .reset || k == .fastInterrupt), t := false, mode := m.mode } ∧
      t.readReg 14 = s.pc - 4 ∧ t.pc = k.vector + 4 ∧ t.pipeNext = s.readWord k.vector ∧
      (∀ p, p ≠ .pc → p ≠ phys m.mode 14 → t.regs.read p = s.regs.read p) ∧
      t.pending = s.pending ∧ t.running = s.running ∧ s.SameBytes t

/-- R398: the entry tick, for each kind pending alone and not masked. -/
def Obligations.EntryTickProperties : Prop :=
  ∀ (s : State) (k : ExcKind), s.running = true → (∀ j, s.pending.get j = (j == k)) →
    s.cpsr.masks k = false →
    ∃ t, step s = .next t ∧ t.cpsr.mode = k.entryMode.mode ∧ t.cpsr.t = false ∧ t.cpsr.i = true ∧
      (t.cpsr.f = true ↔ k = .reset ∨ k = .fastInterrupt ∨ s.cpsr.f = true) ∧
      t.cpsr.flags = s.cpsr.flags ∧ t.pc = k.vector + 8 ∧ t.pipeCur = s.readWord k.vector ∧
      t.pipeNext = s.readWord (k.vector + 4) ∧ (t.spsr.get k.entryMode).word = s.cpsr.word ∧
      t.readReg 14 = s.pc - 4 ∧ ∀ j, t.pending.get j = false

/-- R385: a masked interrupt is dropped, not deferred. Raised while nothing that is entered before it is
pending, it makes no difference to the tick: the same next state, with its flag clear. -/
def Obligations.MaskedInterruptIsDropped : Prop :=
  ∀ s : State, s.running = true → s.pending.reset = false → s.pending.dataAbort = false →
    (s.cpsr.f = true → s.pending.fastInterrupt = false →
      step (s.raiseException .fastInterrupt) = step s) ∧
    (s.cpsr.i = true → s.pending.interrupt = false → (s.pending.fastInterrupt = true → s.cpsr.f = true) →
      step (s.raiseException .interrupt) = step s ∧
        ∀ t, step (s.raiseException .interrupt) = .next t → t.pending.interrupt = false)

/-- R390: of two pending kinds the one of higher priority is entered first and the other stays pending; at the
next tick it is entered with the first vector plus 4 as its link, before an instruction runs, unless it is an
Interrupt (or a FastInterrupt after Reset), which is then dropped. -/
def Obligations.SimultaneousExceptions : Prop :=
  ∀ (s : State) (k l : ExcKind), s.running = true → k.code < l.code →
    (∀ j, s.pending.get j = (j == k || j == l)) → s.cpsr.masks k = false →
    ∃ t, step s = .next t ∧ (∀ j, t.pending.get j = (j == l)) ∧ t.pc = k.vector + 8 ∧
      t.pipeCur = s.readWord k.vector ∧
      (l = .interrupt ∨ (l = .fastInterrupt ∧ (k = .reset ∨ s.cpsr.f = true)) →
        step t = thenAdvance (exec t.currentInstr { t with pending := Pending.none })) ∧
      (l ≠ .interrupt → (l = .fastInterrupt → k ≠ .reset ∧ s.cpsr.f = false) →
        ∃ u, step t = .next u ∧ u.readReg 14 = k.vector + 4 ∧ u.pc = l.vector + 8 ∧
          (u.spsr.get l.entryMode).word = t.cpsr.word ∧ (∀ j, u.pending.get j = false))

/-- R421, R423: the state the `reset` operation leaves, from any state. -/
def Obligations.ResetOperation : Prop :=
  ∀ s : State,
    let t := s.hostReset
    t.running = true ∧ (∀ k, t.pending.get k = false) ∧
      t.cpsr = { flags := s.cpsr.flags, i := true, f := true, t := false, mode := .supervisor } ∧
      t.readReg 14 = 0#32 ∧ t.pc = 0x00000008#32 ∧ t.pipeCur = s.readWord 0#32 ∧
      t.pipeNext = s.readWord 4#32 ∧ (t.spsr.get .supervisor).word = s.cpsr.word ∧
      (∀ m, m ≠ .supervisor → t.spsr.get m = s.spsr.get m) ∧
      (∀ p, p ≠ .pc → p ≠ phys .supervisor 14 → t.regs.read p = s.regs.read p) ∧ s.SameBytes t

/-- R388: after the entry tick of any kind, SUBS PC, LR, #4 (interrupted in ARM state) or MOVS PC, LR (in Thumb
state) restores the interrupted status and resumes at the instruction that did not execute. -/
def Obligations.ReturnResumesInterruptedCode : Prop :=
  ∀ (s : State) (k : ExcKind), s.running = true → s.align s.pc = s.pc → s.pending.get k = true →
    s.cpsr.masks k = false → (∀ j, j.code < k.code → s.pending.get j = true → s.cpsr.masks j = true) →
    ∃ t, step s = .next t ∧
      (s.cpsr.t = false → ∃ u, exec (.sub .al true 14 15 (.imm 0 4)) t = .next u ∧ u.cpsr = s.cpsr ∧
        u.At (s.pc - 8) ∧ u.pc = s.pc - 4) ∧
      (s.cpsr.t = true → ∀ rn, ∃ u, exec (.mov .al true rn 15 (.regImm 14 .lsl 0)) t = .next u ∧
        u.cpsr = s.cpsr ∧ u.At (s.pc - 4) ∧ u.pc = s.pc - 2)

/-- R233, R234, R364, R368: the own effect of a software interrupt and of an unallocated encoding is one
pending flag. -/
def Obligations.TrapsOnlyBecomePending : Prop :=
  ∀ (s : State) (c : Cond), condPassed c s.cpsr.flags = true →
    (∀ n, Raises (.swi c n) s .softwareInterrupt) ∧ (∀ n, Raises (.tSwi n) s .softwareInterrupt) ∧
      (∀ b, Raises (.undefinedArm c b) s .undefinedInstr) ∧ (∀ b, Raises (.tUndefined b) s .undefinedInstr)

/-- R233, R234, R364, R368 with R386: a software interrupt or an unallocated encoding in the current slot is
entered one tick later, with the link `A + 8` in ARM state and `A + 2` in Thumb state, the status as the
instruction left it, and the instruction after it never run. -/
def Obligations.TrapIsEnteredOneTickLater : Prop :=
  ∀ (s : State) (k : ExcKind), s.running = true → s.pending = Pending.none → s.align s.pc = s.pc →
    (∃ i, s.currentInstr = i ∧ passes i s = true ∧
      ((k = .softwareInterrupt ∧ ((∃ c n, i = .swi c n) ∨ ∃ n, i = .tSwi n)) ∨
        (k = .undefinedInstr ∧ ((∃ c b, i = .undefinedArm c b) ∨ ∃ b, i = .tUndefined b)))) →
    ∃ t u, step s = .next t ∧ (∀ j, t.pending.get j = (j == k)) ∧ t.pc = s.pc + s.width ∧
      t.cpsr = s.cpsr ∧ step t = .next u ∧
      u.readReg 14 = (if s.cpsr.t then s.pc - 2 else s.pc) ∧
      (u.spsr.get k.entryMode).word = s.cpsr.word ∧
      u.cpsr = { s.cpsr with i := true, t := false, mode := k.entryMode.mode } ∧
      u.pc = k.vector + 8 ∧ u.pipeCur = s.readWord k.vector ∧ (∀ j, u.pending.get j = false) ∧
      (∀ p, p ≠ .pc → p ≠ phys k.entryMode.mode 14 → u.regs.read p = s.regs.read p) ∧ s.SameBytes u

/-! ## Data processing of the 32-bit set -/

/-- R184, R185, R196, R197, R198, R201: the logical operations and moves, for every operand form; Rd = 15
branches. The form S = 1 with Rd = 15 is `DataProcessingReturn`. -/
def Obligations.LogicalOperations : Prop :=
  ∀ (c : Cond) (sf : Bool) (rn rd : Reg) (o : Operand2) (s : State), condPassed c s.cpsr.flags = true →
    (sf = true → rd ≠ 15) →
    let a := s.readReg rn
    let b := (s.operand2 o).1
    ∀ p ∈ [(Instr.and c sf rn rd o, a &&& b), (.eor c sf rn rd o, a ^^^ b), (.orr c sf rn rd o, a ||| b),
        (.mov c sf rn rd o, b), (.bic c sf rn rd o, a &&& ~~~b), (.mvn c sf rn rd o, ~~~b)],
      Computes p.1 s
        (if sf then ⟨p.2.getLsbD 31, p.2 == 0#32, (s.operand2 o).2, s.cpsr.flags.v⟩ else s.cpsr.flags)
        (s.seen [(rd, p.2)])

/-- R186 to R191: the additions and subtractions, with the carry flag as it was before the instruction. -/
def Obligations.ArithmeticOperations : Prop :=
  ∀ (c : Cond) (sf : Bool) (rn rd : Reg) (o : Operand2) (s : State), condPassed c s.cpsr.flags = true →
    (sf = true → rd ≠ 15) →
    let a := s.readReg rn
    let b := (s.operand2 o).1
    let cin : Word := if s.cpsr.flags.c then 1#32 else 0#32
    ∀ p ∈ [(Instr.sub c sf rn rd o, Machine.sub a b 0#32), (.rsb c sf rn rd o, Machine.sub b a 0#32),
        (.add c sf rn rd o, Machine.add a b 0#32), (.adc c sf rn rd o, Machine.add a b cin),
        (.sbc c sf rn rd o, Machine.sub a b (1#32 - cin)), (.rsc c sf rn rd o, Machine.sub b a (1#32 - cin))],
      Computes p.1 s (if sf then p.2.flags else s.cpsr.flags) (s.seen [(rd, p.2.value)])

/-- R192 to R195: the compares set the flags and write no register, whatever Rd is. -/
def Obligations.CompareOperations : Prop :=
  ∀ (c : Cond) (rn rd : Reg) (o : Operand2) (s : State), condPassed c s.cpsr.flags = true →
    let a := s.readReg rn
    let b := (s.operand2 o).1
    let bits (r : Word) : Flags := ⟨r.getLsbD 31, r == 0#32, (s.operand2 o).2, s.cpsr.flags.v⟩
    ∀ p ∈ [(Instr.tst c rn rd o, bits (a &&& b)), (.teq c rn rd o, bits (a ^^^ b)),
        (.cmp c rn rd o, (Machine.sub a b 0#32).flags), (.cmn c rn rd o, (Machine.add a b 0#32).flags)],
      Computes p.1 s p.2 []

/-- R200: with S = 1 and Rd = 15 the twelve operations that write a register return from an exception. -/
def Obligations.DataProcessingReturn : Prop :=
  ∀ (c : Cond) (rn : Reg) (o : Operand2) (s : State), condPassed c s.cpsr.flags = true →
    let a := s.readReg rn
    let b := (s.operand2 o).1
    let cin : Word := if s.cpsr.flags.c then 1#32 else 0#32
    ∀ p ∈ [(Instr.and c true rn 15 o, a &&& b), (.eor c true rn 15 o, a ^^^ b), (.sub c true rn 15 o, a - b),
        (.rsb c true rn 15 o, b - a), (.add c true rn 15 o, a + b), (.adc c true rn 15 o, a + b + cin),
        (.sbc c true rn 15 o, a - b - (1#32 - cin)), (.rsc c true rn 15 o, b - a - (1#32 - cin)),
        (.orr c true rn 15 o, a ||| b), (.mov c true rn 15 o, b), (.bic c true rn 15 o, a &&& ~~~b),
        (.mvn c true rn 15 o, ~~~b)],
      Returns p.1 s [] p.2

/-! ## Status transfer -/

/-- R202: MRS reads the CPSR in every mode and the SPSR where the mode has one; elsewhere it is refused. -/
def Obligations.MrsReadsStatus : Prop :=
  ∀ (c : Cond) (rd : Reg) (s : State), condPassed c s.cpsr.flags = true →
    Computes (.mrs c false rd) s s.cpsr.flags (s.seen [(rd, s.cpsr.word)]) ∧
      match s.cpsr.mode.excMode? with
      | none => exec (.mrs c true rd) s = .refused .noSpsr
      | some m => Computes (.mrs c true rd) s s.cpsr.flags (s.seen [(rd, (s.spsr.get m).word)])

/-- R203: MSR to the CPSR, field by field: the flags where `f` is set; I, F and the mode where `c` is set and
the mode is not User; T never. A change of T, and a mode value that names no mode, are refused. -/
def Obligations.MsrWritesCpsr : Prop :=
  ∀ (c : Cond) (k : FieldMask) (o : MsrOperand) (s : State), condPassed c s.cpsr.flags = true →
    let v : Word := match o with
      | .reg rm => s.readReg rm
      | .imm rotate imm8 => (imm8.zeroExtend 32).rotateRight (2 * rotate.val)
    let flags : Flags :=
      if k.f then ⟨v.getLsbD 31, v.getLsbD 30, v.getLsbD 29, v.getLsbD 28⟩ else s.cpsr.flags
    if k.c = true ∧ s.cpsr.mode ≠ .user then
      if v.getLsbD 5 ≠ s.cpsr.t then exec (.msr c false k o) s = .refused .msrChangesT
      else match Mode.ofBits? (v.extractLsb' 0 5) with
        | none => exec (.msr c false k o) s = .refused .invalidMode
        | some m => exec (.msr c false k o) s =
            .next { s with cpsr := ⟨flags, v.getLsbD 7, v.getLsbD 6, s.cpsr.t, m⟩ }
    else exec (.msr c false k o) s = .next { s with cpsr := { s.cpsr with flags := flags } }

/-- R204: MSR to the SPSR of the current mode stores any mode value and any T; elsewhere it is refused. -/
def Obligations.MsrWritesSpsr : Prop :=
  ∀ (c : Cond) (k : FieldMask) (o : MsrOperand) (s : State), condPassed c s.cpsr.flags = true →
    let v : Word := match o with
      | .reg rm => s.readReg rm
      | .imm rotate imm8 => (imm8.zeroExtend 32).rotateRight (2 * rotate.val)
    match s.cpsr.mode.excMode? with
    | none => exec (.msr c true k o) s = .refused .noSpsr
    | some m =>
      let old := s.spsr.get m
      ∃ t, exec (.msr c true k o) s = .next t ∧ { t with spsr := s.spsr } = s ∧
        (∀ m', m' ≠ m → t.spsr.get m' = s.spsr.get m') ∧
        (t.spsr.get m).flags =
          (if k.f then ⟨v.getLsbD 31, v.getLsbD 30, v.getLsbD 29, v.getLsbD 28⟩ else old.flags) ∧
        ((t.spsr.get m).i, (t.spsr.get m).f, (t.spsr.get m).t, (t.spsr.get m).m) =
          (if k.c then (v.getLsbD 7, v.getLsbD 6, v.getLsbD 5, v.extractLsb' 0 5)
            else (old.i, old.f, old.t, old.m))

/-! ## Multiply -/

/-- R221, R222: the low 32 bits of the product, and of the product plus Rn; N and Z only. -/
def Obligations.MultiplyAndAccumulate : Prop :=
  ∀ (c : Cond) (sf : Bool) (rd rn rs rm : Reg) (s : State), condPassed c s.cpsr.flags = true →
    let p := BitVec.ofNat 32 ((s.readReg rm).toNat * (s.readReg rs).toNat)
    let q := BitVec.ofNat 32 ((s.readReg rm).toNat * (s.readReg rs).toNat + (s.readReg rn).toNat)
    let fl (r : Word) : Flags :=
      if sf then { s.cpsr.flags with n := r.getLsbD 31, z := r == 0#32 } else s.cpsr.flags
    Computes (.mul c sf rd rn rs rm) s (fl p) (s.seen [(rd, p)]) ∧
      Computes (.mla c sf rd rn rs rm) s (fl q) (s.seen [(rd, q)])

/-- R223 to R226: the exact 64-bit product, unsigned or signed, plus RdHi : RdLo where it accumulates, modulo
2^64; RdLo is written before RdHi; N and Z of all 64 bits. -/
def Obligations.LongMultiply : Prop :=
  ∀ (c : Cond) (sf : Bool) (hi lo rs rm : Reg) (s : State), condPassed c s.cpsr.flags = true →
    let a := s.readReg rm
    let b := s.readReg rs
    let acc := 2 ^ 32 * (s.readReg hi).toNat + (s.readReg lo).toNat
    ∀ p ∈ [(Instr.umull c sf hi lo rs rm, BitVec.ofNat 64 (a.toNat * b.toNat)),
        (.umlal c sf hi lo rs rm, BitVec.ofNat 64 (a.toNat * b.toNat + acc)),
        (.smull c sf hi lo rs rm, BitVec.ofInt 64 (a.toInt * b.toInt)),
        (.smlal c sf hi lo rs rm, BitVec.ofInt 64 (a.toInt * b.toInt + acc))],
      Computes p.1 s
        (if sf then { s.cpsr.flags with n := p.2.getLsbD 63, z := p.2 == 0#64 } else s.cpsr.flags)
        (s.seen [(lo, p.2.extractLsb' 0 32), (hi, p.2.extractLsb' 32 32)])

/-! ## Branches of the 32-bit set -/

/-- R230, R231: B and BL go to `x[15]` plus four times the signed offset; BL leaves `A + 4` in R14. -/
def Obligations.ArmBranches : Prop :=
  ∀ (c : Cond) (imm24 : BitVec 24) (s : State), condPassed c s.cpsr.flags = true →
    let target := s.pc + BitVec.ofInt 32 (4 * imm24.toInt)
    Computes (.b c imm24) s s.cpsr.flags (s.seen [(15, target)]) ∧
      Computes (.bl c imm24) s s.cpsr.flags (s.seen [(14, s.pc - 4), (15, target)])

/-- R165, R232, R321: BX of either set: bit 0 of the target selects the state, the low bits are masked, the
pipeline reloads in the new state, and nothing else changes. -/
def Obligations.BranchExchange : Prop :=
  ∀ (c : Cond) (r : Reg) (low : BitVec 3) (s : State), condPassed c s.cpsr.flags = true →
    let v := s.readReg r
    let a := if v.getLsbD 0 then v &&& 0xFFFFFFFE#32 else v &&& 0xFFFFFFFC#32
    ∀ i ∈ [Instr.bx c r, .tBx r low],
      ∃ t, exec i s = .next t ∧ t.cpsr = { s.cpsr with t := v.getLsbD 0 } ∧
        t.pc = a + (if v.getLsbD 0 then 2#32 else 4#32) ∧
        t.pipeNext = (if v.getLsbD 0 then (s.readHalf a).zeroExtend 32 else s.readWord a) ∧
        (∀ p, p ≠ .pc → t.regs.read p = s.regs.read p) ∧ t.spsr = s.spsr ∧ t.pending = s.pending ∧
        t.running = s.running ∧ s.SameBytes t

/-! ## Loads and stores of the 32-bit set -/

/-- R246, R247, R249, R255, R256, R258, R259: the loads, with every offset and index form: the base is written
back before the destination, so a loaded base wins. -/
def Obligations.ArmLoads : Prop :=
  ∀ (c : Cond) (m : IndexMode) (rn rd : Reg) (s : State), condPassed c s.cpsr.flags = true →
    let base := s.readReg rn
    let idx (off : Word) : Word := if m.u then base + off else base - off
    let addr (off : Word) : Word := if m.p then idx off else base
    let ws (off v : Word) : List (Phys × Word) :=
      s.seen ((if m.p = false ∨ m.w = true then [(rn, idx off)] else []) ++ [(rd, v)])
    (∀ o : WordOffset,
      let off : Word := match o with
        | .imm imm12 => imm12.zeroExtend 32
        | .reg rm ty n => (shift ty s.cpsr.flags.c (s.readReg rm) n.val).1
      Computes (.ldr c m rn rd o) s s.cpsr.flags (ws off (s.readWord (addr off))) ∧
        Computes (.ldrb c m rn rd o) s s.cpsr.flags (ws off ((s.readByte (addr off)).zeroExtend 32))) ∧
    (∀ o : HalfOffset,
      let off : Word := match o with
        | .imm off8 => off8.zeroExtend 32
        | .reg rm => s.readReg rm
      Computes (.ldrh c m rn rd o) s s.cpsr.flags (ws off ((s.readHalf (addr off)).zeroExtend 32)) ∧
        Computes (.ldrsb c m rn rd o) s s.cpsr.flags (ws off ((s.readByte (addr off)).signExtend 32)) ∧
        Computes (.ldrsh c m rn rd o) s s.cpsr.flags (ws off ((s.readHalf (addr off)).signExtend 32)))

/-- R248, R250, R257: the stores: the data is read before the base is written back, and exactly the bytes of the
access width at the computed address change. -/
def Obligations.ArmStores : Prop :=
  ∀ (c : Cond) (m : IndexMode) (rn rd : Reg) (s : State), s.mem.wf = true →
    condPassed c s.cpsr.flags = true →
    let base := s.readReg rn
    let v := s.readReg rd
    let idx (off : Word) : Word := if m.u then base + off else base - off
    let addr (off : Word) : Word := if m.p then idx off else base
    let ws (off : Word) : List (Phys × Word) :=
      s.seen (if m.p = false ∨ m.w = true then [(rn, idx off)] else [])
    (∀ o : WordOffset,
      let off : Word := match o with
        | .imm imm12 => imm12.zeroExtend 32
        | .reg rm ty n => (shift ty s.cpsr.flags.c (s.readReg rm) n.val).1
      Stores (.str c m rn rd o) s (ws off) (addr off) (wordBytes v) ∧
        Stores (.strb c m rn rd o) s (ws off) (addr off) [v.extractLsb' 0 8]) ∧
    (∀ o : HalfOffset,
      let off : Word := match o with
        | .imm off8 => off8.zeroExtend 32
        | .reg rm => s.readReg rm
      Stores (.strh c m rn rd o) s (ws off) (addr off) (halfBytes (v.extractLsb' 0 16)))

/-- R262, R263: the swaps read the old value before they write, and Rd receives it. -/
def Obligations.Swaps : Prop :=
  ∀ (c : Cond) (rn rd rm : Reg) (s : State), s.mem.wf = true → condPassed c s.cpsr.flags = true →
    let addr := s.readReg rn
    let v := s.readReg rm
    Stores (.swp c rn rd rm) s (s.seen [(rd, s.readWord addr)]) addr (wordBytes v) ∧
      Stores (.swpb c rn rd rm) s (s.seen [(rd, (s.readByte addr).zeroExtend 32)]) addr [v.extractLsb' 0 8]

/-- R265: the register list in ascending order, the first address and the final base of the four modes. -/
def Obligations.BlockAddressing : Prop :=
  (∀ (list : BitVec 16) (r : Reg), r ∈ regsOfList list ↔ list.getLsbD r.val = true) ∧
    (∀ list : BitVec 16, (regsOfList list).Pairwise (· < ·)) ∧
    ∀ (w : Bool) (base : Word) (n : Nat),
      let size : Word := BitVec.ofNat 32 (4 * n)
      (IndexMode.blockStart ⟨false, true, w⟩ base n = base ∧
        IndexMode.blockFinal ⟨false, true, w⟩ base n = base + size) ∧
      (IndexMode.blockStart ⟨true, true, w⟩ base n = base + 4 ∧
        IndexMode.blockFinal ⟨true, true, w⟩ base n = base + size) ∧
      (IndexMode.blockStart ⟨false, false, w⟩ base n = base - size + 4 ∧
        IndexMode.blockFinal ⟨false, false, w⟩ base n = base - size) ∧
      (IndexMode.blockStart ⟨true, false, w⟩ base n = base - size ∧
        IndexMode.blockFinal ⟨true, false, w⟩ base n = base - size)

/-- R266, R270: LDM without a status restore: every word is read first, the base is written back first, then
the listed registers, of the current mode with S = 0 and of the User bank with S = 1. R269: an empty list writes
nothing, the base included. -/
def Obligations.BlockLoad : Prop :=
  ∀ (c : Cond) (m : IndexMode) (sf : Bool) (rn : Reg) (list : BitVec 16) (s : State),
    condPassed c s.cpsr.flags = true → (sf = true → list.getLsbD 15 = false) →
    let regs := regsOfList list
    let start := m.blockStart (s.readReg rn) regs.length
    let loaded := regs.zipIdx.map fun r => (r.1, s.readWord (start + BitVec.ofNat 32 (4 * r.2)))
    let base := if m.w = true ∧ list ≠ 0#16 then [(rn, m.blockFinal (s.readReg rn) regs.length)] else []
    Computes (.ldm c m sf rn list) s s.cpsr.flags
      (s.seen base ++ if sf then userSeen loaded else s.seen loaded)

/-- R271: LDM with S = 1 and R15 in the list returns from an exception; base and registers are written in the
mode it starts in. -/
def Obligations.BlockLoadReturn : Prop :=
  ∀ (c : Cond) (m : IndexMode) (rn : Reg) (list : BitVec 16) (s : State),
    condPassed c s.cpsr.flags = true → list.getLsbD 15 = true →
    let regs := regsOfList list
    let start := m.blockStart (s.readReg rn) regs.length
    let loaded := regs.zipIdx.map fun r => (r.1, s.readWord (start + BitVec.ofNat 32 (4 * r.2)))
    let base := if m.w then [(rn, m.blockFinal (s.readReg rn) regs.length)] else []
    Returns (.ldm c m true rn list) s (s.seen (base ++ loaded))
      (s.readWord (start + BitVec.ofNat 32 (4 * (regs.length - 1))))

/-- R267, R272: STM: all registers are read first (of the User bank with S = 1), stored in ascending order from
the first address, then the base is written back. R269: an empty list stores nothing and leaves the base. -/
def Obligations.BlockStore : Prop :=
  ∀ (c : Cond) (m : IndexMode) (sf : Bool) (rn : Reg) (list : BitVec 16) (s : State),
    s.mem.wf = true → condPassed c s.cpsr.flags = true →
    let regs := regsOfList list
    let v (r : Reg) : Word := if sf then s.regs.read (phys .user r) else s.readReg r
    Stores (.stm c m sf rn list) s
      (s.seen (if m.w = true ∧ list ≠ 0#16 then [(rn, m.blockFinal (s.readReg rn) regs.length)] else []))
      (m.blockStart (s.readReg rn) regs.length) (regs.flatMap fun r => wordBytes (v r))

/-- R269: an empty register list changes nothing at all, for every base register, R15 included, with or without
W; and the same for the four block transfers of the 16-bit set (46 R353). -/
def Obligations.EmptyListChangesNothing : Prop :=
  ∀ (c : Cond) (m : IndexMode) (sf : Bool) (rn : Reg) (rb : LoReg) (s : State),
    condPassed c s.cpsr.flags = true →
    ∀ i ∈ [Instr.ldm c m sf rn 0#16, .stm c m sf rn 0#16, .tPush false 0#8, .tPop false 0#8,
      .tStmia rb 0#8, .tLdmia rb 0#8], exec i s = .next s

/-! ## The 16-bit set -/

/-- R282, R283, R284, R295, R296, R297, R300, R303: the shifts of formats 1 and 4; V is unchanged. -/
def Obligations.ThumbShifts : Prop :=
  ∀ (rd rs : LoReg) (off5 : Fin 32) (s : State),
    let cin := s.cpsr.flags.c
    let n := (s.readReg rs.reg).toNat % 256
    let reg (ty : ShiftType) : Word × Bool :=
      if n = 0 then (s.readReg rd.reg, cin) else shift ty cin (s.readReg rd.reg) n
    ∀ p ∈ [(Instr.tLslImm rd rs off5, lsl cin (s.readReg rs.reg) off5.val),
        (.tLsrImm rd rs off5, lsr (s.readReg rs.reg) off5.val),
        (.tAsrImm rd rs off5, asr (s.readReg rs.reg) off5.val), (.tLslReg rd rs, reg .lsl),
        (.tLsrReg rd rs, reg .lsr), (.tAsrReg rd rs, reg .asr), (.tRorReg rd rs, reg .ror)],
      Computes p.1 s ⟨p.2.1.getLsbD 31, p.2.1 == 0#32, p.2.2, s.cpsr.flags.v⟩ (s.seen [(rd.reg, p.2.1)])

/-- R285 to R288, R291, R292: add and subtract of formats 2 and 3. -/
def Obligations.ThumbAddSubtract : Prop :=
  ∀ (rd rs rn : LoReg) (imm3 : BitVec 3) (off8 : BitVec 8) (s : State),
    ∀ p ∈ [(Instr.tAddReg rd rs rn, Machine.add (s.readReg rs.reg) (s.readReg rn.reg) 0#32),
        (.tSubReg rd rs rn, Machine.sub (s.readReg rs.reg) (s.readReg rn.reg) 0#32),
        (.tAddImm3 rd rs imm3, Machine.add (s.readReg rs.reg) (imm3.zeroExtend 32) 0#32),
        (.tSubImm3 rd rs imm3, Machine.sub (s.readReg rs.reg) (imm3.zeroExtend 32) 0#32),
        (.tAddImm8 rd off8, Machine.add (s.readReg rd.reg) (off8.zeroExtend 32) 0#32),
        (.tSubImm8 rd off8, Machine.sub (s.readReg rd.reg) (off8.zeroExtend 32) 0#32)],
      Computes p.1 s p.2.flags (s.seen [(rd.reg, p.2.value)])

/-- R298, R299, R302: ADC, SBC and NEG of format 4; R290, R304, R305, R318: the compares by subtraction or
addition, which write no register. -/
def Obligations.ThumbCarryAndCompare : Prop :=
  ∀ (rd rs : LoReg) (d e : Reg) (off8 : BitVec 8) (s : State),
    let a := s.readReg rd.reg
    let b := s.readReg rs.reg
    let cin : Word := if s.cpsr.flags.c then 1#32 else 0#32
    (∀ p ∈ [(Instr.tAdc rd rs, Machine.add a b cin), (.tSbc rd rs, Machine.sub a b (1#32 - cin)),
        (.tNeg rd rs, Machine.sub 0#32 b 0#32)],
      Computes p.1 s p.2.flags (s.seen [(rd.reg, p.2.value)])) ∧
    (∀ p ∈ [(Instr.tCmpImm rd off8, Machine.sub a (off8.zeroExtend 32) 0#32),
        (.tCmpReg rd rs, Machine.sub a b 0#32), (.tCmn rd rs, Machine.add a b 0#32),
        (.tCmpHi d e, Machine.sub (s.readReg d) (s.readReg e) 0#32)],
      Computes p.1 s p.2.flags [])

/-- R289, R293, R294, R306 to R309, R301: the logical operations, the move and the multiply of formats 3 and
4: N and Z from the result, C and V unchanged. -/
def Obligations.ThumbLogical : Prop :=
  ∀ (rd rs : LoReg) (off8 : BitVec 8) (s : State),
    let a := s.readReg rd.reg
    let b := s.readReg rs.reg
    let fl (r : Word) : Flags := { s.cpsr.flags with n := r.getLsbD 31, z := r == 0#32 }
    (∀ p ∈ [(Instr.tMovImm rd off8, off8.zeroExtend 32), (.tAnd rd rs, a &&& b), (.tEor rd rs, a ^^^ b),
        (.tOrr rd rs, a ||| b), (.tMul rd rs, BitVec.ofNat 32 (a.toNat * b.toNat)), (.tBic rd rs, a &&& ~~~b),
        (.tMvn rd rs, ~~~b)],
      Computes p.1 s (fl p.2) (s.seen [(rd.reg, p.2)])) ∧
    Computes (.tTst rd rs) s (fl (a &&& b)) []

/-- R316, R317, R319: ADD and MOV of format 5 reach every register and set no flag; register 15 as destination
branches within Thumb state. R322, R323, R324: address generation of formats 12 and 13; no flag changes. -/
def Obligations.ThumbHighRegistersAndAddresses : Prop :=
  ∀ (d e : Reg) (rd : LoReg) (word8 : BitVec 8) (neg : Bool) (sword7 : BitVec 7) (s : State),
    ∀ p ∈ [(Instr.tAddHi d e, d, s.readReg d + s.readReg e), (.tMovHi d e, d, s.readReg e),
        (.tAddPcImm rd word8, rd.reg, (s.pc &&& 0xFFFFFFFD#32) + BitVec.ofNat 32 (4 * word8.toNat)),
        (.tAddSpImm rd word8, rd.reg, s.readReg 13 + BitVec.ofNat 32 (4 * word8.toNat)),
        (.tAdjustSp neg sword7, 13, if neg then s.readReg 13 - BitVec.ofNat 32 (4 * sword7.toNat)
          else s.readReg 13 + BitVec.ofNat 32 (4 * sword7.toNat))],
      Computes p.1 s s.cpsr.flags (s.seen [(p.2.1, p.2.2)])

/-- R330, R334, R335, R337, R338, R339, R341, R344, R345, R350: the loads of formats 6 to 11. -/
def Obligations.ThumbLoads : Prop :=
  ∀ (rd rb ro : LoReg) (off5 : BitVec 5) (word8 : BitVec 8) (s : State),
    let reg := s.readReg rb.reg + s.readReg ro.reg
    let imm (k : Nat) : Word := s.readReg rb.reg + BitVec.ofNat 32 (k * off5.toNat)
    ∀ p ∈ [(Instr.tLdrPc rd word8,
          s.readWord ((s.pc &&& 0xFFFFFFFD#32) + BitVec.ofNat 32 (4 * word8.toNat))),
        (.tLdrReg rd rb ro, s.readWord reg), (.tLdrbReg rd rb ro, (s.readByte reg).zeroExtend 32),
        (.tLdsbReg rd rb ro, (s.readByte reg).signExtend 32),
        (.tLdrhReg rd rb ro, (s.readHalf reg).zeroExtend 32),
        (.tLdshReg rd rb ro, (s.readHalf reg).signExtend 32), (.tLdrImm rd rb off5, s.readWord (imm 4)),
        (.tLdrbImm rd rb off5, (s.readByte (imm 1)).zeroExtend 32),
        (.tLdrhImm rd rb off5, (s.readHalf (imm 2)).zeroExtend 32),
        (.tLdrSp rd word8, s.readWord (s.readReg 13 + BitVec.ofNat 32 (4 * word8.toNat)))],
      Computes p.1 s s.cpsr.flags (s.seen [(rd.reg, p.2)])

/-- R332, R333, R336, R340, R342, R343, R349: the stores of formats 7 to 11 change exactly the bytes of the
access width and no register. -/
def Obligations.ThumbStores : Prop :=
  ∀ (rd rb ro : LoReg) (off5 : BitVec 5) (word8 : BitVec 8) (s : State), s.mem.wf = true →
    let v := s.readReg rd.reg
    let reg := s.readReg rb.reg + s.readReg ro.reg
    let imm (k : Nat) : Word := s.readReg rb.reg + BitVec.ofNat 32 (k * off5.toNat)
    ∀ p ∈ [(Instr.tStrReg rd rb ro, reg, wordBytes v), (.tStrbReg rd rb ro, reg, [v.extractLsb' 0 8]),
        (.tStrhReg rd rb ro, reg, halfBytes (v.extractLsb' 0 16)), (.tStrImm rd rb off5, imm 4, wordBytes v),
        (.tStrbImm rd rb off5, imm 1, [v.extractLsb' 0 8]),
        (.tStrhImm rd rb off5, imm 2, halfBytes (v.extractLsb' 0 16)),
        (.tStrSp rd word8, s.readReg 13 + BitVec.ofNat 32 (4 * word8.toNat), wordBytes v)],
      Stores p.1 s [] p.2.1 p.2.2

/-- R346, R347: PUSH and POP as a full descending stack; POP to PC stays in Thumb state. -/
def Obligations.ThumbPushPop : Prop :=
  ∀ (r : Bool) (list : BitVec 8) (s : State),
    let low := regsOfList (list.zeroExtend 16)
    let pushed := low ++ (if r then [(14 : Reg)] else [])
    let popped := low ++ (if r then [(15 : Reg)] else [])
    let sp := s.readReg 13
    let first := sp - BitVec.ofNat 32 (4 * pushed.length)
    (s.mem.wf = true →
      Stores (.tPush r list) s (s.seen [(13, first)]) first
        (pushed.flatMap fun x => wordBytes (s.readReg x))) ∧
    Computes (.tPop r list) s s.cpsr.flags
      (s.seen ((13, sp + BitVec.ofNat 32 (4 * popped.length)) ::
        popped.zipIdx.map fun x => (x.1, s.readWord (sp + BitVec.ofNat 32 (4 * x.2)))))

/-- R351, R352: STMIA stores the original base, LDMIA lets the loaded base win. -/
def Obligations.ThumbBlockTransfer : Prop :=
  ∀ (rb : LoReg) (list : BitVec 8) (s : State),
    let regs := regsOfList (list.zeroExtend 16)
    let base := s.readReg rb.reg
    let final := base + BitVec.ofNat 32 (4 * regs.length)
    (s.mem.wf = true →
      Stores (.tStmia rb list) s (s.seen [(rb.reg, final)]) base
        (regs.flatMap fun x => wordBytes (s.readReg x))) ∧
    Computes (.tLdmia rb list) s s.cpsr.flags
      (s.seen ((rb.reg, final) ::
        regs.zipIdx.map fun x => (x.1, s.readWord (base + BitVec.ofNat 32 (4 * x.2)))))

/-- R361: the fourteen conditional branches, by the condition table of R92; nothing when the condition
fails. -/
def Obligations.ThumbConditionalBranches : Prop :=
  ∀ (o : BitVec 8) (s : State),
    let f := s.cpsr.flags
    ∀ p ∈ [(Instr.tBeq o, f.z), (.tBne o, !f.z), (.tBcs o, f.c), (.tBcc o, !f.c), (.tBmi o, f.n),
        (.tBpl o, !f.n), (.tBvs o, f.v), (.tBvc o, !f.v), (.tBhi o, f.c && !f.z), (.tBls o, !f.c || f.z),
        (.tBge o, f.n == f.v), (.tBlt o, f.n != f.v), (.tBgt o, !f.z && f.n == f.v),
        (.tBle o, f.z || f.n != f.v)],
      if p.2 then Computes p.1 s s.cpsr.flags (s.seen [(15, s.pc + BitVec.ofInt 32 (2 * o.toInt))])
      else exec p.1 s = .next s

/-- R362, R366, R367: B, and the two halves of BL, each an instruction of its own; and one tick after the other
the halves call `A + 4` plus the two offsets and leave the address after the pair, with bit 0 set, in R14. -/
def Obligations.ThumbBranches : Prop :=
  (∀ (o : BitVec 11) (s : State),
    Computes (.tB o) s s.cpsr.flags (s.seen [(15, s.pc + BitVec.ofInt 32 (2 * o.toInt))]) ∧
      Computes (.tBlFirst o) s s.cpsr.flags (s.seen [(14, s.pc + BitVec.ofInt 32 (4096 * o.toInt))]) ∧
      Computes (.tBlSecond o) s s.cpsr.flags
        (s.seen [(14, (s.pc - 2) ||| 1), (15, s.readReg 14 + BitVec.ofNat 32 (2 * o.toNat))])) ∧
    (∀ (hi lo : BitVec 11) (s : State), s.cpsr.t = true → s.align s.pc = s.pc →
      ∃ t u, exec (.tBlFirst hi) s = .next t ∧ exec (.tBlSecond lo) t.advance = .next u ∧
        u.At (s.pc + BitVec.ofInt 32 (4096 * hi.toInt) + BitVec.ofNat 32 (2 * lo.toNat)) ∧
        u.readReg 14 = s.pc ||| 1 ∧ u.cpsr = s.cpsr ∧
        (∀ p, p ≠ .pc → p ≠ phys s.cpsr.mode 14 → u.regs.read p = s.regs.read p) ∧ s.SameBytes u)
end

