-- ==== Sys2Proof/Laws/State.lean ====
section
/-! SUPPORT. What each update of the state leaves alone, field by field, and the value it gives the field it
writes. Later proofs use these and do not unfold a record update. -/

namespace Sys2Proof.Machine

variable (s : State) (p : Phys) (i : Reg) (v a : Word) (b : Byte) (h : Half) (f : Flags) (k : ExcKind)
  (on : Bool)

/-! ## A physical register written -/

@[simp] theorem State.setPhys_regs : (s.setPhys p v).regs = s.regs.write p v := rfl
@[simp] theorem State.setPhys_cpsr : (s.setPhys p v).cpsr = s.cpsr := rfl
@[simp] theorem State.setPhys_spsr : (s.setPhys p v).spsr = s.spsr := rfl
@[simp] theorem State.setPhys_pipeCur : (s.setPhys p v).pipeCur = s.pipeCur := rfl
@[simp] theorem State.setPhys_pipeNext : (s.setPhys p v).pipeNext = s.pipeNext := rfl
@[simp] theorem State.setPhys_pending : (s.setPhys p v).pending = s.pending := rfl
@[simp] theorem State.setPhys_running : (s.setPhys p v).running = s.running := rfl
@[simp] theorem State.setPhys_mem : (s.setPhys p v).mem = s.mem := rfl

/-! ## The program counter written -/

@[simp] theorem State.setPc_regs : (s.setPc v).regs = s.regs.write .pc v := rfl
@[simp] theorem State.setPc_cpsr : (s.setPc v).cpsr = s.cpsr := rfl
@[simp] theorem State.setPc_spsr : (s.setPc v).spsr = s.spsr := rfl
@[simp] theorem State.setPc_pipeCur : (s.setPc v).pipeCur = s.pipeCur := rfl
@[simp] theorem State.setPc_pipeNext : (s.setPc v).pipeNext = s.pipeNext := rfl
@[simp] theorem State.setPc_pending : (s.setPc v).pending = s.pending := rfl
@[simp] theorem State.setPc_running : (s.setPc v).running = s.running := rfl
@[simp] theorem State.setPc_mem : (s.setPc v).mem = s.mem := rfl

/-! ## The flags written -/

@[simp] theorem State.setFlags_regs : (s.setFlags f).regs = s.regs := rfl
@[simp] theorem State.setFlags_cpsr : (s.setFlags f).cpsr = { s.cpsr with flags := f } := rfl
@[simp] theorem State.setFlags_spsr : (s.setFlags f).spsr = s.spsr := rfl
@[simp] theorem State.setFlags_pipeCur : (s.setFlags f).pipeCur = s.pipeCur := rfl
@[simp] theorem State.setFlags_pipeNext : (s.setFlags f).pipeNext = s.pipeNext := rfl
@[simp] theorem State.setFlags_pending : (s.setFlags f).pending = s.pending := rfl
@[simp] theorem State.setFlags_running : (s.setFlags f).running = s.running := rfl
@[simp] theorem State.setFlags_mem : (s.setFlags f).mem = s.mem := rfl

/-! ## A pending flag written -/

@[simp] theorem State.setPending_regs : (s.setPending k on).regs = s.regs := rfl
@[simp] theorem State.setPending_cpsr : (s.setPending k on).cpsr = s.cpsr := rfl
@[simp] theorem State.setPending_spsr : (s.setPending k on).spsr = s.spsr := rfl
@[simp] theorem State.setPending_pipeCur : (s.setPending k on).pipeCur = s.pipeCur := rfl
@[simp] theorem State.setPending_pipeNext : (s.setPending k on).pipeNext = s.pipeNext := rfl
@[simp] theorem State.setPending_pending : (s.setPending k on).pending = s.pending.set k on := rfl
@[simp] theorem State.setPending_running : (s.setPending k on).running = s.running := rfl
@[simp] theorem State.setPending_mem : (s.setPending k on).mem = s.mem := rfl

/-! ## An exception raised -/

@[simp] theorem State.raiseException_regs : (s.raiseException k).regs = s.regs := rfl
@[simp] theorem State.raiseException_cpsr : (s.raiseException k).cpsr = s.cpsr := rfl
@[simp] theorem State.raiseException_spsr : (s.raiseException k).spsr = s.spsr := rfl
@[simp] theorem State.raiseException_pipeCur : (s.raiseException k).pipeCur = s.pipeCur := rfl
@[simp] theorem State.raiseException_pipeNext : (s.raiseException k).pipeNext = s.pipeNext := rfl
@[simp] theorem State.raiseException_pending : (s.raiseException k).pending = s.pending.set k true := rfl
@[simp] theorem State.raiseException_running : (s.raiseException k).running = s.running := rfl
@[simp] theorem State.raiseException_mem : (s.raiseException k).mem = s.mem := rfl

/-! ## The pipeline advanced -/

@[simp] theorem State.advance_regs : (s.advance).regs = { s.regs with pc := s.align s.pc + s.width } := rfl
@[simp] theorem State.advance_cpsr : (s.advance).cpsr = s.cpsr := rfl
@[simp] theorem State.advance_spsr : (s.advance).spsr = s.spsr := rfl
@[simp] theorem State.advance_pipeCur : (s.advance).pipeCur = s.pipeNext := rfl
@[simp] theorem State.advance_pipeNext : (s.advance).pipeNext = s.fetch (s.align s.pc) := rfl
@[simp] theorem State.advance_pending : (s.advance).pending = s.pending := rfl
@[simp] theorem State.advance_running : (s.advance).running = s.running := rfl
@[simp] theorem State.advance_mem : (s.advance).mem = s.mem := rfl

/-! ## The pipeline reloaded -/

@[simp] theorem State.reload_regs : (s.reload).regs = { s.regs with pc := s.align s.pc + s.width } := rfl
@[simp] theorem State.reload_cpsr : (s.reload).cpsr = s.cpsr := rfl
@[simp] theorem State.reload_spsr : (s.reload).spsr = s.spsr := rfl
@[simp] theorem State.reload_pipeCur : (s.reload).pipeCur = 0#32 := rfl
@[simp] theorem State.reload_pipeNext : (s.reload).pipeNext = s.fetch (s.align s.pc) := rfl
@[simp] theorem State.reload_pending : (s.reload).pending = s.pending := rfl
@[simp] theorem State.reload_running : (s.reload).running = s.running := rfl
@[simp] theorem State.reload_mem : (s.reload).mem = s.mem := rfl

/-! ## A branch -/

@[simp] theorem State.branchTo_regs : (s.branchTo v).regs = { s.regs with pc := s.align v + s.width } := rfl
@[simp] theorem State.branchTo_cpsr : (s.branchTo v).cpsr = s.cpsr := rfl
@[simp] theorem State.branchTo_spsr : (s.branchTo v).spsr = s.spsr := rfl
@[simp] theorem State.branchTo_pipeCur : (s.branchTo v).pipeCur = 0#32 := rfl
@[simp] theorem State.branchTo_pipeNext : (s.branchTo v).pipeNext = s.fetch (s.align v) := rfl
@[simp] theorem State.branchTo_pending : (s.branchTo v).pending = s.pending := rfl
@[simp] theorem State.branchTo_running : (s.branchTo v).running = s.running := rfl
@[simp] theorem State.branchTo_mem : (s.branchTo v).mem = s.mem := rfl

/-! ## A byte written -/

@[simp] theorem State.writeByte_regs : (s.writeByte a b).regs = s.regs := rfl
@[simp] theorem State.writeByte_cpsr : (s.writeByte a b).cpsr = s.cpsr := rfl
@[simp] theorem State.writeByte_spsr : (s.writeByte a b).spsr = s.spsr := rfl
@[simp] theorem State.writeByte_pipeCur : (s.writeByte a b).pipeCur = s.pipeCur := rfl
@[simp] theorem State.writeByte_pipeNext : (s.writeByte a b).pipeNext = s.pipeNext := rfl
@[simp] theorem State.writeByte_pending : (s.writeByte a b).pending = s.pending := rfl
@[simp] theorem State.writeByte_running : (s.writeByte a b).running = s.running := rfl
@[simp] theorem State.writeByte_mem : (s.writeByte a b).mem = s.mem.write a.toNat b := rfl

/-! ## A halfword written -/

@[simp] theorem State.writeHalf_regs : (s.writeHalf a h).regs = s.regs := rfl
@[simp] theorem State.writeHalf_cpsr : (s.writeHalf a h).cpsr = s.cpsr := rfl
@[simp] theorem State.writeHalf_spsr : (s.writeHalf a h).spsr = s.spsr := rfl
@[simp] theorem State.writeHalf_pipeCur : (s.writeHalf a h).pipeCur = s.pipeCur := rfl
@[simp] theorem State.writeHalf_pipeNext : (s.writeHalf a h).pipeNext = s.pipeNext := rfl
@[simp] theorem State.writeHalf_pending : (s.writeHalf a h).pending = s.pending := rfl
@[simp] theorem State.writeHalf_running : (s.writeHalf a h).running = s.running := rfl

/-! ## A word written -/

@[simp] theorem State.writeWord_regs : (s.writeWord a v).regs = s.regs := rfl
@[simp] theorem State.writeWord_cpsr : (s.writeWord a v).cpsr = s.cpsr := rfl
@[simp] theorem State.writeWord_spsr : (s.writeWord a v).spsr = s.spsr := rfl
@[simp] theorem State.writeWord_pipeCur : (s.writeWord a v).pipeCur = s.pipeCur := rfl
@[simp] theorem State.writeWord_pipeNext : (s.writeWord a v).pipeNext = s.pipeNext := rfl
@[simp] theorem State.writeWord_pending : (s.writeWord a v).pending = s.pending := rfl
@[simp] theorem State.writeWord_running : (s.writeWord a v).running = s.running := rfl

/-! ## A visible register written: only the register file and, for register 15, the pipeline change -/

@[simp] theorem State.writeReg_cpsr : (s.writeReg i v).cpsr = s.cpsr := by
  unfold State.writeReg; split <;> rfl
@[simp] theorem State.writeReg_spsr : (s.writeReg i v).spsr = s.spsr := by
  unfold State.writeReg; split <;> rfl
@[simp] theorem State.writeReg_pending : (s.writeReg i v).pending = s.pending := by
  unfold State.writeReg; split <;> rfl
@[simp] theorem State.writeReg_running : (s.writeReg i v).running = s.running := by
  unfold State.writeReg; split <;> rfl
@[simp] theorem State.writeReg_mem : (s.writeReg i v).mem = s.mem := by
  unfold State.writeReg; split <;> rfl

@[simp] theorem State.writeUserReg_cpsr : (s.writeUserReg i v).cpsr = s.cpsr := by
  unfold State.writeUserReg; split <;> rfl
@[simp] theorem State.writeUserReg_spsr : (s.writeUserReg i v).spsr = s.spsr := by
  unfold State.writeUserReg; split <;> rfl
@[simp] theorem State.writeUserReg_pending : (s.writeUserReg i v).pending = s.pending := by
  unfold State.writeUserReg; split <;> rfl
@[simp] theorem State.writeUserReg_running : (s.writeUserReg i v).running = s.running := by
  unfold State.writeUserReg; split <;> rfl
@[simp] theorem State.writeUserReg_mem : (s.writeUserReg i v).mem = s.mem := by
  unfold State.writeUserReg; split <;> rfl

theorem State.writeReg_pc : s.writeReg 15 v = s.branchTo v := rfl

theorem State.writeReg_ne (hi : i ≠ 15) : s.writeReg i v = s.setPhys (phys s.cpsr.mode i) v := if_neg hi

theorem State.writeUserReg_ne (hi : i ≠ 15) : s.writeUserReg i v = s.setPhys (phys .user i) v := if_neg hi

/-! ## Reads that an update does not touch -/

@[simp] theorem State.width_setFlags : (s.setFlags f).width = s.width := rfl
@[simp] theorem State.width_setPhys : (s.setPhys p v).width = s.width := rfl
@[simp] theorem State.width_advance : s.advance.width = s.width := rfl
@[simp] theorem State.width_reload : s.reload.width = s.width := rfl
@[simp] theorem State.width_branchTo : (s.branchTo v).width = s.width := rfl
@[simp] theorem State.align_setFlags : (s.setFlags f).align v = s.align v := rfl
@[simp] theorem State.align_setPhys : (s.setPhys p v).align a = s.align a := rfl
@[simp] theorem State.align_advance : s.advance.align v = s.align v := rfl
@[simp] theorem State.align_branchTo : (s.branchTo v).align a = s.align a := rfl
@[simp] theorem State.fetch_setFlags : (s.setFlags f).fetch v = s.fetch v := rfl
@[simp] theorem State.fetch_setPhys : (s.setPhys p v).fetch a = s.fetch a := rfl
@[simp] theorem State.fetch_advance : s.advance.fetch v = s.fetch v := rfl
@[simp] theorem State.fetch_branchTo : (s.branchTo v).fetch a = s.fetch a := rfl
@[simp] theorem State.readByte_setFlags : (s.setFlags f).readByte a = s.readByte a := rfl
@[simp] theorem State.readByte_setPhys : (s.setPhys p v).readByte a = s.readByte a := rfl
@[simp] theorem State.readByte_advance : s.advance.readByte a = s.readByte a := rfl
@[simp] theorem State.readByte_branchTo : (s.branchTo v).readByte a = s.readByte a := rfl
@[simp] theorem State.readWord_setFlags : (s.setFlags f).readWord a = s.readWord a := rfl
@[simp] theorem State.readWord_setPhys : (s.setPhys p v).readWord a = s.readWord a := rfl
@[simp] theorem State.readWord_advance : s.advance.readWord a = s.readWord a := rfl
@[simp] theorem State.readWord_branchTo : (s.branchTo v).readWord a = s.readWord a := rfl
@[simp] theorem State.readReg_setFlags : (s.setFlags f).readReg i = s.readReg i := rfl
@[simp] theorem State.readReg_setPending : (s.setPending k on).readReg i = s.readReg i := rfl
@[simp] theorem State.readReg_writeByte : (s.writeByte a b).readReg i = s.readReg i := rfl
@[simp] theorem State.readReg_pc : s.readReg 15 = s.pc := rfl
@[simp] theorem State.pc_advance : s.advance.pc = s.align s.pc + s.width := rfl
@[simp] theorem State.pc_reload : s.reload.pc = s.align s.pc + s.width := rfl
@[simp] theorem State.pc_branchTo : (s.branchTo v).pc = s.align v + s.width := rfl
@[simp] theorem State.pc_setFlags : (s.setFlags f).pc = s.pc := rfl

@[simp] theorem State.readByte_writeReg : (s.writeReg i v).readByte a = s.readByte a := by
  simp [State.readByte]

@[simp] theorem State.readWord_writeReg : (s.writeReg i v).readWord a = s.readWord a := by
  simp [State.readWord]

end Sys2Proof.Machine
end

