-- ==== Sys2Proof/Laws/Memory.lean ====
section
/-! SUPPORT. Memory: a written byte reads back, a write leaves every other byte, every operation keeps the
canonical form, and canonical memories that read alike are equal (20_memory.md R62 to R65). -/

namespace Sys2Proof.Machine

/-! ## The canonical form -/

theorem Memory.wfFrom_mono {m : Memory} {lo hi : Nat} (h : m.wfFrom hi = true) (hle : lo ≤ hi) :
    m.wfFrom lo = true := by
  cases m with
  | nil => rfl
  | cons c rest => simp only [Memory.wfFrom, Bool.and_eq_true, decide_eq_true_eq] at h ⊢; grind

theorem Memory.wfFrom_consByte {m : Memory} {a lo : Nat} {v : Byte} (h : m.wfFrom (a + 1) = true)
    (hlo : lo ≤ a) (ha : a < 2 ^ 32) : (Memory.consByte a v m).wfFrom lo = true := by
  unfold Memory.consByte
  split
  · exact Memory.wfFrom_mono h (by omega)
  · simp only [Memory.wfFrom, Bool.and_eq_true, decide_eq_true_eq, bne_iff_ne]
    exact ⟨⟨⟨hlo, ha⟩, ‹_›⟩, h⟩

theorem Memory.wfFrom_write {m : Memory} {a lo : Nat} {v : Byte} (h : m.wfFrom lo = true) (hlo : lo ≤ a)
    (ha : a < 2 ^ 32) : (m.write a v).wfFrom lo = true := by
  induction m generalizing lo with
  | nil => exact Memory.wfFrom_consByte rfl hlo ha
  | cons c rest ih =>
    obtain ⟨b, u⟩ := c
    simp only [Memory.wfFrom, Bool.and_eq_true, decide_eq_true_eq] at h
    obtain ⟨⟨⟨hb, hb'⟩, hu⟩, hr⟩ := h
    simp only [Memory.write]
    split
    · refine Memory.wfFrom_consByte ?_ hlo ha
      simp only [Memory.wfFrom, Bool.and_eq_true, decide_eq_true_eq]
      exact ⟨⟨⟨by omega, hb'⟩, hu⟩, hr⟩
    · split
      · rename_i h2; subst h2; exact Memory.wfFrom_consByte hr hlo ha
      · simp only [Memory.wfFrom, Bool.and_eq_true, decide_eq_true_eq]
        exact ⟨⟨⟨hb, hb'⟩, hu⟩, ih hr (by omega)⟩

/-- A write keeps the canonical form. -/
theorem Memory.wf_write {m : Memory} {a : Nat} (v : Byte) (h : m.wf = true) (ha : a < 2 ^ 32) :
    (m.write a v).wf = true :=
  Memory.wfFrom_write h (Nat.zero_le a) ha

/-! ## Reading -/

theorem Memory.read_of_lt {m : Memory} {a lo : Nat} (h : m.wfFrom lo = true) (ha : a < lo) :
    m.read a = Config.busFill := by
  cases m with
  | nil => rfl
  | cons c rest =>
    simp only [Memory.wfFrom, Bool.and_eq_true, decide_eq_true_eq] at h
    simp only [Memory.read]
    rw [if_neg (by omega), if_pos (by omega)]

theorem Memory.read_consByte {m : Memory} {a : Nat} (v : Byte) (b : Nat) (h : m.wfFrom (a + 1) = true) :
    (Memory.consByte a v m).read b = if b = a then v else m.read b := by
  unfold Memory.consByte
  split
  · split
    · rename_i h1 h2; rw [h2, h1]; exact Memory.read_of_lt h (by omega)
    · rfl
  · simp only [Memory.read]
    split
    · rfl
    · split
      · exact (Memory.read_of_lt h (by omega)).symm
      · rfl

theorem Memory.read_write_from {m : Memory} {lo : Nat} (a b : Nat) (v : Byte) (h : m.wfFrom lo = true) :
    (m.write a v).read b = if b = a then v else m.read b := by
  induction m generalizing lo with
  | nil => exact Memory.read_consByte v b rfl
  | cons c rest ih =>
    obtain ⟨x, u⟩ := c
    have h0 := h
    simp only [Memory.wfFrom, Bool.and_eq_true, decide_eq_true_eq] at h
    obtain ⟨⟨⟨hb, hb'⟩, hu⟩, hr⟩ := h
    simp only [Memory.write]
    split
    · refine Memory.read_consByte v b ?_
      simp only [Memory.wfFrom, Bool.and_eq_true, decide_eq_true_eq]
      exact ⟨⟨⟨by omega, hb'⟩, hu⟩, hr⟩
    · split
      · rename_i h1 h2
        subst h2
        rw [Memory.read_consByte v b hr]
        simp only [Memory.read]
        split
        · rfl
        · split
          · exact Memory.read_of_lt hr (by omega)
          · rfl
      · simp only [Memory.read]
        split
        · rw [if_neg (by omega)]
        · split
          · rw [if_neg (by omega)]
          · exact ih hr

/-- Read after write. -/
theorem Memory.read_write {m : Memory} (a b : Nat) (v : Byte) (h : m.wf = true) :
    (m.write a v).read b = if b = a then v else m.read b :=
  Memory.read_write_from a b v h

/-- Two canonical memories that read alike everywhere are the same list. -/
theorem Memory.ext_read_from {m m' : Memory} {lo : Nat} (h : m.wfFrom lo = true) (h' : m'.wfFrom lo = true)
    (hr : ∀ a, m.read a = m'.read a) : m = m' := by
  induction m generalizing m' lo with
  | nil =>
    cases m' with
    | nil => rfl
    | cons c rest =>
      simp only [Memory.wfFrom, Bool.and_eq_true, decide_eq_true_eq, bne_iff_ne] at h'
      have := hr c.1
      simp only [Memory.read, if_true] at this
      exact absurd this.symm h'.1.2
  | cons c rest ih =>
    obtain ⟨x, u⟩ := c
    cases m' with
    | nil =>
      simp only [Memory.wfFrom, Bool.and_eq_true, decide_eq_true_eq, bne_iff_ne] at h
      have := hr x
      simp only [Memory.read, if_true] at this
      exact absurd this h.1.2
    | cons d rest' =>
      obtain ⟨y, w⟩ := d
      simp only [Memory.wfFrom, Bool.and_eq_true, decide_eq_true_eq, bne_iff_ne] at h h'
      obtain ⟨⟨⟨hx, -⟩, hu⟩, hrest⟩ := h
      obtain ⟨⟨⟨hy, -⟩, hw⟩, hrest'⟩ := h'
      have hxy : x = y := by
        by_contra hne
        have h1 := hr x
        have h2 := hr y
        simp only [Memory.read, if_true] at h1 h2
        rcases Nat.lt_or_gt_of_ne hne with hlt | hgt
        · rw [if_neg hne, if_pos hlt] at h1; exact hu h1
        · rw [if_neg (Ne.symm hne), if_pos hgt] at h2; exact hw h2.symm
      subst hxy
      have huw : u = w := by simpa [Memory.read] using hr x
      subst huw
      congr 1
      refine ih hrest hrest' fun a => ?_
      by_cases ha : a < x + 1
      · rw [Memory.read_of_lt hrest ha, Memory.read_of_lt hrest' ha]
      · have := hr a
        simpa only [Memory.read, if_neg (show ¬ a = x by omega), if_neg (show ¬ a < x by omega)] using this

/-! ## The bus accesses -/

theorem State.readByte_writeByte {s : State} (a b : Word) (v : Byte) (h : s.mem.wf = true) :
    (s.writeByte a v).readByte b = if b = a then v else s.readByte b := by
  simp only [State.readByte, State.writeByte_mem, Memory.read_write _ _ _ h, BitVec.toNat_inj]

theorem State.writeByte_wf {s : State} (a : Word) (v : Byte) (h : s.mem.wf = true) :
    (s.writeByte a v).mem.wf = true :=
  Memory.wf_write v h a.isLt

theorem State.writeHalf_wf {s : State} (a : Word) (v : Half) (h : s.mem.wf = true) :
    (s.writeHalf a v).mem.wf = true := by
  unfold State.writeHalf; exact State.writeByte_wf _ _ (State.writeByte_wf _ _ h)

theorem State.writeWord_wf {s : State} (a : Word) (v : Word) (h : s.mem.wf = true) :
    (s.writeWord a v).mem.wf = true := by
  unfold State.writeWord
  exact State.writeByte_wf _ _ (State.writeByte_wf _ _ (State.writeByte_wf _ _ (State.writeByte_wf _ _ h)))

theorem State.storeBytes_wf {s : State} (a : Word) (bs : List Byte) (h : s.mem.wf = true) :
    (s.storeBytes a bs).mem.wf = true := by
  induction bs generalizing s a with
  | nil => exact h
  | cons b bs ih => exact ih (a + 1) (State.writeByte_wf a b h)

theorem State.storeWords_wf {s : State} (a : Word) (vs : List Word) (h : s.mem.wf = true) :
    (s.storeWords a vs).mem.wf = true := by
  induction vs generalizing s a with
  | nil => exact h
  | cons v vs ih => exact ih (a + 4) (State.writeWord_wf a v h)

theorem State.reset_mem_wf : State.reset.mem.wf = true := rfl

end Sys2Proof.Machine
end

