-- ==== Sys2Proof/Laws/Registers.lean ====
section
/-! SUPPORT. The register file: a written physical register reads back and no other changes; which physical
registers a mode sees (10_state.md R23, R24). -/

namespace Sys2Proof.Machine

theorem RegFile.read_write (r : RegFile) (p q : Phys) (v : Word) :
    (r.write p v).read q = if q = p then v else r.read q := by
  cases p <;> cases q <;>
    simp [RegFile.write, RegFile.read, Vector.getElem_set, Fin.ext_iff, eq_comm]

@[simp] theorem RegFile.read_write_self (r : RegFile) (p : Phys) (v : Word) : (r.write p v).read p = v := by
  simp [RegFile.read_write]

theorem RegFile.read_write_ne (r : RegFile) {p q : Phys} (v : Word) (h : q ≠ p) :
    (r.write p v).read q = r.read q := by
  simp [RegFile.read_write, h]

/-- Register files that read alike are equal. -/
theorem RegFile.ext_read {r r' : RegFile} (h : ∀ p, r.read p = r'.read p) : r = r' := by
  obtain ⟨c, f, sv, ab, iq, ud, pc⟩ := r
  obtain ⟨c', f', sv', ab', iq', ud', pc'⟩ := r'
  simp only [RegFile.mk.injEq]
  refine ⟨?_, ?_, ?_, ?_, ?_, ?_, h .pc⟩
  · exact Vector.ext fun i hi => h (.common ⟨i, hi⟩)
  · exact Vector.ext fun i hi => h (.fiq ⟨i, hi⟩)
  · exact Vector.ext fun i hi => h (.svc ⟨i, hi⟩)
  · exact Vector.ext fun i hi => h (.abt ⟨i, hi⟩)
  · exact Vector.ext fun i hi => h (.irq ⟨i, hi⟩)
  · exact Vector.ext fun i hi => h (.und ⟨i, hi⟩)

@[simp] theorem RegFile.read_pc (r : RegFile) (v : Word) (p : Phys) (h : p ≠ .pc) :
    ({ r with pc := v } : RegFile).read p = r.read p := by
  cases p <;> first | rfl | exact absurd rfl h

theorem loReg_ne_pc : ∀ r : LoReg, r.reg ≠ 15 := by decide

/-- Only index 15 names the program counter. -/
theorem phys_eq_pc : ∀ (m : Mode) (i : Reg), phys m i = .pc ↔ i = 15 := by
  intro m; cases m <;> decide

/-- Within one mode, different indices name different registers. -/
theorem phys_inj : ∀ (m : Mode) (i j : Reg), phys m i = phys m j ↔ i = j := by
  intro m; cases m <;> decide

theorem State.readReg_setPhys (s : State) (p : Phys) (i : Reg) (v : Word) :
    (s.setPhys p v).readReg i = if phys s.cpsr.mode i = p then v else s.readReg i :=
  RegFile.read_write ..

theorem State.readReg_branchTo (s : State) (v : Word) {i : Reg} (h : i ≠ 15) :
    (s.branchTo v).readReg i = s.readReg i :=
  s.regs.read_pc (s.align v + s.width) (phys s.cpsr.mode i) (mt (phys_eq_pc _ _).mp h)

theorem State.read_advance (s : State) {p : Phys} (h : p ≠ .pc) : s.advance.regs.read p = s.regs.read p :=
  s.regs.read_pc (s.align s.pc + s.width) p h

theorem State.read_branchTo (s : State) (v : Word) {p : Phys} (h : p ≠ .pc) :
    (s.branchTo v).regs.read p = s.regs.read p :=
  s.regs.read_pc (s.align v + s.width) p h

theorem State.readReg_advance (s : State) {i : Reg} (h : i ≠ 15) : s.advance.readReg i = s.readReg i :=
  s.read_advance (mt (phys_eq_pc _ _).mp h)

theorem State.pc_setPhys (s : State) (v : Word) {p : Phys} (h : p ≠ .pc) : (s.setPhys p v).pc = s.pc :=
  RegFile.read_write_ne s.regs v (Ne.symm h)

theorem State.pc_writeReg (s : State) (v : Word) {i : Reg} (h : i ≠ 15) : (s.writeReg i v).pc = s.pc := by
  rw [State.writeReg_ne _ _ _ h]
  exact s.pc_setPhys v (mt (phys_eq_pc _ _).mp h)

theorem State.readReg_writeReg_self (s : State) (v : Word) {i : Reg} (h : i ≠ 15) :
    (s.writeReg i v).readReg i = v := by
  simp [State.writeReg_ne s i v h, State.readReg_setPhys]

theorem State.readReg_writeReg_ne (s : State) (v : Word) {i j : Reg} (h : j ≠ i) (hj : j ≠ 15) :
    (s.writeReg i v).readReg j = s.readReg j := by
  by_cases hi : i = 15
  · subst hi; exact s.readReg_branchTo v hj
  · simp [State.writeReg_ne s i v hi, State.readReg_setPhys, phys_inj, h]

end Sys2Proof.Machine
end

