-- ==== Sys2Proof/Laws/Effects.lean ====
section
/-! SUPPORT. How the shared operations build up an `Effect`: one lemma per operation, cited by every claim
about an instruction's result and frame. -/

namespace Sys2Proof.Machine

variable {s t : State} {fl : Flags} {ws : List (Phys × Word)}

/-! ## The last write -/

@[simp] theorem lastWrite_nil (p : Phys) : lastWrite p [] = none := rfl

theorem lastWrite_append (p : Phys) (ws us : List (Phys × Word)) :
    lastWrite p (ws ++ us) = (lastWrite p us).or (lastWrite p ws) := by
  induction ws with
  | nil => simp
  | cons w ws ih => simp [lastWrite, ih, Option.or_assoc]

theorem lastWrite_concat (p q : Phys) (v : Word) (ws : List (Phys × Word)) :
    lastWrite p (ws ++ [(q, v)]) = if q = p then some v else lastWrite p ws := by
  rw [lastWrite_append]
  by_cases h : q = p <;> simp [lastWrite, h]

/-! ## Builders -/

theorem State.branchTo_at (s : State) (v : Word) : (s.branchTo v).At v := ⟨rfl, rfl⟩

/-- Nothing changed but, perhaps, memory. -/
theorem Effect.ofMem (s : State) (m : Memory) : Effect s { s with mem := m } s.cpsr.flags [] :=
  ⟨rfl, rfl, rfl, rfl, rfl, rfl, rfl, rfl, fun _ _ => rfl, rfl, rfl, rfl⟩

theorem Effect.refl (s : State) : Effect s s s.cpsr.flags [] := Effect.ofMem s s.mem

theorem Effect.setFlags (h : Effect s t fl ws) (g : Flags) : Effect s (t.setFlags g) g ws :=
  ⟨rfl, h.maskI, h.maskF, h.stateBit, h.mode, h.spsr, h.pending, h.running, h.regs⟩

theorem Effect.setFlagsIf (h : Effect s t fl ws) (b : Bool) (g : Flags) :
    Effect s (if b then t.setFlags g else t) (if b then g else fl) ws := by
  cases b
  · exact h
  · exact h.setFlags g

theorem Effect.branchTo (h : Effect s t fl ws) (v : Word) :
    Effect s (t.branchTo v) fl (ws ++ [(.pc, v)]) := by
  refine ⟨h.flags, h.maskI, h.maskF, h.stateBit, h.mode, h.spsr, h.pending, h.running, fun p hp => ?_, ?_⟩
  · rw [lastWrite_concat, if_neg (Ne.symm hp), ← h.regs.1 p hp]
    exact t.regs.read_pc _ p hp
  · rw [lastWrite_concat, if_pos rfl]
    exact ⟨rfl, rfl⟩

theorem Effect.setPhys (h : Effect s t fl ws) {q : Phys} (hq : q ≠ .pc) (v : Word) :
    Effect s (t.setPhys q v) fl (ws ++ [(q, v)]) := by
  refine ⟨h.flags, h.maskI, h.maskF, h.stateBit, h.mode, h.spsr, h.pending, h.running, fun p hp => ?_, ?_⟩
  · rw [lastWrite_concat]
    by_cases hpq : q = p
    · subst hpq; simp
    · rw [if_neg hpq, ← h.regs.1 p hp]
      exact RegFile.read_write_ne _ _ (Ne.symm hpq)
  · rw [lastWrite_concat, if_neg hq]
    have hpc : (t.setPhys q v).pc = t.pc := RegFile.read_write_ne t.regs v (Ne.symm hq)
    have := h.regs.2
    split at this
    · exact ⟨hpc.trans this.1, this.2⟩
    · exact ⟨hpc.trans this.1, this.2⟩

theorem Effect.writeReg (h : Effect s t fl ws) (i : Reg) (v : Word) :
    Effect s (t.writeReg i v) fl (ws ++ s.seen [(i, v)]) := by
  by_cases hi : i = 15
  · subst hi; exact h.branchTo v
  · rw [State.writeReg_ne _ _ _ hi, h.mode]
    exact h.setPhys (mt (phys_eq_pc _ _).mp hi) v

theorem Effect.writeUserReg (h : Effect s t fl ws) (i : Reg) (v : Word) :
    Effect s (t.writeUserReg i v) fl (ws ++ userSeen [(i, v)]) := by
  by_cases hi : i = 15
  · subst hi; exact h.branchTo v
  · rw [State.writeUserReg_ne _ _ _ hi]
    exact h.setPhys (mt (phys_eq_pc _ _).mp hi) v

theorem Effect.writeRegs (h : Effect s t fl ws) (us : List (Reg × Word)) :
    Effect s (t.writeRegs us) fl (ws ++ s.seen us) := by
  induction us generalizing t ws with
  | nil => simpa [State.seen, State.writeRegs] using h
  | cons u us ih =>
    have := ih (h.writeReg u.1 u.2)
    rwa [List.append_assoc] at this

theorem Effect.writeUserRegs (h : Effect s t fl ws) (us : List (Reg × Word)) :
    Effect s (t.writeUserRegs us) fl (ws ++ userSeen us) := by
  induction us generalizing t ws with
  | nil => simpa [userSeen, State.writeUserRegs] using h
  | cons u us ih =>
    have := ih (h.writeUserReg u.1 u.2)
    rwa [List.append_assoc] at this

theorem Effect.writeBack (h : Effect s t fl ws) (m : IndexMode) (rn : Reg) (v : Word) :
    Effect s (t.writeBack m rn v) fl (ws ++ s.seen (if m.p = false ∨ m.w = true then [(rn, v)] else [])) := by
  have hw : m.writesBack = true ↔ (m.p = false ∨ m.w = true) := by simp [IndexMode.writesBack]
  unfold State.writeBack
  by_cases hb : m.p = false ∨ m.w = true
  · rw [if_pos (hw.mpr hb), if_pos hb]; exact h.writeReg rn v
  · rw [if_neg (mt hw.mp hb), if_neg hb]; simpa [State.seen] using h

@[simp] theorem IndexMode.blockWritesBack_zero (m : IndexMode) : m.blockWritesBack 0#16 = false := by
  simp [IndexMode.blockWritesBack]

theorem IndexMode.blockWritesBack_ne (m : IndexMode) {list : BitVec 16} (h : list ≠ 0#16) :
    m.blockWritesBack list = m.w := by simp [IndexMode.blockWritesBack, h]

theorem Effect.blockWriteBack (h : Effect s t fl ws) (m : IndexMode) (list : BitVec 16) (rn : Reg) (v : Word) :
    Effect s (if m.blockWritesBack list then t.writeReg rn v else t) fl
      (ws ++ s.seen (if m.w = true ∧ list ≠ 0#16 then [(rn, v)] else [])) := by
  have hw : m.blockWritesBack list = true ↔ (m.w = true ∧ list ≠ 0#16) := by simp [IndexMode.blockWritesBack]
  by_cases hb : m.w = true ∧ list ≠ 0#16
  · rw [if_pos (hw.mpr hb), if_pos hb]; exact h.writeReg rn v
  · rw [if_neg (mt hw.mp hb), if_neg hb]; simpa [State.seen] using h

theorem State.seen_append (s : State) (us vs : List (Reg × Word)) :
    s.seen (us ++ vs) = s.seen us ++ s.seen vs := by
  simp [State.seen]

/-! ## Memory -/

@[simp] theorem State.writeBack_mem (s : State) (m : IndexMode) (rn : Reg) (v : Word) :
    (s.writeBack m rn v).mem = s.mem := by
  unfold State.writeBack; split <;> simp

@[simp] theorem State.writeRegs_mem (s : State) (us : List (Reg × Word)) : (s.writeRegs us).mem = s.mem := by
  induction us generalizing s with
  | nil => rfl
  | cons u us ih => simp [State.writeRegs, ih]

@[simp] theorem State.writeUserRegs_mem (s : State) (us : List (Reg × Word)) :
    (s.writeUserRegs us).mem = s.mem := by
  induction us generalizing s with
  | nil => rfl
  | cons u us ih => simp [State.writeUserRegs, ih]

theorem State.SameBytes.refl (s : State) : s.SameBytes s := fun _ => rfl

theorem State.SameBytes.of_mem (h : t.mem = s.mem) : s.SameBytes t := fun a => by
  simp [State.readByte, h]

theorem State.writeHalf_eq (s : State) (a : Word) (v : Half) : s.writeHalf a v = s.storeBytes a (halfBytes v) :=
  rfl

theorem State.writeWord_eq (s : State) (a v : Word) : s.writeWord a v = s.storeBytes a (wordBytes v) := by
  simp only [State.writeWord, wordBytes, State.storeBytes, BitVec.add_assoc, field]
  rfl

theorem State.storeByte_eq (s : State) (a v : Word) : s.storeByte a v = s.storeBytes a [v.extractLsb' 0 8] := rfl

theorem State.storeHalf_eq (s : State) (a v : Word) :
    s.storeHalf a v = s.storeBytes a (halfBytes (v.extractLsb' 0 16)) := rfl

theorem addr_add_succ (a : Word) (k : Nat) : a + BitVec.ofNat 32 (k + 1) = a + 1 + BitVec.ofNat 32 k := by
  rw [BitVec.add_assoc, Nat.add_comm k 1, BitVec.ofNat_add]; rfl

theorem State.storeBytes_append (s : State) (a : Word) (bs cs : List Byte) :
    s.storeBytes a (bs ++ cs) = (s.storeBytes a bs).storeBytes (a + BitVec.ofNat 32 bs.length) cs := by
  induction bs generalizing s a with
  | nil => simp [State.storeBytes]
  | cons b bs ih =>
    simp only [List.cons_append, State.storeBytes, ih, List.length_cons, addr_add_succ]

theorem State.storeWords_eq (s : State) (a : Word) (vs : List Word) :
    s.storeWords a vs = s.storeBytes a (vs.flatMap wordBytes) := by
  induction vs generalizing s a with
  | nil => rfl
  | cons v vs ih =>
    rw [List.flatMap_cons, State.storeBytes_append, ← State.writeWord_eq]
    exact ih _ _

/-- Only memory changes when bytes are stored. -/
theorem State.storeBytes_with (s : State) (a : Word) (bs : List Byte) :
    s.storeBytes a bs = { s with mem := (s.storeBytes a bs).mem } := by
  induction bs generalizing s a with
  | nil => rfl
  | cons b bs ih => simp only [State.storeBytes]; rw [ih]; rfl

theorem Effect.storeBytes (s : State) (a : Word) (bs : List Byte) :
    Effect s (s.storeBytes a bs) s.cpsr.flags [] := by
  rw [State.storeBytes_with]; exact Effect.ofMem s _

/-- What storing bytes does: they stand where they were put and nothing else moved. -/
theorem State.storeBytes_stored (s : State) (a : Word) (bs : List Byte) (hw : s.mem.wf = true)
    (hl : bs.length ≤ 2 ^ 32) : s.Stored (s.storeBytes a bs) a bs := by
  induction bs generalizing s a with
  | nil => exact ⟨fun k h => absurd h (by simp), fun b _ => rfl⟩
  | cons b bs ih =>
    have hw' := State.writeByte_wf a b hw
    obtain ⟨h1, h2⟩ := ih (s.writeByte a b) (a + 1) hw' (by simp at hl; omega)
    simp only [List.length_cons] at hl
    constructor
    · intro k hk
      cases k with
      | zero =>
        have := h2 a (fun k hk he => by
          have : (BitVec.ofNat 32 (k + 1)) = 0#32 := by
            have h3 : a + 0#32 = a + (1 + BitVec.ofNat 32 k) := by
              rw [← BitVec.add_assoc]; simpa using he
            have h4 := BitVec.add_right_inj a |>.mp h3
            rw [Nat.add_comm, BitVec.ofNat_add]; exact h4.symm
          have := congrArg BitVec.toNat this
          simp only [BitVec.toNat_ofNat] at this
          rw [Nat.mod_eq_of_lt (by omega)] at this
          omega)
        simp only [State.storeBytes, List.getElem_cons_zero]
        rw [show a + BitVec.ofNat 32 0 = a by simp, this, State.readByte_writeByte _ _ _ hw, if_pos rfl]
      | succ k =>
        have := h1 k (by simpa using hk)
        simp only [State.storeBytes, List.getElem_cons_succ]
        rw [← this, addr_add_succ]
    · intro x hx
      simp only [State.storeBytes]
      rw [h2 x, State.readByte_writeByte _ _ _ hw, if_neg]
      · have := hx 0 (by simp)
        simpa using this
      · intro k hk he
        refine hx (k + 1) (by simpa using hk) ?_
        rw [he, addr_add_succ]

theorem State.Stored.congr {u : State} {a : Word} {bs : List Byte} (h : s.Stored t a bs) (hm : u.mem = t.mem) :
    s.Stored u a bs := by
  have : ∀ b, u.readByte b = t.readByte b := fun b => by simp [State.readByte, hm]
  exact ⟨fun k hk => by rw [this, h.1 k hk], fun b hb => by rw [this, h.2 b hb]⟩

end Sys2Proof.Machine
end

