-- ==== Sys2Proof/Laws/Encoding.lean ====
section
/-! SUPPORT. The small fields of an encoding and back, and how a field of joined bits is read
(30_encoding.md R92, R94). -/

namespace Sys2Proof

@[simp] theorem Cond.ofBits_bits (c : Cond) : Cond.ofBits c.bits = c := by cases c <;> rfl

theorem Cond.bits_ofBits (b : BitVec 4) : (Cond.ofBits b).bits = b := by revert b; decide

@[simp] theorem ShiftType.ofBits_bits (ty : ShiftType) : ShiftType.ofBits ty.bits = ty := by cases ty <;> rfl

theorem ShiftType.bits_ofBits (b : BitVec 2) : (ShiftType.ofBits b).bits = b := by revert b; decide

@[simp] theorem Reg.toFin_bits (r : Reg) : (Reg.bits r).toFin = r := rfl

@[simp] theorem LoReg.toFin_bits (r : LoReg) : (LoReg.bits r).toFin = r := rfl

/-- A field that lies in the upper part of joined bits. -/
theorem field_append_left {n m : Nat} (x : BitVec n) (y : BitVec m) (lo len : Nat) (h : m ≤ lo) :
    field (x ++ y) lo len = field x (lo - m) len := by
  ext i hi
  simp only [field, BitVec.getElem_extractLsb', BitVec.getLsbD_append]
  rw [if_neg (by omega), Nat.sub_add_comm h]

/-- A field that lies in the lower part of joined bits. -/
theorem field_append_right {n m : Nat} (x : BitVec n) (y : BitVec m) (lo len : Nat) (h : lo + len ≤ m) :
    field (x ++ y) lo len = field y lo len := by
  ext i hi
  simp only [field, BitVec.getElem_extractLsb', BitVec.getLsbD_append]
  rw [if_pos (by omega)]

/-- The field that is all of the bits. -/
theorem field_whole {n : Nat} (x : BitVec n) : field x 0 n = x := by
  ext i hi
  simp [field]

/-- Two adjacent fields joined are one field. -/
theorem field_join {n : Nat} (x : BitVec n) (lo a b : Nat) :
    field x (lo + a) b ++ field x lo a = field x lo (b + a) := by
  ext i hi
  simp only [field, BitVec.getElem_append, BitVec.getElem_extractLsb']
  split
  · rfl
  · congr 1; omega

/-- The condition field of an encoded instruction of the 32-bit set. -/
theorem field_cond (c : Cond) (i : BitVec 28) : field (c.bits ++ i) 28 4 = c.bits := by
  rw [field_append_left _ _ _ _ (by decide)]
  exact field_whole c.bits

/-- The instruction field of an encoded instruction of the 32-bit set. -/
theorem field_instr (c : Cond) (i : BitVec 28) : field (c.bits ++ i) 0 28 = i := by
  rw [field_append_right _ _ _ _ (by decide)]
  exact field_whole i

/-- Every instruction that the 32-bit set's map gives carries the condition of its word. -/
theorem decodeArmBits_cond? (c : Cond) (i : BitVec 28) : (decodeArmBits c i).cond? = some c := by
  unfold decodeArmBits decodeGroup000 decodeGroup001 decodeSingleTransfer decodeMultiplySwap decodeHalfTransfer
    decodeDataProcessing
  repeat' (first | ((try dsimp only); split) | rfl)

end Sys2Proof
end

