-- ==== Sys2Proof/Laws/Pipeline.lean ====
section
/-! SUPPORT. The fetch unit in each state: width, fetch and alignment, and what a reload followed by an advance
leaves (40_cycle_and_primitives.md R142 to R144). -/

namespace Sys2Proof.Machine

variable {s : State}

theorem State.width_arm (h : s.cpsr.t = false) : s.width = 4#32 := by simp [State.width, h]

theorem State.width_thumb (h : s.cpsr.t = true) : s.width = 2#32 := by simp [State.width, h]

theorem State.fetch_arm (a : Word) (h : s.cpsr.t = false) : s.fetch a = s.readWord a := by
  simp [State.fetch, h]

theorem State.fetch_thumb (a : Word) (h : s.cpsr.t = true) : s.fetch a = (s.readHalf a).zeroExtend 32 := by
  simp [State.fetch, h]

theorem State.align_arm (a : Word) (h : s.cpsr.t = false) : s.align a = a &&& 0xFFFFFFFC#32 := by
  simp only [State.align, State.width_arm h]; rfl

theorem State.align_thumb (a : Word) (h : s.cpsr.t = true) : s.align a = a &&& 0xFFFFFFFE#32 := by
  simp only [State.align, State.width_thumb h]; rfl

theorem and_clear_low (a : Word) (k : Nat) (m : Word) (hm : m = BitVec.allOnes 32 <<< k) :
    (a &&& m).toNat = a.toNat / 2 ^ k * 2 ^ k := by
  have : a &&& m = (a >>> k) <<< k := by
    subst hm
    ext i hi
    simp only [BitVec.getElem_and, BitVec.getElem_shiftLeft, BitVec.getElem_ushiftRight]
    by_cases h : i < k
    · simp [h]
    · simp [h, show k + (i - k) = i by omega, BitVec.getLsbD_eq_getElem hi, -BitVec.reduceAllOnes]
  rw [this, BitVec.toNat_shiftLeft, BitVec.toNat_ushiftRight, Nat.shiftRight_eq_div_pow, Nat.shiftLeft_eq]
  apply Nat.mod_eq_of_lt
  exact Nat.lt_of_le_of_lt (Nat.div_mul_le_self _ _) a.isLt

theorem State.align_toNat (a : Word) :
    (s.align a).toNat = a.toNat / (if s.cpsr.t then 2 else 4) * (if s.cpsr.t then 2 else 4) := by
  cases h : s.cpsr.t with
  | false => rw [State.align_arm a h]; exact and_clear_low a 2 _ (by decide)
  | true => rw [State.align_thumb a h]; exact and_clear_low a 1 _ (by decide)

theorem State.align_eq_iff (a : Word) :
    s.align a = a ↔ a.toNat % (if s.cpsr.t then 2 else 4) = 0 := by
  rw [← BitVec.toNat_inj, State.align_toNat]
  split <;> omega

@[simp] theorem State.align_align (a : Word) : s.align (s.align a) = s.align a := by
  rw [State.align_eq_iff, State.align_toNat]; exact Nat.mul_mod_left _ _

/-- An aligned address stays aligned when a multiple of the width is added. -/
theorem State.align_add (a b : Word) (ha : s.align a = a) (hb : s.align b = b) : s.align (a + b) = a + b := by
  rw [State.align_eq_iff] at *
  rw [BitVec.toNat_add]
  cases h : s.cpsr.t <;> simp only [h, if_true, Bool.false_eq_true, if_false] at * <;> omega

theorem State.align_sub (a b : Word) (ha : s.align a = a) (hb : s.align b = b) : s.align (a - b) = a - b := by
  rw [State.align_eq_iff] at *
  rw [BitVec.toNat_sub]
  cases h : s.cpsr.t <;> simp only [h, if_true, Bool.false_eq_true, if_false] at * <;> omega

theorem State.align_width : s.align s.width = s.width := by
  cases h : s.cpsr.t with
  | false => rw [State.width_arm h, State.align_arm _ h]; rfl
  | true => rw [State.width_thumb h, State.align_thumb _ h]; rfl

@[simp] theorem State.align_pc_advance : s.advance.align s.advance.pc = s.advance.pc := by
  simp only [State.align_advance, State.pc_advance]
  exact State.align_add _ _ (State.align_align _) State.align_width

/-- A reload and the `advance()` that ends its tick fill both slots (R143). -/
theorem State.branchTo_advance (s : State) (v : Word) :
    (s.branchTo v).advance.pipeCur = s.fetch (s.align v) ∧
      (s.branchTo v).advance.pipeNext = s.fetch (s.align v + s.width) ∧
      (s.branchTo v).advance.pc = s.align v + s.width + s.width := by
  have h : s.align (s.align v + s.width) = s.align v + s.width :=
    State.align_add _ _ (State.align_align _) State.align_width
  simp [h]

end Sys2Proof.Machine
end

