-- ==== Sys2Proof/Laws/Exceptions.lean ====
section
/-! SUPPORT. The pending set, `service()` and exception entry (60_exceptions.md R381 to R386): one lemma for each
way `service()` can end, and every field of the state an entry leaves. -/

namespace Sys2Proof.Machine

variable {s : State}

/-! ## The pending set -/

theorem Pending.get_set (p : Pending) (k j : ExcKind) (b : Bool) :
    (p.set k b).get j = if j = k then b else p.get j := by
  cases k <;> cases j <;> rfl

theorem Pending.ext_get {p q : Pending} (h : ∀ k, p.get k = q.get k) : p = q := by
  obtain ⟨a, b, c, d, e, f, g⟩ := p
  obtain ⟨a', b', c', d', e', f', g'⟩ := q
  have h1 := h .reset
  have h2 := h .dataAbort
  have h3 := h .fastInterrupt
  have h4 := h .interrupt
  have h5 := h .prefetchAbort
  have h6 := h .softwareInterrupt
  have h7 := h .undefinedInstr
  simp only [Pending.get] at h1 h2 h3 h4 h5 h6 h7
  subst_vars
  rfl

@[simp] theorem Pending.get_none (k : ExcKind) : Pending.none.get k = false := by cases k <;> rfl

/-- The set with the flags of some kinds cleared. -/
def Pending.clear (p : Pending) : List ExcKind → Pending
  | [] => p
  | k :: ks => (p.set k false).clear ks

theorem Pending.get_clear (p : Pending) (ks : List ExcKind) (j : ExcKind) :
    (p.clear ks).get j = (p.get j && decide (j ∉ ks)) := by
  induction ks generalizing p with
  | nil => simp [Pending.clear]
  | cons k ks ih =>
    rw [Pending.clear, ih, Pending.get_set]
    by_cases h : j = k <;> simp [h]

theorem Pending.set_get_false {p : Pending} {k : ExcKind} (h : p.get k = false) : p.set k false = p :=
  Pending.ext_get fun j => by
    rw [Pending.get_set]
    split
    · next hj => subst hj; exact h.symm
    · rfl

theorem mem_byPriority (k : ExcKind) : k ∈ ExcKind.byPriority := by cases k <;> decide

/-! ## `service()` -/

/-- Every pending kind is masked: all are dropped. -/
theorem State.serviceFrom_false {ks : List ExcKind}
    (h : ∀ k ∈ ks, s.pending.get k = true → s.cpsr.masks k = true) :
    s.serviceFrom ks = (false, { s with pending := s.pending.clear ks }) := by
  induction ks generalizing s with
  | nil => rfl
  | cons k ks ih =>
    simp only [State.serviceFrom, Pending.clear]
    split
    · next hk =>
      rw [State.setPending_cpsr, if_pos (h k (by simp) hk)]
      refine ih fun j hj hp => h j (by simp [hj]) ?_
      rw [State.setPending_pending, Pending.get_set] at hp
      split at hp
      · exact absurd hp (by decide)
      · exact hp
    · next hk =>
      rw [Pending.set_get_false (by simpa using hk)]
      exact ih fun j hj => h j (by simp [hj])

/-- The first pending kind that is not masked is entered; the flags up to it are cleared. -/
theorem State.serviceFrom_true {pre post : List ExcKind} {k : ExcKind}
    (h : ∀ j ∈ pre, s.pending.get j = true → s.cpsr.masks j = true) (hn : k ∉ pre)
    (hk : s.pending.get k = true) (hm : s.cpsr.masks k = false) :
    s.serviceFrom (pre ++ k :: post) =
      (true, ({ s with pending := s.pending.clear (pre ++ [k]) } : State).enter k) := by
  induction pre generalizing s with
  | nil =>
    simp only [List.nil_append, State.serviceFrom, hk, if_true, State.setPending_cpsr, hm, Bool.false_eq_true,
      if_false]
    rfl
  | cons j pre ih =>
    have hjk : k ≠ j := fun e => hn (by simp [e])
    have hn' : k ∉ pre := fun e => hn (by simp [e])
    simp only [List.cons_append, State.serviceFrom, Pending.clear]
    split
    · next hj =>
      rw [State.setPending_cpsr, if_pos (h j (by simp) hj)]
      refine ih (fun i hi hp => h i (by simp [hi]) ?_) hn' ?_ hm
      · rw [State.setPending_pending, Pending.get_set] at hp
        split at hp
        · exact absurd hp (by decide)
        · exact hp
      · rw [State.setPending_pending, Pending.get_set, if_neg hjk]; exact hk
    · next hj =>
      rw [Pending.set_get_false (by simpa using hj)]
      exact ih (fun i hi => h i (by simp [hi])) hn' hk hm

/-- `service()` changes only the pending set, and perhaps enters one exception. -/
theorem State.serviceFrom_cases (s : State) (ks : List ExcKind) : ∃ p : Pending,
    s.serviceFrom ks = (false, { s with pending := p }) ∨
      ∃ k, s.serviceFrom ks = (true, ({ s with pending := p } : State).enter k) := by
  induction ks generalizing s with
  | nil => exact ⟨s.pending, .inl rfl⟩
  | cons k ks ih =>
    simp only [State.serviceFrom]
    split
    · split
      · exact ih (s.setPending k false)
      · exact ⟨s.pending.set k false, .inr ⟨k, rfl⟩⟩
    · exact ih s

/-! ## The tick -/

theorem step_stopped (h : s.running = false) : step s = .next s := by simp [step, h]

/-- Everything a tick that answers a next state can be. -/
theorem step_cases {t : State} (h : step s = .next t) :
    (s.running = false ∧ t = s) ∨
      (s.running = true ∧ ∃ (p : Pending) (u : State),
        exec s.currentInstr { s with pending := p } = .next u ∧ t = u.advance) ∨
      (s.running = true ∧ ∃ (p : Pending) (k : ExcKind), t = (({ s with pending := p } : State).enter k).advance) := by
  by_cases hr : s.running = true
  · rw [step, if_pos hr, State.service] at h
    obtain ⟨p, hp | ⟨k, hp⟩⟩ := s.serviceFrom_cases ExcKind.byPriority
    · rw [hp] at h
      dsimp only at h
      split at h
      · next u hu => cases h; exact .inr (.inl ⟨hr, p, u, hu, rfl⟩)
      · cases h
      · cases h
    · rw [hp] at h
      cases h
      exact .inr (.inr ⟨hr, p, k, rfl⟩)
  · have hr : s.running = false := by simpa using hr
    rw [step_stopped hr] at h
    cases h
    exact .inl ⟨hr, rfl⟩

/-! ## Entry -/

theorem SpsrBank.get_set (b : SpsrBank) (m m' : ExcMode) (p : Psr) :
    (b.set m p).get m' = if m' = m then p else b.get m' := by
  cases m <;> cases m' <;> rfl

theorem phys_entry (k : ExcKind) : phys k.entryMode.mode 14 ≠ .pc := mt (phys_eq_pc _ _).mp (by decide)

theorem align_vector (k : ExcKind) (s : State) (h : s.cpsr.t = false) : s.align k.vector = k.vector := by
  rw [State.align_arm _ h]; cases k <;> rfl

@[simp] theorem State.enter_mem (s : State) (k : ExcKind) : (s.enter k).mem = s.mem := rfl
@[simp] theorem State.enter_running (s : State) (k : ExcKind) : (s.enter k).running = s.running := rfl
@[simp] theorem State.enter_pending (s : State) (k : ExcKind) : (s.enter k).pending = s.pending := rfl
@[simp] theorem State.enter_cpsr (s : State) (k : ExcKind) : (s.enter k).cpsr = s.cpsr.entered k := rfl
@[simp] theorem State.enter_spsr (s : State) (k : ExcKind) :
    (s.enter k).spsr = s.spsr.set k.entryMode s.cpsr.toPsr := rfl

theorem State.enter_pc (s : State) (k : ExcKind) : (s.enter k).pc = k.vector + 4 := by
  have h : (s.enter k).pc = (s.enter k).align k.vector + (s.enter k).width := rfl
  rw [h, align_vector k _ rfl, State.width_arm rfl]
  rfl

theorem State.enter_pipeNext (s : State) (k : ExcKind) : (s.enter k).pipeNext = s.readWord k.vector := by
  have h : (s.enter k).pipeNext = (s.enter k).fetch ((s.enter k).align k.vector) := rfl
  rw [h, align_vector k _ rfl, State.fetch_arm _ rfl]
  rfl

theorem State.enter_read (s : State) (k : ExcKind) {p : Phys} (h : p ≠ .pc) :
    (s.enter k).regs.read p = if p = phys k.entryMode.mode 14 then s.pc - 4 else s.regs.read p := by
  unfold State.enter
  rw [State.read_branchTo _ _ h, State.setPhys_regs, RegFile.read_write]

theorem State.enter_link (s : State) (k : ExcKind) : (s.enter k).readReg 14 = s.pc - 4 :=
  (s.enter_read k (phys_entry k)).trans (if_pos rfl)

/-- The end of an entry tick: the slots hold the two words at the vector (R398). -/
theorem State.enter_advance (s : State) (k : ExcKind) :
    (s.enter k).advance.pc = k.vector + 8 ∧ (s.enter k).advance.pipeCur = s.readWord k.vector ∧
      (s.enter k).advance.pipeNext = s.readWord (k.vector + 4) := by
  have ha : (s.enter k).align (k.vector + 4) = k.vector + 4 := by
    rw [State.align_arm _ rfl]; cases k <;> rfl
  refine ⟨?_, ?_, ?_⟩
  · rw [State.pc_advance, State.enter_pc, ha, State.width_arm rfl, BitVec.add_assoc]; rfl
  · exact s.enter_pipeNext k
  · have h : (s.enter k).advance.pipeNext = (s.enter k).fetch ((s.enter k).align (s.enter k).pc) := rfl
    rw [h, State.enter_pc, ha, State.fetch_arm _ rfl]
    rfl

end Sys2Proof.Machine
end

