-- ==== Sys2Proof/Laws/Outcomes.lean ====
section
/-! SUPPORT. From an instruction's answer to the shape of its outcome: one lemma per shared form, and the
equations that turn the spec's arithmetic into the model's. -/

namespace Sys2Proof.Machine

variable {s : State}

/-! ## Conditions -/

theorem whenCond_pass {c : Cond} (k : State → Result) (h : condPassed c s.cpsr.flags = true) :
    s.whenCond c k = k s := if_pos h

theorem whenCond_fail {c : Cond} (k : State → Result) (h : condPassed c s.cpsr.flags = false) :
    s.whenCond c k = .next s := if_neg (by simp [h])

/-! ## Register results -/

theorem computes_writeReg {i : Instr} {v : Word} {rd : Reg} {sf : Bool} {g : Flags}
    (h : exec i s = .next ((if sf then s.setFlags g else s).writeReg rd v)) :
    Computes i s (if sf then g else s.cpsr.flags) (s.seen [(rd, v)]) :=
  ⟨_, h, ((Effect.refl s).setFlagsIf sf g).writeReg rd v, .of_mem (by cases sf <;> simp)⟩

theorem computes_move {i : Instr} {v : Word} {rd : Reg} (h : exec i s = .next (s.writeReg rd v)) :
    Computes i s s.cpsr.flags (s.seen [(rd, v)]) :=
  ⟨_, h, (Effect.refl s).writeReg rd v, .of_mem (by simp)⟩

theorem computes_alu {i : Instr} {v : Word} {rd : Reg} {g : Flags}
    (h : exec i s = .next ((s.setFlags g).writeReg rd v)) : Computes i s g (s.seen [(rd, v)]) :=
  ⟨_, h, ((Effect.refl s).setFlags g).writeReg rd v, .of_mem (by simp)⟩

theorem computes_flags {i : Instr} {g : Flags} (h : exec i s = .next (s.setFlags g)) : Computes i s g [] :=
  ⟨_, h, (Effect.refl s).setFlags g, .of_mem (by simp)⟩

theorem computes_branch {i : Instr} {v : Word} (h : exec i s = .next (s.branchTo v)) :
    Computes i s s.cpsr.flags (s.seen [(15, v)]) :=
  ⟨_, h, (Effect.refl s).branchTo v, .of_mem rfl⟩

/-! ## Flags -/

theorem setNZ_eq (f : Flags) (r : Word) : f.setNZ r = { f with n := r.getLsbD 31, z := r == 0#32 } := by
  simp [Flags.setNZ, BitVec.msb_eq_getLsbD_last]

theorem logical_eq (f : Flags) (c : Bool) (r : Word) :
    logical f c r = ⟨r, ⟨r.getLsbD 31, r == 0#32, c, f.v⟩⟩ := by
  simp [logical, setNZ_eq]

theorem boolWord_not (b : Bool) : boolWord (!b) = 1#32 - boolWord b := by cases b <;> rfl

/-! ## Scaled offsets: a shift is a multiplication (30_encoding.md R99, R112) -/

theorem ofInt_two_pow (k : Nat) : BitVec.ofInt 32 (2 ^ k) = BitVec.twoPow 32 k := by
  have : (2 ^ k : Int) = ((2 ^ k : Nat) : Int) := by push_cast; rfl
  rw [this, BitVec.ofInt_natCast]
  apply BitVec.eq_of_toNat_eq
  simp [BitVec.toNat_twoPow]

theorem ofInt_mul_toInt {n : Nat} (v : BitVec n) (k : Nat) :
    BitVec.ofInt 32 (2 ^ k * v.toInt) = v.signExtend 32 <<< k := by
  rw [BitVec.ofInt_mul, BitVec.shiftLeft_eq_mul_twoPow, BitVec.mul_comm, ofInt_two_pow]
  rfl

theorem ofNat_mul_toNat {n : Nat} (v : BitVec n) (k : Nat) :
    BitVec.ofNat 32 (2 ^ k * v.toNat) = v.zeroExtend 32 <<< k := by
  rw [BitVec.ofNat_mul, BitVec.shiftLeft_eq_mul_twoPow, BitVec.mul_comm]
  congr 1
  · simp [BitVec.ofNat_toNat]
  · apply BitVec.eq_of_toNat_eq
    simp [BitVec.toNat_twoPow]

/-! ## Data processing -/

theorem dataProcessing_eq (op : DpOp) (c : Cond) (sf : Bool) (rn rd : Reg) (o : Operand2)
    (hc : condPassed c s.cpsr.flags = true) (h : sf = true → rd ≠ 15) :
    dataProcessing op c sf rn rd o s =
      let r := op.eval s.cpsr.flags (s.operand2 o).2 (s.readReg rn) (s.operand2 o).1
      .next ((if sf then s.setFlags r.flags else s).writeReg rd r.value) := by
  rw [dataProcessing, whenCond_pass _ hc]
  have : (sf && rd == 15) = false := by cases sf <;> simp_all
  simp [this]

theorem dataProcessing_return (op : DpOp) (c : Cond) (rn : Reg) (o : Operand2)
    (hc : condPassed c s.cpsr.flags = true) :
    dataProcessing op c true rn 15 o s =
      s.exceptionReturn (op.eval s.cpsr.flags (s.operand2 o).2 (s.readReg rn) (s.operand2 o).1).value := by
  rw [dataProcessing, whenCond_pass _ hc]
  rfl

/-! ## Loads, stores and returns -/

theorem computes_load {i : Instr} {read : State → Word → Word} {off : State → Word} {c : Cond} {m : IndexMode}
    {rn rd : Reg} (h : exec i s = loadTransfer read off c m rn rd s) (hc : condPassed c s.cpsr.flags = true) :
    Computes i s s.cpsr.flags
      (s.seen ((if m.p = false ∨ m.w = true then [(rn, m.index (s.readReg rn) (off s))] else []) ++
        [(rd, read s (m.address (s.readReg rn) (off s)))])) := by
  rw [State.seen_append]
  rw [loadTransfer, whenCond_pass _ hc] at h
  exact ⟨_, h, ((Effect.refl s).writeBack m rn _).writeReg rd _, .of_mem (by simp)⟩

/-- An exception return after register writes that leave memory alone; a write of R15 among `ws` is the
return's own. -/
theorem returns_of {i : Instr} {t : State} {fl : Flags} {us ws : List (Phys × Word)} {v : Word}
    (h : exec i s = t.exceptionReturn v) (he : Effect s t fl us) (hm : t.mem = s.mem)
    (hws : ∀ p, p ≠ .pc → lastWrite p us = lastWrite p ws) : Returns i s ws v := by
  unfold Returns
  rw [h]
  simp only [State.exceptionReturn, State.restoreStatus, he.mode, he.spsr, Psr.toCpsr?]
  cases hm' : s.cpsr.mode.excMode? with
  | none => rfl
  | some m =>
    cases hb : Mode.ofBits? (s.spsr.get m).m with
    | none => simp [hb]
    | some mode =>
      simp only [hb, Option.map_some]
      refine ⟨_, rfl, rfl, ⟨rfl, rfl⟩, fun p hp => ?_, rfl, he.pending, he.running, .of_mem hm⟩
      exact (t.regs.read_pc _ p hp).trans (by rw [he.regs.1 p hp, hws p hp])

/-- A store of bytes followed by register writes. -/
theorem stores_of {i : Instr} {t : State} {ws : List (Phys × Word)} {a : Word} {bs : List Byte}
    (hw : s.mem.wf = true) (hl : bs.length ≤ 2 ^ 32) (h : exec i s = .next t)
    (he : Effect s t s.cpsr.flags ws) (hm : t.mem = (s.storeBytes a bs).mem) : Stores i s ws a bs :=
  ⟨t, h, he, (State.storeBytes_stored s a bs hw hl).congr hm⟩

theorem stores_transfer {i : Instr} {write : State → Word → Word → State} {off : State → Word} {c : Cond}
    {m : IndexMode} {rn rd : Reg} {bs : Word → List Byte} (h : exec i s = storeTransfer write off c m rn rd s)
    (hw : s.mem.wf = true) (hc : condPassed c s.cpsr.flags = true)
    (hb : ∀ s a v, write s a v = s.storeBytes a (bs v)) (hl : ∀ v, (bs v).length ≤ 4) :
    Stores i s (s.seen (if m.p = false ∨ m.w = true then [(rn, m.index (s.readReg rn) (off s))] else []))
      (m.address (s.readReg rn) (off s)) (bs (s.readReg rd)) := by
  rw [storeTransfer, whenCond_pass _ hc] at h
  refine stores_of hw (le_trans (hl _) (by decide)) h ?_ (by rw [State.writeBack_mem, hb])
  rw [hb]
  exact (Effect.storeBytes s _ (bs (s.readReg rd))).writeBack m rn _

/-! ## Words of a block -/

/-- A register list, split at register 15. -/
theorem regsOfList_split (list : BitVec 16) : regsOfList list =
    (regsOfList list).filter (· ≠ 15) ++ (if list.getLsbD 15 then [15] else []) := by
  have : allRegs = allRegs.filter (· ≠ 15) ++ [15] := by decide
  unfold regsOfList
  rw [List.filter_filter]
  conv_lhs => rw [this]
  rw [List.filter_append, List.filter_filter]
  congr 1
  · exact List.filter_congr fun r _ => by simp [Bool.and_comm]
  · cases h : list.getLsbD 15 <;> simp [h, -BitVec.getLsbD_eq_getElem]

theorem regsOfList_length (list : BitVec 16) : (regsOfList list).length ≤ 16 := List.length_filter_le _ _

theorem State.loadWords_eq (s : State) (a : Word) (n : Nat) :
    s.loadWords a n = (List.range n).map fun k => s.readWord (a + BitVec.ofNat 32 (4 * k)) := by
  induction n generalizing a with
  | zero => rfl
  | succ n ih =>
    rw [State.loadWords, ih, List.range_succ_eq_map]
    simp only [List.map_cons, List.map_map, Nat.mul_zero, BitVec.ofNat_eq_ofNat, BitVec.add_zero]
    congr 1
    refine List.map_congr_left fun k _ => ?_
    simp only [Function.comp_apply]
    rw [Nat.mul_succ, Nat.add_comm, BitVec.ofNat_add, BitVec.add_assoc]

theorem State.zip_loadWords (s : State) (a : Word) (rs : List Reg) :
    rs.zip (s.loadWords a rs.length) =
      rs.zipIdx.map fun r => (r.1, s.readWord (a + BitVec.ofNat 32 (4 * r.2))) := by
  rw [State.loadWords_eq, List.zipIdx_eq_zip_range', ← List.range_eq_range', List.zip_map_right]
  rfl

end Sys2Proof.Machine
end

