-- ==== Sys2Proof/Laws/Status.lean ====
section
/-! SUPPORT. Status words bit by bit, and what a masked write of one leaves (10_state.md R30, 41 R203). -/

namespace Sys2Proof.Machine

/-- The bits of a status word. -/
theorem Psr.word_getLsbD (p : Psr) (i : Nat) : p.word.getLsbD i =
    if i < 5 then p.m.getLsbD i else if i = 5 then p.t else if i = 6 then p.f else if i = 7 then p.i
    else if i < 28 then false else if i = 28 then p.flags.v else if i = 29 then p.flags.c
    else if i = 30 then p.flags.z else if i = 31 then p.flags.n else false := by
  have hb : ∀ (b : Bool) (j : Nat), (BitVec.ofBool b).getLsbD j = (decide (j = 0) && b) := by
    intro b j
    cases b <;> simp [BitVec.ofBool, BitVec.getLsbD_one]
  by_cases h5 : i < 5
  · simp only [Psr.word, BitVec.getLsbD_append, if_pos h5]
  by_cases h32 : 32 ≤ i
  · rw [BitVec.getLsbD_of_ge _ _ h32]; grind
  simp only [Psr.word, BitVec.getLsbD_append, hb, BitVec.getLsbD_zero]
  interval_cases i <;> simp

/-- The bits an MSR field mask selects. -/
theorem FieldMask.word_getLsbD (k : FieldMask) (i : Nat) : k.word.getLsbD i =
    ((k.f && decide (28 ≤ i ∧ i < 32)) || (k.c && decide (i < 8))) := by
  have h : ∀ f c : Bool, ∀ i : Fin 32,
      ((if f then 0xF0000000#32 else 0#32) ||| (if c then 0x000000FF#32 else 0#32) : Word).getLsbD i =
        ((f && decide (28 ≤ i.val ∧ i.val < 32)) || (c && decide (i.val < 8))) := by decide
  by_cases h32 : i < 32
  · exact h k.f k.c ⟨i, h32⟩
  · rw [BitVec.getLsbD_of_ge _ _ (by omega)]; grind

/-- What a masked write of `v` over the status `p` leaves: the flags if `f`, the control byte if `c`. -/
theorem Psr.ofWord_masked (p : Psr) (v mask : Word) (f c : Bool)
    (hm : ∀ i, mask.getLsbD i = ((f && decide (28 ≤ i ∧ i < 32)) || (c && decide (i < 8)))) :
    Psr.ofWord ((p.word &&& ~~~mask) ||| (v &&& mask)) =
      ⟨if f then ⟨v.getLsbD 31, v.getLsbD 30, v.getLsbD 29, v.getLsbD 28⟩ else p.flags,
        if c then v.getLsbD 7 else p.i, if c then v.getLsbD 6 else p.f, if c then v.getLsbD 5 else p.t,
        if c then v.extractLsb' 0 5 else p.m⟩ := by
  have hb : ∀ i, i < 32 → ((p.word &&& ~~~mask) ||| (v &&& mask)).getLsbD i =
      if mask.getLsbD i then v.getLsbD i else p.word.getLsbD i := by
    intro i hi
    simp only [BitVec.getLsbD_or, BitVec.getLsbD_and, BitVec.getLsbD_not, hi]
    cases mask.getLsbD i <;> simp
  have hx : (((p.word &&& ~~~mask) ||| (v &&& mask)).extractLsb' 0 5) =
      if c then v.extractLsb' 0 5 else p.m := by
    ext i hi
    rw [BitVec.getElem_extractLsb', Nat.zero_add, hb i (by omega), hm, Psr.word_getLsbD, if_pos hi]
    have : ¬ 28 ≤ i := by omega
    have h8 : i < 8 := by omega
    cases c <;> simp [this, h8, BitVec.getLsbD_eq_getElem hi]
  simp only [Psr.ofWord, field, hx, hb _ (by decide : 31 < 32), hb _ (by decide : 30 < 32),
    hb _ (by decide : 29 < 32), hb _ (by decide : 28 < 32), hb _ (by decide : 7 < 32),
    hb _ (by decide : 6 < 32), hb _ (by decide : 5 < 32), hm, Psr.word_getLsbD]
  cases f <;> cases c <;> rfl

theorem Mode.ofBits?_bits (m : Mode) : Mode.ofBits? m.bits = some m := by cases m <;> rfl

theorem Mode.bits_of_ofBits? {b : BitVec 5} {m : Mode} (h : Mode.ofBits? b = some m) : m.bits = b := by
  revert h; revert m; revert b; decide

/-- The mask that MSR to the CPSR applies: in User mode the control byte is protected. -/
theorem cpsrMask_getLsbD (k : FieldMask) (m : Mode) (i : Nat) :
    (if m = .user then k.word &&& 0xF0000000#32 else k.word).getLsbD i =
      ((k.f && decide (28 ≤ i ∧ i < 32)) || ((k.c && decide (m ≠ .user)) && decide (i < 8))) := by
  split
  · next h =>
    have hf := FieldMask.word_getLsbD ⟨true, false, false, false⟩ i
    rw [BitVec.getLsbD_and, FieldMask.word_getLsbD, show (0xF0000000#32).getLsbD i = _ from hf]
    simp only [h]
    grind
  · next h => rw [FieldMask.word_getLsbD]; simp [h]

/-- MSR to the CPSR, when it completes: T stays; in User mode the mode and the masks stay. -/
theorem writeCpsr_next {s t : State} {k : FieldMask} {v : Word} (h : writeCpsr k v s = .next t) :
    ∃ new : Cpsr, t = { s with cpsr := new } ∧ new.t = s.cpsr.t ∧
      (s.cpsr.mode = .user → new.mode = .user ∧ new.i = s.cpsr.i ∧ new.f = s.cpsr.f) := by
  simp only [writeCpsr, Cpsr.word, Psr.ofWord_masked _ _ _ _ _ (cpsrMask_getLsbD k s.cpsr.mode),
    cpsrMask_getLsbD] at h
  split at h
  · cases h
  · next ht =>
    split at h
    · cases h
    · next new hn =>
      cases h
      simp only [Psr.toCpsr?, Option.map_eq_some_iff] at hn
      obtain ⟨mode, hm, rfl⟩ := hn
      refine ⟨_, rfl, ?_, fun hu => ?_⟩
      · cases hc : k.c && decide (s.cpsr.mode ≠ .user)
        · rfl
        · rw [hc] at ht
          simpa [-BitVec.getLsbD_eq_getElem] using ht
      · simp only [hu, ne_eq, not_true_eq_false, decide_false, Bool.and_false, Bool.false_eq_true, if_false,
          Cpsr.toPsr] at hm ⊢
        rw [Mode.ofBits?_bits] at hm
        exact ⟨(Option.some.inj hm).symm, by simp⟩

end Sys2Proof.Machine
end

