-- ==== Sys2Proof/Laws/Frames.lean ====
section
/-! SUPPORT. Everything an instruction can do, said once: `exec_does`. Claims over all instructions cite it and do
not unfold `exec`. -/

namespace Sys2Proof.Machine

variable {s t : State} {i : Instr}

/-! ## Ordinary effects -/

/-- `t` differs from `s` by flags and by writes of registers that the mode of `s` or User mode sees, and perhaps
in memory. -/
def Plain (s t : State) : Prop :=
  ∃ fl ws, Effect s t fl ws ∧ ∀ w ∈ ws, ∃ r, w.1 = phys s.cpsr.mode r ∨ w.1 = phys .user r

theorem Plain.refl (s : State) : Plain s s := ⟨_, _, Effect.refl s, by simp⟩

theorem Plain.setFlags (h : Plain s t) (f : Flags) : Plain s (t.setFlags f) :=
  let ⟨_, _, he, hw⟩ := h
  ⟨_, _, he.setFlags f, hw⟩

theorem Plain.setFlagsIf (h : Plain s t) (b : Bool) (f : Flags) : Plain s (if b then t.setFlags f else t) := by
  cases b
  · exact h
  · exact h.setFlags f

theorem Plain.branchTo (h : Plain s t) (v : Word) : Plain s (t.branchTo v) :=
  let ⟨_, _, he, hw⟩ := h
  ⟨_, _, he.branchTo v, fun w hm => (List.mem_append.mp hm).elim (hw w) fun hm =>
    ⟨15, .inl (by rw [List.mem_singleton.mp hm]; rfl)⟩⟩

theorem Plain.writeReg (h : Plain s t) (r : Reg) (v : Word) : Plain s (t.writeReg r v) :=
  let ⟨_, _, he, hw⟩ := h
  ⟨_, _, he.writeReg r v, fun w hm => (List.mem_append.mp hm).elim (hw w) fun hm =>
    ⟨r, .inl (by rw [List.mem_singleton.mp hm])⟩⟩

theorem Plain.writeUserReg (h : Plain s t) (r : Reg) (v : Word) : Plain s (t.writeUserReg r v) :=
  let ⟨_, _, he, hw⟩ := h
  ⟨_, _, he.writeUserReg r v, fun w hm => (List.mem_append.mp hm).elim (hw w) fun hm =>
    ⟨r, .inr (by rw [List.mem_singleton.mp hm])⟩⟩

theorem Plain.writeRegs (h : Plain s t) (us : List (Reg × Word)) : Plain s (t.writeRegs us) := by
  induction us generalizing t with
  | nil => exact h
  | cons u us ih => exact ih (h.writeReg u.1 u.2)

theorem Plain.writeUserRegs (h : Plain s t) (us : List (Reg × Word)) : Plain s (t.writeUserRegs us) := by
  induction us generalizing t with
  | nil => exact h
  | cons u us ih => exact ih (h.writeUserReg u.1 u.2)

theorem Plain.writeBack (h : Plain s t) (m : IndexMode) (r : Reg) (v : Word) : Plain s (t.writeBack m r v) := by
  unfold State.writeBack
  split
  · exact h.writeReg r v
  · exact h

theorem Plain.writeRegIf (h : Plain s t) (b : Bool) (r : Reg) (v : Word) :
    Plain s (if b then t.writeReg r v else t) := by
  cases b
  · exact h
  · exact h.writeReg r v

theorem Plain.storeBytes (s : State) (a : Word) (bs : List Byte) : Plain s (s.storeBytes a bs) :=
  ⟨_, _, Effect.storeBytes s a bs, by simp⟩

/-! ## The ways an instruction can end in a next state -/

/-- What `i` can do in `s`. -/
inductive Does (i : Instr) (s : State) : State → Prop where
  /-- Flags and registers. -/
  | plain (t : State) (h : Plain s t) (hm : t.mem = s.mem) : Does i s t
  /-- The same with a store. -/
  | store (t : State) (hi : isStore i = true) (h : Plain s t) (hm : s.mem.wf = true → t.mem.wf = true) : Does i s t
  /-- BX of either set. -/
  | exchange (hi : (∃ c rm, i = .bx c rm) ∨ ∃ rs low, i = .tBx rs low) (v : Word) : Does i s (s.branchExchange v)
  /-- A return from an exception. -/
  | back {u : State} (hi : isReturn i = true) (h : Plain s u) (hm : u.mem = s.mem) (m : ExcMode)
    (he : s.cpsr.mode.excMode? = some m) (c : Cpsr) (hc : (s.spsr.get m).toCpsr? = some c) (v : Word) :
    Does i s (({ u with cpsr := c } : State).branchTo v)
  /-- MSR to the CPSR: T stays, and in User mode the mode and the masks stay. -/
  | control (hi : ∃ c k o, i = .msr c false k o) (new : Cpsr) (ht : new.t = s.cpsr.t)
    (hu : s.cpsr.mode = .user → new.mode = .user ∧ new.i = s.cpsr.i ∧ new.f = s.cpsr.f) :
    Does i s { s with cpsr := new }
  /-- MSR to the SPSR of the current mode. -/
  | saved (hi : ∃ c k o, i = .msr c true k o) (m : ExcMode) (he : s.cpsr.mode.excMode? = some m) (p : Psr) :
    Does i s { s with spsr := s.spsr.set m p }
  /-- A software interrupt or an unallocated encoding. -/
  | trap (k : ExcKind)
    (hi : (k = .softwareInterrupt ∧ ((∃ c n, i = .swi c n) ∨ ∃ n, i = .tSwi n)) ∨
      (k = .undefinedInstr ∧ ((∃ c b, i = .undefinedArm c b) ∨ ∃ b, i = .tUndefined b))) :
    Does i s (s.raiseException k)

/-! ## The shared operations -/

theorem does_whenCond {c : Cond} {k : State → Result} (h : s.whenCond c k = .next t)
    (hk : k s = .next t → Does i s t) : Does i s t := by
  unfold State.whenCond at h
  split at h
  · exact hk h
  · cases h; exact .plain s (.refl s) rfl

theorem does_return {u : State} {v : Word} (hi : isReturn i = true) (hu : Plain s u) (hm : u.mem = s.mem)
    (h : u.exceptionReturn v = .next t) : Does i s t := by
  obtain ⟨_, _, he, _⟩ := id hu
  simp only [State.exceptionReturn, State.restoreStatus, he.mode, he.spsr] at h
  split at h
  · cases h
  · next m hm' =>
    split at h
    · cases h
    · next c hc =>
      cases h
      have hd := Does.back hi hu hm m hm' c hc v
      rwa [he.spsr] at hd

theorem does_dataProcessing {op : DpOp} {c : Cond} {sf : Bool} {rn rd : Reg} {o : Operand2}
    (hi : isReturn i = (sf && rd == 15)) (h : dataProcessing op c sf rn rd o s = .next t) : Does i s t :=
  does_whenCond h fun h => by
    dsimp only at h
    split at h
    · next hr => exact does_return (hi.trans hr) (.refl s) rfl h
    · cases h
      exact .plain _ (((Plain.refl s).setFlagsIf sf _).writeReg rd _) (by cases sf <;> simp)

theorem does_dataCompare {op : DpOp} {c : Cond} {rn : Reg} {o : Operand2}
    (h : dataCompare op c rn o s = .next t) : Does i s t :=
  does_whenCond h fun h => by cases h; exact .plain _ ((Plain.refl s).setFlags _) rfl

theorem does_writeLong {sf : Bool} {hi lo : Reg} {p : BitVec 64} (h : writeLong sf hi lo p s = .next t) :
    Does i s t := by
  cases h
  exact .plain _ ((((Plain.refl s).setFlagsIf sf _).writeReg lo _).writeReg hi _) (by cases sf <;> simp)

theorem does_load {read : State → Word → Word} {off : State → Word} {c : Cond} {m : IndexMode} {rn rd : Reg}
    (h : loadTransfer read off c m rn rd s = .next t) : Does i s t :=
  does_whenCond h fun h => by
    cases h; exact .plain _ (((Plain.refl s).writeBack m rn _).writeReg rd _) (by simp)

theorem does_bytes {a : Word} {bs : List Byte} (hi : isStore i = true) (h : Plain s t)
    (hm : t.mem = (s.storeBytes a bs).mem) : Does i s t :=
  .store t hi h fun hw => by rw [hm]; exact State.storeBytes_wf a bs hw

theorem does_store {write : State → Word → Word → State} {off : State → Word} {c : Cond} {m : IndexMode}
    {rn rd : Reg} (bs : Word → List Byte) (hb : ∀ s a v, write s a v = s.storeBytes a (bs v))
    (hi : isStore i = true) (h : storeTransfer write off c m rn rd s = .next t) : Does i s t :=
  does_whenCond h fun h => by
    cases h
    rw [hb]
    exact does_bytes hi ((Plain.storeBytes s _ _).writeBack m rn _) (State.writeBack_mem ..)

theorem does_thumbStore {write : State → Word → Word → State} {rd : LoReg} {a : Word} (bs : Word → List Byte)
    (hb : ∀ s a v, write s a v = s.storeBytes a (bs v)) (hi : isStore i = true)
    (h : thumbStore write rd a s = .next t) : Does i s t := by
  cases h
  rw [hb]
  exact does_bytes hi (Plain.storeBytes s _ _) rfl

theorem does_write {r : Reg} {v : Word} (h : Host.Outcome.next (s.writeReg r v) = (.next t : Result)) :
    Does i s t := by
  cases h; exact .plain _ ((Plain.refl s).writeReg r v) (by simp)

theorem does_lo {r : LoReg} {a : AluResult} (h : writeLo r a s = .next t) : Does i s t := by
  cases h; exact .plain _ (((Plain.refl s).setFlags _).writeReg _ _) (by simp)

theorem does_flags {a : AluResult} (h : flagsOnly a s = .next t) : Does i s t := by
  cases h; exact .plain _ ((Plain.refl s).setFlags _) rfl

theorem does_branch {v : Word} (h : Host.Outcome.next (s.branchTo v) = (.next t : Result)) : Does i s t := by
  cases h; exact .plain _ ((Plain.refl s).branchTo v) rfl

theorem does_condBranch {c : Cond} {o : BitVec 8} (h : thumbCondBranch c o s = .next t) : Does i s t :=
  does_whenCond h does_branch

theorem does_ldm {c : Cond} {m : IndexMode} {sf : Bool} {rn : Reg} {list : BitVec 16}
    (h : execLdm c m sf rn list s = .next t) : Does (.ldm c m sf rn list) s t :=
  does_whenCond h fun h => by
    dsimp only at h
    have hb := (Plain.refl s).writeRegIf (m.blockWritesBack list) rn (m.blockFinal (s.readReg rn) (regsOfList list).length)
    split at h
    · next h15 =>
      split at h
      · next hs =>
        exact does_return (by simp only [isReturn, hs, h15]; rfl) (hb.writeRegs _)
          (by rw [State.writeRegs_mem]; split <;> simp) h
      · cases h
        exact .plain _ ((hb.writeRegs _).branchTo _) (by
          rw [State.branchTo_mem, State.writeRegs_mem]; split <;> simp)
    · split at h
      · cases h
        exact .plain _ (hb.writeUserRegs _) (by rw [State.writeUserRegs_mem]; split <;> simp)
      · cases h
        exact .plain _ (hb.writeRegs _) (by rw [State.writeRegs_mem]; split <;> simp)

theorem does_msr {c : Cond} {r : Bool} {k : FieldMask} {o : MsrOperand} (h : execMsr c r k o s = .next t) :
    Does (.msr c r k o) s t :=
  does_whenCond h fun h => by
    cases r with
    | true =>
      simp only [if_true, writeSpsr] at h
      split at h
      · cases h
      · next m hm => cases h; exact .saved ⟨c, k, o, rfl⟩ m hm _
    | false =>
      simp only [Bool.false_eq_true, if_false] at h
      obtain ⟨new, h1, h2, h3⟩ := writeCpsr_next h
      subst h1
      exact .control ⟨c, k, o, rfl⟩ new h2 h3

/-- Everything an instruction can do when it completes. -/
theorem exec_does (h : exec i s = .next t) : Does i s t := by
  cases i with
  | and => simp only [exec, execAnd] at h; exact does_dataProcessing rfl h
  | eor => simp only [exec, execEor] at h; exact does_dataProcessing rfl h
  | sub => simp only [exec, execSub] at h; exact does_dataProcessing rfl h
  | rsb => simp only [exec, execRsb] at h; exact does_dataProcessing rfl h
  | add => simp only [exec, execAdd] at h; exact does_dataProcessing rfl h
  | adc => simp only [exec, execAdc] at h; exact does_dataProcessing rfl h
  | sbc => simp only [exec, execSbc] at h; exact does_dataProcessing rfl h
  | rsc => simp only [exec, execRsc] at h; exact does_dataProcessing rfl h
  | tst => simp only [exec, execTst] at h; exact does_dataCompare h
  | teq => simp only [exec, execTeq] at h; exact does_dataCompare h
  | cmp => simp only [exec, execCmp] at h; exact does_dataCompare h
  | cmn => simp only [exec, execCmn] at h; exact does_dataCompare h
  | orr => simp only [exec, execOrr] at h; exact does_dataProcessing rfl h
  | mov => simp only [exec, execMov] at h; exact does_dataProcessing rfl h
  | bic => simp only [exec, execBic] at h; exact does_dataProcessing rfl h
  | mvn => simp only [exec, execMvn] at h; exact does_dataProcessing rfl h
  | mrs =>
    simp only [exec, execMrs] at h
    exact does_whenCond h fun h => by
      split at h
      · split at h
        · cases h
        · exact does_write h
      · exact does_write h
  | msr => simp only [exec] at h; exact does_msr h
  | mul =>
    simp only [exec, execMul] at h
    exact does_whenCond h fun h => by
      cases h; exact .plain _ (((Plain.refl s).setFlagsIf _ _).writeReg _ _) (by split <;> simp)
  | mla =>
    simp only [exec, execMla] at h
    exact does_whenCond h fun h => by
      cases h; exact .plain _ (((Plain.refl s).setFlagsIf _ _).writeReg _ _) (by split <;> simp)
  | umull => simp only [exec, execUmull] at h; exact does_whenCond h does_writeLong
  | umlal => simp only [exec, execUmlal] at h; exact does_whenCond h does_writeLong
  | smull => simp only [exec, execSmull] at h; exact does_whenCond h does_writeLong
  | smlal => simp only [exec, execSmlal] at h; exact does_whenCond h does_writeLong
  | swp =>
    simp only [exec, execSwp] at h
    exact does_whenCond h fun h => by
      cases h
      rw [State.writeWord_eq]
      exact does_bytes rfl ((Plain.storeBytes s _ _).writeReg _ _) (State.writeReg_mem ..)
  | swpb =>
    simp only [exec, execSwpb] at h
    exact does_whenCond h fun h => by
      cases h
      exact does_bytes (bs := [_]) rfl ((Plain.storeBytes s _ [_]).writeReg _ _) (State.writeReg_mem ..)
  | bx =>
    simp only [exec, execBx] at h
    exact does_whenCond h fun h => by cases h; exact .exchange (.inl ⟨_, _, rfl⟩) _
  | strh => simp only [exec, execStrh] at h; exact does_store (write := State.storeHalf) _ State.storeHalf_eq rfl h
  | ldrh => simp only [exec, execLdrh] at h; exact does_load h
  | ldrsb => simp only [exec, execLdrsb] at h; exact does_load h
  | ldrsh => simp only [exec, execLdrsh] at h; exact does_load h
  | str => simp only [exec, execStr] at h; exact does_store (write := State.writeWord) wordBytes State.writeWord_eq rfl h
  | ldr => simp only [exec, execLdr] at h; exact does_load h
  | strb => simp only [exec, execStrb] at h; exact does_store (write := State.storeByte) _ State.storeByte_eq rfl h
  | ldrb => simp only [exec, execLdrb] at h; exact does_load h
  | stm =>
    simp only [exec, execStm] at h
    exact does_whenCond h fun h => by
      cases h
      rw [State.storeWords_eq]
      exact does_bytes (bs := _) rfl ((Plain.storeBytes s _ _).writeRegIf _ _ _)
        (by split
            · exact State.writeReg_mem ..
            · rfl)
  | ldm => simp only [exec] at h; exact does_ldm h
  | b => simp only [exec, execB] at h; exact does_whenCond h does_branch
  | bl =>
    simp only [exec, execBl] at h
    exact does_whenCond h fun h => by cases h; exact .plain _ (((Plain.refl s).writeReg 14 _).branchTo _) (by simp)
  | swi =>
    simp only [exec, execSwi] at h
    exact does_whenCond h fun h => by cases h; exact .trap .softwareInterrupt (.inl ⟨rfl, .inl ⟨_, _, rfl⟩⟩)
  | undefinedArm =>
    simp only [exec, execUndefinedArm] at h
    exact does_whenCond h fun h => by cases h; exact .trap .undefinedInstr (.inr ⟨rfl, .inl ⟨_, _, rfl⟩⟩)
  | tLslImm => simp only [exec, execTLslImm] at h; exact does_lo h
  | tLsrImm => simp only [exec, execTLsrImm] at h; exact does_lo h
  | tAsrImm => simp only [exec, execTAsrImm] at h; exact does_lo h
  | tAddReg => simp only [exec, execTAddReg] at h; exact does_lo h
  | tSubReg => simp only [exec, execTSubReg] at h; exact does_lo h
  | tAddImm3 => simp only [exec, execTAddImm3] at h; exact does_lo h
  | tSubImm3 => simp only [exec, execTSubImm3] at h; exact does_lo h
  | tMovImm => simp only [exec, execTMovImm] at h; exact does_lo h
  | tCmpImm => simp only [exec, execTCmpImm] at h; exact does_flags h
  | tAddImm8 => simp only [exec, execTAddImm8] at h; exact does_lo h
  | tSubImm8 => simp only [exec, execTSubImm8] at h; exact does_lo h
  | tAnd => simp only [exec, execTAnd] at h; exact does_lo h
  | tEor => simp only [exec, execTEor] at h; exact does_lo h
  | tLslReg => simp only [exec, execTLslReg] at h; exact does_lo h
  | tLsrReg => simp only [exec, execTLsrReg] at h; exact does_lo h
  | tAsrReg => simp only [exec, execTAsrReg] at h; exact does_lo h
  | tAdc => simp only [exec, execTAdc] at h; exact does_lo h
  | tSbc => simp only [exec, execTSbc] at h; exact does_lo h
  | tRorReg => simp only [exec, execTRorReg] at h; exact does_lo h
  | tTst => simp only [exec, execTTst] at h; exact does_flags h
  | tNeg => simp only [exec, execTNeg] at h; exact does_lo h
  | tCmpReg => simp only [exec, execTCmpReg] at h; exact does_flags h
  | tCmn => simp only [exec, execTCmn] at h; exact does_flags h
  | tOrr => simp only [exec, execTOrr] at h; exact does_lo h
  | tMul => simp only [exec, execTMul] at h; exact does_lo h
  | tBic => simp only [exec, execTBic] at h; exact does_lo h
  | tMvn => simp only [exec, execTMvn] at h; exact does_lo h
  | tAddHi => simp only [exec, execTAddHi] at h; exact does_write h
  | tCmpHi => simp only [exec, execTCmpHi] at h; exact does_flags h
  | tMovHi => simp only [exec, execTMovHi] at h; exact does_write h
  | tBx => simp only [exec, execTBx] at h; cases h; exact .exchange (.inr ⟨_, _, rfl⟩) _
  | tLdrPc => simp only [exec, execTLdrPc] at h; exact does_write h
  | tStrReg => simp only [exec, execTStrReg] at h; exact does_thumbStore (write := State.writeWord) wordBytes State.writeWord_eq rfl h
  | tStrbReg => simp only [exec, execTStrbReg] at h; exact does_thumbStore (write := State.storeByte) _ State.storeByte_eq rfl h
  | tLdrReg => simp only [exec, execTLdrReg] at h; exact does_write h
  | tLdrbReg => simp only [exec, execTLdrbReg] at h; exact does_write h
  | tStrhReg => simp only [exec, execTStrhReg] at h; exact does_thumbStore (write := State.storeHalf) _ State.storeHalf_eq rfl h
  | tLdsbReg => simp only [exec, execTLdsbReg] at h; exact does_write h
  | tLdrhReg => simp only [exec, execTLdrhReg] at h; exact does_write h
  | tLdshReg => simp only [exec, execTLdshReg] at h; exact does_write h
  | tStrImm => simp only [exec, execTStrImm] at h; exact does_thumbStore (write := State.writeWord) wordBytes State.writeWord_eq rfl h
  | tLdrImm => simp only [exec, execTLdrImm] at h; exact does_write h
  | tStrbImm => simp only [exec, execTStrbImm] at h; exact does_thumbStore (write := State.storeByte) _ State.storeByte_eq rfl h
  | tLdrbImm => simp only [exec, execTLdrbImm] at h; exact does_write h
  | tStrhImm => simp only [exec, execTStrhImm] at h; exact does_thumbStore (write := State.storeHalf) _ State.storeHalf_eq rfl h
  | tLdrhImm => simp only [exec, execTLdrhImm] at h; exact does_write h
  | tStrSp => simp only [exec, execTStrSp] at h; exact does_thumbStore (write := State.writeWord) wordBytes State.writeWord_eq rfl h
  | tLdrSp => simp only [exec, execTLdrSp] at h; exact does_write h
  | tAddPcImm => simp only [exec, execTAddPcImm] at h; exact does_write h
  | tAddSpImm => simp only [exec, execTAddSpImm] at h; exact does_write h
  | tAdjustSp => simp only [exec, execTAdjustSp] at h; exact does_write h
  | tPush =>
    simp only [exec, execTPush] at h
    cases h
    rw [State.storeWords_eq]
    exact does_bytes rfl ((Plain.storeBytes s _ _).writeReg _ _) (State.writeReg_mem ..)
  | tPop =>
    simp only [exec, execTPop] at h
    cases h
    refine .plain _ ?_ (by split <;> simp)
    split
    · exact (((Plain.refl s).writeReg 13 _).writeRegs _).branchTo _
    · exact ((Plain.refl s).writeReg 13 _).writeRegs _
  | tStmia =>
    simp only [exec, execTStmia] at h
    cases h
    rw [State.storeWords_eq]
    exact does_bytes rfl ((Plain.storeBytes s _ _).writeReg _ _) (State.writeReg_mem ..)
  | tLdmia => simp only [exec, execTLdmia] at h; cases h; exact .plain _ (((Plain.refl s).writeReg _ _).writeRegs _) (by simp)
  | tBeq => simp only [exec, execTBeq] at h; exact does_condBranch h
  | tBne => simp only [exec, execTBne] at h; exact does_condBranch h
  | tBcs => simp only [exec, execTBcs] at h; exact does_condBranch h
  | tBcc => simp only [exec, execTBcc] at h; exact does_condBranch h
  | tBmi => simp only [exec, execTBmi] at h; exact does_condBranch h
  | tBpl => simp only [exec, execTBpl] at h; exact does_condBranch h
  | tBvs => simp only [exec, execTBvs] at h; exact does_condBranch h
  | tBvc => simp only [exec, execTBvc] at h; exact does_condBranch h
  | tBhi => simp only [exec, execTBhi] at h; exact does_condBranch h
  | tBls => simp only [exec, execTBls] at h; exact does_condBranch h
  | tBge => simp only [exec, execTBge] at h; exact does_condBranch h
  | tBlt => simp only [exec, execTBlt] at h; exact does_condBranch h
  | tBgt => simp only [exec, execTBgt] at h; exact does_condBranch h
  | tBle => simp only [exec, execTBle] at h; exact does_condBranch h
  | tSwi => simp only [exec, execTSwi] at h; cases h; exact .trap .softwareInterrupt (.inl ⟨rfl, .inr ⟨_, rfl⟩⟩)
  | tB => simp only [exec, execTB] at h; exact does_branch h
  | tBlFirst => simp only [exec, execTBlFirst] at h; exact does_write h
  | tBlSecond => simp only [exec, execTBlSecond] at h; cases h; exact .plain _ (((Plain.refl s).writeReg 14 _).branchTo _) (by simp)
  | tUndefined => simp only [exec, execTUndefined] at h; cases h; exact .trap .undefinedInstr (.inr ⟨rfl, .inr ⟨_, rfl⟩⟩)

/-! ## Stores that do not write register 15 -/

/-- `o` is a next state whose flags are those of `s` and whose R15 and pipeline slots are those of `s`. -/
abbrev StaysAt (s : State) (o : Result) : Prop :=
  ∃ u ws, o = .next u ∧ Effect s u s.cpsr.flags ws ∧ lastWrite .pc ws = none

theorem staysAt_bytes (s : State) (a : Word) (bs : List Byte) : StaysAt s (.next (s.storeBytes a bs)) :=
  ⟨_, _, rfl, Effect.storeBytes s a bs, rfl⟩

theorem staysAt_write {r : Reg} (hr : r ≠ 15) (v : Word) (s : State) (a : Word) (bs : List Byte) :
    StaysAt s (.next ((s.storeBytes a bs).writeReg r v)) :=
  ⟨_, _, rfl, (Effect.storeBytes s a bs).writeReg r v, if_neg (mt (phys_eq_pc _ _).mp hr)⟩

theorem staysAt_writeIf {b : Bool} {r : Reg} (hr : (b && r == 15) = false) (v : Word) (s : State) (a : Word)
    (bs : List Byte) : StaysAt s (.next (if b then (s.storeBytes a bs).writeReg r v else s.storeBytes a bs)) := by
  cases b with
  | false => exact staysAt_bytes s a bs
  | true => exact staysAt_write (by simpa using hr) v s a bs

theorem staysAt_whenCond {c : Cond} {k : State → Result} (h : StaysAt s (k s)) : StaysAt s (s.whenCond c k) := by
  unfold State.whenCond
  split
  · exact h
  · exact ⟨s, _, rfl, Effect.refl s, rfl⟩

theorem staysAt_store {write : State → Word → Word → State} {off : State → Word} {c : Cond} {m : IndexMode}
    {rn rd : Reg} (bs : Word → List Byte) (hb : ∀ s a v, write s a v = s.storeBytes a (bs v))
    (h : (m.writesBack && rn == 15) = false) : StaysAt s (storeTransfer write off c m rn rd s) :=
  staysAt_whenCond (by simp only [hb]; exact staysAt_writeIf h _ s _ _)

theorem staysAt_thumbStore {write : State → Word → Word → State} {rd : LoReg} {a : Word} (bs : Word → List Byte)
    (hb : ∀ s a v, write s a v = s.storeBytes a (bs v)) : StaysAt s (thumbStore write rd a s) := by
  rw [thumbStore, hb]; exact staysAt_bytes s _ _

/-- A store that does not write R15 completes, and leaves R15 and both pipeline slots. -/
theorem exec_store_staysAt (hi : isStore i = true) (hp : storeWritesPc i = false) : StaysAt s (exec i s) := by
  cases i with
  | str => simp only [exec, execStr]; exact staysAt_store wordBytes State.writeWord_eq hp
  | strb => simp only [exec, execStrb]; exact staysAt_store _ State.storeByte_eq hp
  | strh => simp only [exec, execStrh]; exact staysAt_store _ State.storeHalf_eq hp
  | stm =>
    simp only [exec, execStm, State.storeWords_eq]
    exact staysAt_whenCond (staysAt_writeIf hp _ s _ _)
  | swp =>
    simp only [exec, execSwp, State.writeWord_eq]
    exact staysAt_whenCond (staysAt_write (by simpa [storeWritesPc] using hp) _ s _ _)
  | swpb =>
    simp only [exec, execSwpb, State.storeByte_eq]
    exact staysAt_whenCond (staysAt_write (by simpa [storeWritesPc] using hp) _ s _ _)
  | tStrReg => simp only [exec, execTStrReg]; exact staysAt_thumbStore wordBytes State.writeWord_eq
  | tStrbReg => simp only [exec, execTStrbReg]; exact staysAt_thumbStore _ State.storeByte_eq
  | tStrhReg => simp only [exec, execTStrhReg]; exact staysAt_thumbStore _ State.storeHalf_eq
  | tStrImm => simp only [exec, execTStrImm]; exact staysAt_thumbStore wordBytes State.writeWord_eq
  | tStrbImm => simp only [exec, execTStrbImm]; exact staysAt_thumbStore _ State.storeByte_eq
  | tStrhImm => simp only [exec, execTStrhImm]; exact staysAt_thumbStore _ State.storeHalf_eq
  | tStrSp => simp only [exec, execTStrSp]; exact staysAt_thumbStore wordBytes State.writeWord_eq
  | tPush =>
    simp only [exec, execTPush, State.storeWords_eq]
    exact staysAt_write (by decide) _ s _ _
  | tStmia rb =>
    simp only [exec, execTStmia, State.storeWords_eq]
    exact staysAt_write (loReg_ne_pc rb) _ s _ _
  | _ => cases hi

end Sys2Proof.Machine
end

