-- ==== Sys2Proof/Laws/PerInstr.lean ====
section
/-! SUPPORT. The condition field of every instruction's encoding, constructor by constructor (30_encoding.md
R91, R122). -/

namespace Sys2Proof.Laws

/-- The encoding of an instruction of the 32-bit set holds its condition in bits 31 to 28; an instruction of the
16-bit set has none. -/
def CondField.Statement (i : Instr) : Prop :=
  match encode i with
  | .arm w => ∃ c, i.cond? = some c ∧ field w 28 4 = c.bits
  | .thumb _ => i.cond? = none

theorem condField_arm {i : Instr} {c : Cond} {x : BitVec 28} (h : encode i = .arm (c.bits ++ x))
    (hc : i.cond? = some c) : CondField.Statement i := by
  rw [CondField.Statement, h]
  exact ⟨c, hc, field_cond c x⟩

theorem CondField.and (c : Cond) (sf : Bool) (rn rd : Reg) (o : Operand2) :
    CondField.Statement (.and c sf rn rd o) := condField_arm rfl rfl

theorem CondField.eor (c : Cond) (sf : Bool) (rn rd : Reg) (o : Operand2) :
    CondField.Statement (.eor c sf rn rd o) := condField_arm rfl rfl

theorem CondField.sub (c : Cond) (sf : Bool) (rn rd : Reg) (o : Operand2) :
    CondField.Statement (.sub c sf rn rd o) := condField_arm rfl rfl

theorem CondField.rsb (c : Cond) (sf : Bool) (rn rd : Reg) (o : Operand2) :
    CondField.Statement (.rsb c sf rn rd o) := condField_arm rfl rfl

theorem CondField.add (c : Cond) (sf : Bool) (rn rd : Reg) (o : Operand2) :
    CondField.Statement (.add c sf rn rd o) := condField_arm rfl rfl

theorem CondField.adc (c : Cond) (sf : Bool) (rn rd : Reg) (o : Operand2) :
    CondField.Statement (.adc c sf rn rd o) := condField_arm rfl rfl

theorem CondField.sbc (c : Cond) (sf : Bool) (rn rd : Reg) (o : Operand2) :
    CondField.Statement (.sbc c sf rn rd o) := condField_arm rfl rfl

theorem CondField.rsc (c : Cond) (sf : Bool) (rn rd : Reg) (o : Operand2) :
    CondField.Statement (.rsc c sf rn rd o) := condField_arm rfl rfl

theorem CondField.tst (c : Cond) (rn rd : Reg) (o : Operand2) :
    CondField.Statement (.tst c rn rd o) := condField_arm rfl rfl

theorem CondField.teq (c : Cond) (rn rd : Reg) (o : Operand2) :
    CondField.Statement (.teq c rn rd o) := condField_arm rfl rfl

theorem CondField.cmp (c : Cond) (rn rd : Reg) (o : Operand2) :
    CondField.Statement (.cmp c rn rd o) := condField_arm rfl rfl

theorem CondField.cmn (c : Cond) (rn rd : Reg) (o : Operand2) :
    CondField.Statement (.cmn c rn rd o) := condField_arm rfl rfl

theorem CondField.orr (c : Cond) (sf : Bool) (rn rd : Reg) (o : Operand2) :
    CondField.Statement (.orr c sf rn rd o) := condField_arm rfl rfl

theorem CondField.mov (c : Cond) (sf : Bool) (rn rd : Reg) (o : Operand2) :
    CondField.Statement (.mov c sf rn rd o) := condField_arm rfl rfl

theorem CondField.bic (c : Cond) (sf : Bool) (rn rd : Reg) (o : Operand2) :
    CondField.Statement (.bic c sf rn rd o) := condField_arm rfl rfl

theorem CondField.mvn (c : Cond) (sf : Bool) (rn rd : Reg) (o : Operand2) :
    CondField.Statement (.mvn c sf rn rd o) := condField_arm rfl rfl

theorem CondField.mrs (c : Cond) (spsr : Bool) (rd : Reg) :
    CondField.Statement (.mrs c spsr rd) := condField_arm rfl rfl

theorem CondField.msr (c : Cond) (spsr : Bool) (fields : FieldMask) (o : MsrOperand) :
    CondField.Statement (.msr c spsr fields o) := condField_arm rfl rfl

theorem CondField.mul (c : Cond) (sf : Bool) (rd rn rs rm : Reg) :
    CondField.Statement (.mul c sf rd rn rs rm) := condField_arm rfl rfl

theorem CondField.mla (c : Cond) (sf : Bool) (rd rn rs rm : Reg) :
    CondField.Statement (.mla c sf rd rn rs rm) := condField_arm rfl rfl

theorem CondField.umull (c : Cond) (sf : Bool) (rdHi rdLo rs rm : Reg) :
    CondField.Statement (.umull c sf rdHi rdLo rs rm) := condField_arm rfl rfl

theorem CondField.umlal (c : Cond) (sf : Bool) (rdHi rdLo rs rm : Reg) :
    CondField.Statement (.umlal c sf rdHi rdLo rs rm) := condField_arm rfl rfl

theorem CondField.smull (c : Cond) (sf : Bool) (rdHi rdLo rs rm : Reg) :
    CondField.Statement (.smull c sf rdHi rdLo rs rm) := condField_arm rfl rfl

theorem CondField.smlal (c : Cond) (sf : Bool) (rdHi rdLo rs rm : Reg) :
    CondField.Statement (.smlal c sf rdHi rdLo rs rm) := condField_arm rfl rfl

theorem CondField.swp (c : Cond) (rn rd rm : Reg) :
    CondField.Statement (.swp c rn rd rm) := condField_arm rfl rfl

theorem CondField.swpb (c : Cond) (rn rd rm : Reg) :
    CondField.Statement (.swpb c rn rd rm) := condField_arm rfl rfl

theorem CondField.bx (c : Cond) (rm : Reg) :
    CondField.Statement (.bx c rm) := condField_arm rfl rfl

theorem CondField.strh (c : Cond) (m : IndexMode) (rn rd : Reg) (o : HalfOffset) :
    CondField.Statement (.strh c m rn rd o) := condField_arm rfl rfl

theorem CondField.ldrh (c : Cond) (m : IndexMode) (rn rd : Reg) (o : HalfOffset) :
    CondField.Statement (.ldrh c m rn rd o) := condField_arm rfl rfl

theorem CondField.ldrsb (c : Cond) (m : IndexMode) (rn rd : Reg) (o : HalfOffset) :
    CondField.Statement (.ldrsb c m rn rd o) := condField_arm rfl rfl

theorem CondField.ldrsh (c : Cond) (m : IndexMode) (rn rd : Reg) (o : HalfOffset) :
    CondField.Statement (.ldrsh c m rn rd o) := condField_arm rfl rfl

theorem CondField.str (c : Cond) (m : IndexMode) (rn rd : Reg) (o : WordOffset) :
    CondField.Statement (.str c m rn rd o) := condField_arm rfl rfl

theorem CondField.ldr (c : Cond) (m : IndexMode) (rn rd : Reg) (o : WordOffset) :
    CondField.Statement (.ldr c m rn rd o) := condField_arm rfl rfl

theorem CondField.strb (c : Cond) (m : IndexMode) (rn rd : Reg) (o : WordOffset) :
    CondField.Statement (.strb c m rn rd o) := condField_arm rfl rfl

theorem CondField.ldrb (c : Cond) (m : IndexMode) (rn rd : Reg) (o : WordOffset) :
    CondField.Statement (.ldrb c m rn rd o) := condField_arm rfl rfl

theorem CondField.stm (c : Cond) (m : IndexMode) (sf : Bool) (rn : Reg) (list : BitVec 16) :
    CondField.Statement (.stm c m sf rn list) := condField_arm rfl rfl

theorem CondField.ldm (c : Cond) (m : IndexMode) (sf : Bool) (rn : Reg) (list : BitVec 16) :
    CondField.Statement (.ldm c m sf rn list) := condField_arm rfl rfl

theorem CondField.b (c : Cond) (imm24 : BitVec 24) :
    CondField.Statement (.b c imm24) := condField_arm rfl rfl

theorem CondField.bl (c : Cond) (imm24 : BitVec 24) :
    CondField.Statement (.bl c imm24) := condField_arm rfl rfl

theorem CondField.swi (c : Cond) (comment : BitVec 24) :
    CondField.Statement (.swi c comment) := condField_arm rfl rfl

theorem CondField.undefinedArm (c : Cond) (bits : BitVec 28) :
    CondField.Statement (.undefinedArm c bits) := condField_arm rfl rfl

theorem CondField.tLslImm (rd rs : LoReg) (off5 : Fin 32) :
    CondField.Statement (.tLslImm rd rs off5) := rfl

theorem CondField.tLsrImm (rd rs : LoReg) (off5 : Fin 32) :
    CondField.Statement (.tLsrImm rd rs off5) := rfl

theorem CondField.tAsrImm (rd rs : LoReg) (off5 : Fin 32) :
    CondField.Statement (.tAsrImm rd rs off5) := rfl

theorem CondField.tAddReg (rd rs rn : LoReg) :
    CondField.Statement (.tAddReg rd rs rn) := rfl

theorem CondField.tSubReg (rd rs rn : LoReg) :
    CondField.Statement (.tSubReg rd rs rn) := rfl

theorem CondField.tAddImm3 (rd rs : LoReg) (imm3 : BitVec 3) :
    CondField.Statement (.tAddImm3 rd rs imm3) := rfl

theorem CondField.tSubImm3 (rd rs : LoReg) (imm3 : BitVec 3) :
    CondField.Statement (.tSubImm3 rd rs imm3) := rfl

theorem CondField.tMovImm (rd : LoReg) (off8 : BitVec 8) :
    CondField.Statement (.tMovImm rd off8) := rfl

theorem CondField.tCmpImm (rd : LoReg) (off8 : BitVec 8) :
    CondField.Statement (.tCmpImm rd off8) := rfl

theorem CondField.tAddImm8 (rd : LoReg) (off8 : BitVec 8) :
    CondField.Statement (.tAddImm8 rd off8) := rfl

theorem CondField.tSubImm8 (rd : LoReg) (off8 : BitVec 8) :
    CondField.Statement (.tSubImm8 rd off8) := rfl

theorem CondField.tAnd (rd rs : LoReg) :
    CondField.Statement (.tAnd rd rs) := rfl

theorem CondField.tEor (rd rs : LoReg) :
    CondField.Statement (.tEor rd rs) := rfl

theorem CondField.tLslReg (rd rs : LoReg) :
    CondField.Statement (.tLslReg rd rs) := rfl

theorem CondField.tLsrReg (rd rs : LoReg) :
    CondField.Statement (.tLsrReg rd rs) := rfl

theorem CondField.tAsrReg (rd rs : LoReg) :
    CondField.Statement (.tAsrReg rd rs) := rfl

theorem CondField.tAdc (rd rs : LoReg) :
    CondField.Statement (.tAdc rd rs) := rfl

theorem CondField.tSbc (rd rs : LoReg) :
    CondField.Statement (.tSbc rd rs) := rfl

theorem CondField.tRorReg (rd rs : LoReg) :
    CondField.Statement (.tRorReg rd rs) := rfl

theorem CondField.tTst (rd rs : LoReg) :
    CondField.Statement (.tTst rd rs) := rfl

theorem CondField.tNeg (rd rs : LoReg) :
    CondField.Statement (.tNeg rd rs) := rfl

theorem CondField.tCmpReg (rd rs : LoReg) :
    CondField.Statement (.tCmpReg rd rs) := rfl

theorem CondField.tCmn (rd rs : LoReg) :
    CondField.Statement (.tCmn rd rs) := rfl

theorem CondField.tOrr (rd rs : LoReg) :
    CondField.Statement (.tOrr rd rs) := rfl

theorem CondField.tMul (rd rs : LoReg) :
    CondField.Statement (.tMul rd rs) := rfl

theorem CondField.tBic (rd rs : LoReg) :
    CondField.Statement (.tBic rd rs) := rfl

theorem CondField.tMvn (rd rs : LoReg) :
    CondField.Statement (.tMvn rd rs) := rfl

theorem CondField.tAddHi (rd rs : Reg) :
    CondField.Statement (.tAddHi rd rs) := rfl

theorem CondField.tCmpHi (rd rs : Reg) :
    CondField.Statement (.tCmpHi rd rs) := rfl

theorem CondField.tMovHi (rd rs : Reg) :
    CondField.Statement (.tMovHi rd rs) := rfl

theorem CondField.tBx (rs : Reg) (low : BitVec 3) :
    CondField.Statement (.tBx rs low) := rfl

theorem CondField.tLdrPc (rd : LoReg) (word8 : BitVec 8) :
    CondField.Statement (.tLdrPc rd word8) := rfl

theorem CondField.tStrReg (rd rb ro : LoReg) :
    CondField.Statement (.tStrReg rd rb ro) := rfl

theorem CondField.tStrbReg (rd rb ro : LoReg) :
    CondField.Statement (.tStrbReg rd rb ro) := rfl

theorem CondField.tLdrReg (rd rb ro : LoReg) :
    CondField.Statement (.tLdrReg rd rb ro) := rfl

theorem CondField.tLdrbReg (rd rb ro : LoReg) :
    CondField.Statement (.tLdrbReg rd rb ro) := rfl

theorem CondField.tStrhReg (rd rb ro : LoReg) :
    CondField.Statement (.tStrhReg rd rb ro) := rfl

theorem CondField.tLdsbReg (rd rb ro : LoReg) :
    CondField.Statement (.tLdsbReg rd rb ro) := rfl

theorem CondField.tLdrhReg (rd rb ro : LoReg) :
    CondField.Statement (.tLdrhReg rd rb ro) := rfl

theorem CondField.tLdshReg (rd rb ro : LoReg) :
    CondField.Statement (.tLdshReg rd rb ro) := rfl

theorem CondField.tStrImm (rd rb : LoReg) (off5 : BitVec 5) :
    CondField.Statement (.tStrImm rd rb off5) := rfl

theorem CondField.tLdrImm (rd rb : LoReg) (off5 : BitVec 5) :
    CondField.Statement (.tLdrImm rd rb off5) := rfl

theorem CondField.tStrbImm (rd rb : LoReg) (off5 : BitVec 5) :
    CondField.Statement (.tStrbImm rd rb off5) := rfl

theorem CondField.tLdrbImm (rd rb : LoReg) (off5 : BitVec 5) :
    CondField.Statement (.tLdrbImm rd rb off5) := rfl

theorem CondField.tStrhImm (rd rb : LoReg) (off5 : BitVec 5) :
    CondField.Statement (.tStrhImm rd rb off5) := rfl

theorem CondField.tLdrhImm (rd rb : LoReg) (off5 : BitVec 5) :
    CondField.Statement (.tLdrhImm rd rb off5) := rfl

theorem CondField.tStrSp (rd : LoReg) (word8 : BitVec 8) :
    CondField.Statement (.tStrSp rd word8) := rfl

theorem CondField.tLdrSp (rd : LoReg) (word8 : BitVec 8) :
    CondField.Statement (.tLdrSp rd word8) := rfl

theorem CondField.tAddPcImm (rd : LoReg) (word8 : BitVec 8) :
    CondField.Statement (.tAddPcImm rd word8) := rfl

theorem CondField.tAddSpImm (rd : LoReg) (word8 : BitVec 8) :
    CondField.Statement (.tAddSpImm rd word8) := rfl

theorem CondField.tAdjustSp (neg : Bool) (sword7 : BitVec 7) :
    CondField.Statement (.tAdjustSp neg sword7) := rfl

theorem CondField.tPush (lr : Bool) (list : BitVec 8) :
    CondField.Statement (.tPush lr list) := rfl

theorem CondField.tPop (pc : Bool) (list : BitVec 8) :
    CondField.Statement (.tPop pc list) := rfl

theorem CondField.tStmia (rb : LoReg) (list : BitVec 8) :
    CondField.Statement (.tStmia rb list) := rfl

theorem CondField.tLdmia (rb : LoReg) (list : BitVec 8) :
    CondField.Statement (.tLdmia rb list) := rfl

theorem CondField.tBeq (soff8 : BitVec 8) :
    CondField.Statement (.tBeq soff8) := rfl

theorem CondField.tBne (soff8 : BitVec 8) :
    CondField.Statement (.tBne soff8) := rfl

theorem CondField.tBcs (soff8 : BitVec 8) :
    CondField.Statement (.tBcs soff8) := rfl

theorem CondField.tBcc (soff8 : BitVec 8) :
    CondField.Statement (.tBcc soff8) := rfl

theorem CondField.tBmi (soff8 : BitVec 8) :
    CondField.Statement (.tBmi soff8) := rfl

theorem CondField.tBpl (soff8 : BitVec 8) :
    CondField.Statement (.tBpl soff8) := rfl

theorem CondField.tBvs (soff8 : BitVec 8) :
    CondField.Statement (.tBvs soff8) := rfl

theorem CondField.tBvc (soff8 : BitVec 8) :
    CondField.Statement (.tBvc soff8) := rfl

theorem CondField.tBhi (soff8 : BitVec 8) :
    CondField.Statement (.tBhi soff8) := rfl

theorem CondField.tBls (soff8 : BitVec 8) :
    CondField.Statement (.tBls soff8) := rfl

theorem CondField.tBge (soff8 : BitVec 8) :
    CondField.Statement (.tBge soff8) := rfl

theorem CondField.tBlt (soff8 : BitVec 8) :
    CondField.Statement (.tBlt soff8) := rfl

theorem CondField.tBgt (soff8 : BitVec 8) :
    CondField.Statement (.tBgt soff8) := rfl

theorem CondField.tBle (soff8 : BitVec 8) :
    CondField.Statement (.tBle soff8) := rfl

theorem CondField.tSwi (value8 : BitVec 8) :
    CondField.Statement (.tSwi value8) := rfl

theorem CondField.tB (off11 : BitVec 11) :
    CondField.Statement (.tB off11) := rfl

theorem CondField.tBlFirst (off11 : BitVec 11) :
    CondField.Statement (.tBlFirst off11) := rfl

theorem CondField.tBlSecond (off11 : BitVec 11) :
    CondField.Statement (.tBlSecond off11) := rfl

theorem CondField.tUndefined (bits : Half) :
    CondField.Statement (.tUndefined bits) := rfl

end Sys2Proof.Laws
end

