-- ==== Sys2Proof/Tests/Slice0.lean ====
section
/-! SUPPORT. Tests. The words are written out field by field from the formats of 30_encoding.md R94 and R111; the
effects are the vectors of 95_test_vectors.md (its section numbers are given), or worked by hand from the rule
named. Last stand the witnesses for the hypotheses of the obligations. -/

namespace Sys2Proof.Machine

/-! ## Which terms are well formed -/

theorem test_wellFormed_undefinedArm_refused : Instr.wellFormed (.undefinedArm .al 0x3A00009#28) = false := by decide

theorem test_wellFormed_undefinedArm : Instr.wellFormed (.undefinedArm .al 0x7F000F0#28) = true := by decide

theorem test_wellFormed_tUndefined_refused : Instr.wellFormed (.tUndefined 0xD100#16) = false := by decide

theorem test_wellFormed_tUndefined : Instr.wellFormed (.tUndefined 0xDE00#16) = true := by decide

/-! ## Decoding, one word and more per constructor (R94, R95, R111) -/

/-- A word of the 32-bit set and an instruction name each other. -/
abbrev ArmPair (p : Word × Instr) : Prop :=
  decodeTableWord 32 p.1.toNat = some p.2 ∧ encode p.2 = .arm p.1 ∧ p.2.wellFormed = true

/-- A halfword of the 16-bit set and an instruction name each other. -/
abbrev ThumbPair (p : Half × Instr) : Prop :=
  decodeTableWord 16 p.1.toNat = some p.2 ∧ encode p.2 = .thumb p.1 ∧ p.2.wellFormed = true

/-- Logical operations and moves, in the three operand forms (DP-imm, DP-reg-imm, DP-reg-reg). -/
theorem test_decode_logical : ∀ p ∈ [
    (0b0001_000_0000_1_0011_0100_00101_00_0_0110#32, Instr.and .ne true 3 4 (.regImm 6 .lsl 5)),
    (0b0010_000_0001_0_1001_1010_1011_0_01_1_1100#32, .eor .cs false 9 10 (.regReg 12 .lsr 11)),
    (0b0011_001_1100_1_0111_1000_0101_11001010#32, .orr .cc true 7 8 (.imm 5 0xCA#8)),
    (0b0100_000_1101_0_0000_1110_11111_11_0_0001#32, .mov .mi false 0 14 (.regImm 1 .ror 31)),
    (0b0101_000_1110_1_0001_0010_0011_0_10_1_0100#32, .bic .pl true 1 2 (.regReg 4 .asr 3)),
    (0b0110_001_1111_0_1111_0101_1110_00000001#32, .mvn .vs false 15 5 (.imm 14 1#8))],
  ArmPair p := by decide

theorem test_decode_arithmetic : ∀ p ∈ [
    (0b0111_000_0010_1_1101_1111_00001_10_0_1110#32, Instr.sub .vc true 13 15 (.regImm 14 .asr 1)),
    (0b1000_001_0011_0_0110_0111_0000_11111111#32, .rsb .hi false 6 7 (.imm 0 0xFF#8)),
    (0b1001_000_0100_1_1000_1001_1010_0_11_1_1011#32, .add .ls true 8 9 (.regReg 11 .ror 10)),
    (0b1010_000_0101_0_0001_0010_10000_01_0_0011#32, .adc .ge false 1 2 (.regImm 3 .lsr 16)),
    (0b1011_001_0110_1_0100_0101_1000_10000001#32, .sbc .lt true 4 5 (.imm 8 0x81#8)),
    (0b1100_000_0111_0_1010_1011_0001_0_00_1_0010#32, .rsc .gt false 10 11 (.regReg 2 .lsl 1))],
  ArmPair p := by decide

/-- The compares always have S = 1; Rd is ignored and may hold any value (R95). -/
theorem test_decode_compare : ∀ p ∈ [
    (0b1101_001_1000_1_0010_0000_0011_00000101#32, Instr.tst .le 2 0 (.imm 3 5#8)),
    (0b1110_000_1001_1_0011_1111_00010_00_0_0100#32, .teq .al 3 15 (.regImm 4 .lsl 2)),
    (0b1111_000_1010_1_0101_0000_0110_0_01_1_0111#32, .cmp .nv 5 0 (.regReg 7 .lsr 6)),
    (0b0000_001_1011_1_1000_0001_0000_00001111#32, .cmn .eq 8 1 (.imm 0 15#8))],
  ArmPair p := by decide

theorem test_decode_status : ∀ p ∈ [
    (0b1110_00010_0_001111_0011_000000000000#32, Instr.mrs .al false 3),
    (0b0001_00010_1_001111_1100_000000000000#32, .mrs .ne true 12),
    (0b1110_00010_0_10_1_0_0_1_1111_00000000_0101#32, .msr .al false ⟨true, false, false, true⟩ (.reg 5)),
    (0b0000_00110_1_10_0_1_1_0_1111_0110_10110001#32, .msr .eq true ⟨false, true, true, false⟩ (.imm 6 0xB1#8))],
  ArmPair p := by decide

/-- In MUL and MLA, Rd is bits 19:16 and Rn bits 15:12; in the long multiplies RdHi comes before RdLo. -/
theorem test_decode_multiply : ∀ p ∈ [
    (0b1110_000000_0_1_0001_0000_0010_1001_0011#32, Instr.mul .al true 1 0 2 3),
    (0b0001_000000_1_0_0100_0101_0110_1001_0111#32, .mla .ne false 4 5 6 7),
    (0b1110_00001_0_0_1_1000_1001_1010_1001_1011#32, .umull .al true 8 9 10 11),
    (0b0010_00001_0_1_0_0001_0010_0011_1001_0100#32, .umlal .cs false 1 2 3 4),
    (0b1110_00001_1_0_0_0101_0110_0111_1001_1000#32, .smull .al false 5 6 7 8),
    (0b0011_00001_1_1_1_1001_1010_1011_1001_1100#32, .smlal .cc true 9 10 11 12)],
  ArmPair p := by decide

theorem test_decode_swap_branch : ∀ p ∈ [
    (0b1110_00010_0_00_0001_0010_0000_1001_0011#32, Instr.swp .al 1 2 3),
    (0b0100_00010_1_00_0100_0101_0000_1001_0110#32, .swpb .mi 4 5 6),
    (0b0101_0001_0010_1111_1111_1111_0001_1001#32, .bx .pl 9),
    (0b1011_101_0_100000000000000000000001#32, .b .lt 0x800001#24),
    (0b1110_101_1_011111111111111111111110#32, .bl .al 0x7FFFFE#24),
    (0b1100_1111_000100100011010001010110#32, .swi .gt 0x123456#24)],
  ArmPair p := by decide

/-- Halfword and signed transfers: P, U, the immediate bit, W, L, then SH in bits 6:5. -/
theorem test_decode_halfword : ∀ p ∈ [
    (0b1110_000_1_0_0_1_0_0011_0100_0000_1_0_1_1_0101#32, Instr.strh .al ⟨true, false, true⟩ 3 4 (.reg 5)),
    (0b1110_000_0_1_1_0_1_0110_0111_1010_1_0_1_1_1011#32, .ldrh .al ⟨false, true, false⟩ 6 7 (.imm 0xAB#8)),
    (0b0110_000_1_1_1_0_1_1000_1001_0001_1_1_0_1_0010#32, .ldrsb .vs ⟨true, true, false⟩ 8 9 (.imm 0x12#8)),
    (0b1110_000_0_0_0_1_1_1010_1011_0000_1_1_1_1_1100#32, .ldrsh .al ⟨false, false, true⟩ 10 11 (.reg 12))],
  ArmPair p := by decide

/-- Single transfers: P, U, B, W, L; the offset is 12 bits (bit 25 clear) or a shifted register (bit 25 set). -/
theorem test_decode_single : ∀ p ∈ [
    (0b1110_010_1_0_0_1_0_0001_0010_101010111100#32, Instr.str .al ⟨true, false, true⟩ 1 2 (.imm 0xABC#12)),
    (0b0111_011_0_1_0_0_1_0011_0100_00111_10_0_0101#32, .ldr .vc ⟨false, true, false⟩ 3 4 (.reg 5 .asr 7)),
    (0b1110_011_1_1_1_0_0_0110_0111_00000_11_0_1000#32, .strb .al ⟨true, true, false⟩ 6 7 (.reg 8 .ror 0)),
    (0b1000_010_0_0_1_1_1_1001_1010_000000000001#32, .ldrb .hi ⟨false, false, true⟩ 9 10 (.imm 1#12))],
  ArmPair p := by decide

theorem test_decode_block : ∀ p ∈ [
    (0b1110_100_1_0_0_1_0_1101_0100000011110000#32, Instr.stm .al ⟨true, false, true⟩ false 13 0x40F0#16),
    (0b1001_100_0_1_1_0_1_0010_1000000000000001#32, .ldm .ls ⟨false, true, false⟩ true 2 0x8001#16)],
  ArmPair p := by decide

/-- Unallocated words, one and more of each line of R93 that R97 names; most from 95 section 2.10. -/
theorem test_decode_undefinedArm : ∀ p ∈ [
    (0xE19001B0#32, Instr.undefinedArm .al 0x19001B0#28), (0xE1C000D0#32, .undefinedArm .al 0x1C000D0#28),
    (0xE0400291#32, .undefinedArm .al 0x0400291#28), (0xE1200090#32, .undefinedArm .al 0x1200090#28),
    (0xE12FFF30#32, .undefinedArm .al 0x12FFF30#28), (0xE10F0001#32, .undefinedArm .al 0x10F0001#28),
    (0xE3000000#32, .undefinedArm .al 0x3000000#28), (0xE16F0F10#32, .undefinedArm .al 0x16F0F10#28),
    (0xE1200070#32, .undefinedArm .al 0x1200070#28), (0xE6000010#32, .undefinedArm .al 0x6000010#28),
    (0x17F000F0#32, .undefinedArm .ne 0x7F000F0#28), (0xEC000000#32, .undefinedArm .al 0xC000000#28),
    (0xEE000000#32, .undefinedArm .al 0xE000000#28), (0xEE000010#32, .undefinedArm .al 0xE000010#28)],
  ArmPair p := by decide

theorem test_decode_format_1_2_3 : ∀ p ∈ [
    (0b000_00_10101_011_100#16, Instr.tLslImm 4 3 21), (0b000_01_00000_101_110#16, .tLsrImm 6 5 0),
    (0b000_10_11111_000_111#16, .tAsrImm 7 0 31), (0b00011_0_0_001_010_011#16, .tAddReg 3 2 1),
    (0b00011_0_1_100_101_110#16, .tSubReg 6 5 4), (0b00011_1_0_111_001_000#16, .tAddImm3 0 1 7#3),
    (0b00011_1_1_010_011_100#16, .tSubImm3 4 3 2#3), (0b001_00_101_01100101#16, .tMovImm 5 0x65#8),
    (0b001_01_001_11111111#16, .tCmpImm 1 0xFF#8), (0b001_10_010_10000000#16, .tAddImm8 2 0x80#8),
    (0b001_11_110_00000001#16, .tSubImm8 6 1#8)],
  ThumbPair p := by decide

theorem test_decode_format_4 : ∀ p ∈ [
    (0b010000_0000_001_010#16, Instr.tAnd 2 1), (0b010000_0001_011_100#16, .tEor 4 3),
    (0b010000_0010_101_110#16, .tLslReg 6 5), (0b010000_0011_111_000#16, .tLsrReg 0 7),
    (0b010000_0100_001_011#16, .tAsrReg 3 1), (0b010000_0101_010_100#16, .tAdc 4 2),
    (0b010000_0110_011_101#16, .tSbc 5 3), (0b010000_0111_100_110#16, .tRorReg 6 4),
    (0b010000_1000_101_111#16, .tTst 7 5), (0b010000_1001_110_000#16, .tNeg 0 6),
    (0b010000_1010_111_001#16, .tCmpReg 1 7), (0b010000_1011_000_010#16, .tCmn 2 0),
    (0b010000_1100_001_100#16, .tOrr 4 1), (0b010000_1101_010_101#16, .tMul 5 2),
    (0b010000_1110_011_110#16, .tBic 6 3), (0b010000_1111_100_111#16, .tMvn 7 4)],
  ThumbPair p := by decide

/-- Format 5 (H1 extends Rd, H2 extends Rs), with the ignored low field of BX; formats 12 and 13. -/
theorem test_decode_format_5_12_13 : ∀ p ∈ [
    (0b010001_00_0_1_010_011#16, Instr.tAddHi 3 10), (0b010001_01_1_0_100_101#16, .tCmpHi 13 4),
    (0b010001_10_1_1_110_111#16, .tMovHi 15 14), (0b010001_11_0_1_110_000#16, .tBx 14 0#3),
    (0b010001_11_0_0_001_101#16, .tBx 1 5#3), (0b1010_0_011_10000001#16, .tAddPcImm 3 0x81#8),
    (0b1010_1_100_00000010#16, .tAddSpImm 4 2#8), (0b10110000_1_0000100#16, .tAdjustSp true 4#7),
    (0b10110000_0_1111111#16, .tAdjustSp false 0x7F#7)],
  ThumbPair p := by decide

theorem test_decode_format_6_to_11 : ∀ p ∈ [
    (0b01001_101_00000011#16, Instr.tLdrPc 5 3#8), (0b0101_0_0_0_001_010_011#16, .tStrReg 3 2 1),
    (0b0101_0_1_0_100_101_110#16, .tStrbReg 6 5 4), (0b0101_1_0_0_111_000_001#16, .tLdrReg 1 0 7),
    (0b0101_1_1_0_010_011_100#16, .tLdrbReg 4 3 2), (0b0101_0_0_1_101_110_111#16, .tStrhReg 7 6 5),
    (0b0101_0_1_1_000_001_010#16, .tLdsbReg 2 1 0), (0b0101_1_0_1_011_100_101#16, .tLdrhReg 5 4 3),
    (0b0101_1_1_1_110_111_000#16, .tLdshReg 0 7 6), (0b011_0_0_00001_010_011#16, .tStrImm 3 2 1#5),
    (0b011_0_1_11111_100_101#16, .tLdrImm 5 4 31#5), (0b011_1_0_00010_110_111#16, .tStrbImm 7 6 2#5),
    (0b011_1_1_00100_000_001#16, .tLdrbImm 1 0 4#5), (0b1000_0_01000_010_011#16, .tStrhImm 3 2 8#5),
    (0b1000_1_10000_100_101#16, .tLdrhImm 5 4 16#5), (0b1001_0_110_11110000#16, .tStrSp 6 0xF0#8),
    (0b1001_1_111_00001111#16, .tLdrSp 7 0x0F#8)],
  ThumbPair p := by decide

theorem test_decode_format_14_15 : ∀ p ∈ [
    (0b1011_0_10_1_00010000#16, Instr.tPush true 0x10#8), (0b1011_0_10_0_10000001#16, .tPush false 0x81#8),
    (0b1011_1_10_1_00110000#16, .tPop true 0x30#8), (0b1011_1_10_0_00000000#16, .tPop false 0#8),
    (0b1100_0_010_11000000#16, .tStmia 2 0xC0#8), (0b1100_1_101_00100001#16, .tLdmia 5 0x21#8)],
  ThumbPair p := by decide

theorem test_decode_format_16_to_19 : ∀ p ∈ [
    (0b1101_0000_00000010#16, Instr.tBeq 2#8), (0b1101_0001_10000000#16, .tBne 0x80#8),
    (0b1101_0010_00000001#16, .tBcs 1#8), (0b1101_0011_00000011#16, .tBcc 3#8),
    (0b1101_0100_00000100#16, .tBmi 4#8), (0b1101_0101_00000101#16, .tBpl 5#8),
    (0b1101_0110_00000110#16, .tBvs 6#8), (0b1101_0111_00000111#16, .tBvc 7#8),
    (0b1101_1000_00001000#16, .tBhi 8#8), (0b1101_1001_00001001#16, .tBls 9#8),
    (0b1101_1010_01111111#16, .tBge 0x7F#8), (0b1101_1011_00001011#16, .tBlt 11#8),
    (0b1101_1100_00001100#16, .tBgt 12#8), (0b1101_1101_11111111#16, .tBle 0xFF#8),
    (0b11011111_00010001#16, .tSwi 0x11#8), (0b11100_10000000001#16, .tB 0x401#11),
    (0b1111_0_11111111110#16, .tBlFirst 0x7FE#11), (0b1111_1_00000000011#16, .tBlSecond 3#11)],
  ThumbPair p := by decide

/-- The first and the last halfword of each range of R121. -/
theorem test_decode_tUndefined : ∀ p ∈ [
    (0xB100#16, Instr.tUndefined 0xB100#16), (0xB3FF#16, .tUndefined 0xB3FF#16),
    (0xB600#16, .tUndefined 0xB600#16), (0xBBFF#16, .tUndefined 0xBBFF#16),
    (0xBE00#16, .tUndefined 0xBE00#16), (0xBFFF#16, .tUndefined 0xBFFF#16),
    (0xDE00#16, .tUndefined 0xDE00#16), (0xDEFF#16, .tUndefined 0xDEFF#16),
    (0xE800#16, .tUndefined 0xE800#16), (0xEFFF#16, .tUndefined 0xEFFF#16),
    (0x4780#16, .tUndefined 0x4780#16), (0x47FF#16, .tUndefined 0x47FF#16)],
  ThumbPair p := by decide

/-! ## Helpers for tests of one step -/

/-- The fields of a status word; the start value where its mode field names no mode. -/
def cpsrOf (w : Word) : Cpsr := (Psr.ofWord w).toCpsr?.getD State.powerOn.cpsr

/-- A running machine about to execute `code` at `a`, with some registers of the current mode and some words of
memory set and everything else 0: the convention of 95_test_vectors.md. -/
def start (cpsr a : Word) (code : Code) (regs : List (Reg × Word)) (mem : List (Word × Word)) : State :=
  let s : State := { State.powerOn with running := true, cpsr := cpsrOf cpsr }
  let s := mem.foldl (fun s m => s.writeWord m.1 m.2) s
  let s := regs.foldl (fun s r => s.setPhys (phys s.cpsr.mode r.1) r.2) (s.storeBytes a code.bytes)
  (s.branchTo a).advance

/-- The saved status of the current mode set to a word. -/
def withSpsr (w : Word) (s : State) : State :=
  match s.cpsr.mode.excMode? with
  | none => s
  | some m => { s with spsr := s.spsr.set m (Psr.ofWord w) }

/-- What `f` sees after one step, if the step completes. -/
def after {α : Type} (s : State) (f : State → α) : Option α :=
  match step s with
  | .next t => some (f t)
  | _ => none

/-! ## Data processing and status transfer of the 32-bit set (95 section 2.2) -/

/-- ANDS R0, R1, R2, LSL #1. -/
theorem test_and_shift_carry :
    after (start 0x1000001F#32 0x100#32 (.arm 0xE0110082#32) [(1, 0xFFFFFFFF#32), (2, 0xC0000000#32)] [])
        (fun t => (t.readReg 0, t.cpsr.word, t.pc)) =
      some (0x80000000#32, 0xB000001F#32, 0x10C#32) := by decide

/-- ANDS R0, R1, #0xFF000000. -/
theorem test_and_immediate_carry :
    after (start 0x1F#32 0x100#32 (.arm 0xE21104FF#32) [(1, 0x12345678#32)] [])
        (fun t => (t.readReg 0, t.cpsr.word, t.pc)) =
      some (0x12000000#32, 0x2000001F#32, 0x10C#32) := by decide

/-- EORS R0, R1, R2. -/
theorem test_eor_zero :
    after (start 0x3000001F#32 0x100#32 (.arm 0xE0310002#32) [(1, 0xFF00FF00#32), (2, 0xFF00FF00#32)] [])
        (fun t => (t.readReg 0, t.cpsr.word, t.pc)) = some (0#32, 0x7000001F#32, 0x10C#32) := by decide

/-- SUBS R0, R1, R2. -/
theorem test_sub_borrow :
    after (start 0x1F#32 0x100#32 (.arm 0xE0510002#32) [(1, 3#32), (2, 5#32)] [])
        (fun t => (t.readReg 0, t.cpsr.word, t.pc)) =
      some (0xFFFFFFFE#32, 0x8000001F#32, 0x10C#32) := by decide

/-- RSBS R0, R1, #0. -/
theorem test_rsb :
    after (start 0x2000001F#32 0x100#32 (.arm 0xE2710000#32) [(1, 1#32)] [])
        (fun t => (t.readReg 0, t.cpsr.word, t.pc)) =
      some (0xFFFFFFFF#32, 0x8000001F#32, 0x10C#32) := by decide

/-- ADDS R0, R1, R2. -/
theorem test_add_overflow :
    after (start 0x1F#32 0x100#32 (.arm 0xE0910002#32) [(1, 0x7FFFFFFF#32), (2, 1#32)] [])
        (fun t => (t.readReg 0, t.cpsr.word, t.pc)) =
      some (0x80000000#32, 0x9000001F#32, 0x10C#32) := by decide

/-- ADD R0, R1, R2 (S = 0). -/
theorem test_add_keeps_flags :
    after (start 0x6000001F#32 0x100#32 (.arm 0xE0810002#32) [(1, 0x7FFFFFFF#32), (2, 1#32)] [])
        (fun t => (t.readReg 0, t.cpsr.word, t.pc)) =
      some (0x80000000#32, 0x6000001F#32, 0x10C#32) := by decide

/-- ADCS R0, R1, R2. -/
theorem test_adc_partial_overflow :
    after (start 0x2000001F#32 0x100#32 (.arm 0xE0B10002#32) [(1, 0x80000000#32), (2, 0xFFFFFFFF#32)] [])
        (fun t => (t.readReg 0, t.cpsr.word, t.pc)) =
      some (0x80000000#32, 0xB000001F#32, 0x10C#32) := by decide

/-- SBCS R0, R1, R2 (C = 0: borrow). -/
theorem test_sbc_borrow :
    after (start 0x1F#32 0x100#32 (.arm 0xE0D10002#32) [(1, 3#32), (2, 5#32)] [])
        (fun t => (t.readReg 0, t.cpsr.word, t.pc)) =
      some (0xFFFFFFFD#32, 0xA000001F#32, 0x10C#32) := by decide

/-- SBCS R0, R1, R2 (C = 1: no borrow). -/
theorem test_sbc_no_borrow :
    after (start 0x2000001F#32 0x100#32 (.arm 0xE0D10002#32) [(1, 5#32), (2, 3#32)] [])
        (fun t => (t.readReg 0, t.cpsr.word, t.pc)) = some (2#32, 0x2000001F#32, 0x10C#32) := by decide

/-- RSCS R0, R1, R2 (C = 0). -/
theorem test_rsc :
    after (start 0x1F#32 0x100#32 (.arm 0xE0F10002#32) [(1, 1#32), (2, 0xA#32)] [])
        (fun t => (t.readReg 0, t.cpsr.word, t.pc)) = some (8#32, 0x2000001F#32, 0x10C#32) := by decide

/-- TST R1, #1. -/
theorem test_tst :
    after (start 0x8000001F#32 0x100#32 (.arm 0xE3110001#32) [(1, 2#32)] [])
        (fun t => (t.cpsr.word, t.pc)) = some (0x4000001F#32, 0x10C#32) := by decide

/-- TEQ R1, R2. -/
theorem test_teq :
    after (start 0x1F#32 0x100#32 (.arm 0xE1310002#32) [(1, 0x80000000#32), (2, 0#32)] [])
        (fun t => (t.cpsr.word, t.pc)) = some (0x8000001F#32, 0x10C#32) := by decide

/-- CMP R1, R2. -/
theorem test_cmp :
    after (start 0x1F#32 0x100#32 (.arm 0xE1510002#32) [(1, 0x80000000#32), (2, 1#32)] [])
        (fun t => (t.cpsr.word, t.pc)) = some (0x3000001F#32, 0x10C#32) := by decide

/-- CMP R1, #0x80000000. -/
theorem test_cmp_minimum :
    after (start 0x1F#32 0x100#32 (.arm 0xE3510102#32) [(1, 0xFFFFFFFF#32)] [])
        (fun t => (t.cpsr.word, t.pc)) = some (0x3000001F#32, 0x10C#32) := by decide

/-- CMN R1, R2. -/
theorem test_cmn :
    after (start 0x1F#32 0x100#32 (.arm 0xE1710002#32) [(1, 1#32), (2, 0xFFFFFFFF#32)] [])
        (fun t => (t.cpsr.word, t.pc)) = some (0x6000001F#32, 0x10C#32) := by decide

/-- ORRS R0, R1, #0x80000000 (rotate 1: C <- bit 31). -/
theorem test_orr_rotated :
    after (start 0x1F#32 0x100#32 (.arm 0xE3910102#32) [(1, 1#32)] [])
        (fun t => (t.readReg 0, t.cpsr.word, t.pc)) =
      some (0x80000001#32, 0xA000001F#32, 0x10C#32) := by decide

/-- MOVS R0, R1, ROR #0 (identity, no RRX). -/
theorem test_mov_ror_zero :
    after (start 0x2000001F#32 0x100#32 (.arm 0xE1B00061#32) [(1, 3#32)] [])
        (fun t => (t.readReg 0, t.cpsr.word, t.pc)) = some (3#32, 0x2000001F#32, 0x10C#32) := by decide

/-- BICS R0, R1, R2. -/
theorem test_bic :
    after (start 0x1F#32 0x100#32 (.arm 0xE1D10002#32) [(1, 0xFFFFFFFF#32), (2, 0xFFFFFFFF#32)] [])
        (fun t => (t.readReg 0, t.cpsr.word, t.pc)) = some (0#32, 0x4000001F#32, 0x10C#32) := by decide

/-- MVNS R0, R1. -/
theorem test_mvn :
    after (start 0x1F#32 0x100#32 (.arm 0xE1F00001#32) [(1, 0#32)] [])
        (fun t => (t.readReg 0, t.cpsr.word, t.pc)) =
      some (0xFFFFFFFF#32, 0x8000001F#32, 0x10C#32) := by decide

/-- MRS R0, CPSR. -/
theorem test_mrs_cpsr :
    after (start 0xA0000092#32 0x100#32 (.arm 0xE10F0000#32) [] [])
        (fun t => (t.readReg 0, t.cpsr.word, t.pc)) =
      some (0xA0000092#32, 0xA0000092#32, 0x10C#32) := by decide

/-- MRS R0, SPSR. -/
theorem test_mrs_spsr :
    after (withSpsr 0x6000001F#32 (start 0x13#32 0x100#32 (.arm 0xE14F0000#32) [] []))
        (fun t => (t.readReg 0, t.cpsr.word, t.pc)) = some (0x6000001F#32, 0x13#32, 0x10C#32) := by decide

/-- MSR CPSR_f, #0xF0000000. -/
theorem test_msr_flags :
    after (start 0x10#32 0x100#32 (.arm 0xE328F20F#32) [] [])
        (fun t => (t.cpsr.word, t.pc)) = some (0xF0000010#32, 0x10C#32) := by decide

/-- MSR CPSR_c, #0xD2 (to IRQ mode). -/
theorem test_msr_mode :
    after (start 0x13#32 0x100#32 (.arm 0xE321F0D2#32) [(13, 0x1111#32)] [])
        (fun t => (t.regs.read (phys .supervisor 13), t.regs.read (phys .irq 13), t.cpsr.word, t.pc)) =
      some (0x1111#32, 0#32, 0xD2#32, 0x10C#32) := by decide

/-- SUBS PC, LR, #4 (return, SPSR = Thumb User). -/
theorem test_subs_pc_return :
    after (withSpsr 0x80000030#32 (start 0x92#32 0x100#32 (.arm 0xE25EF004#32) [(14, 0x2004#32)] []))
        (fun t => (t.cpsr.word, t.pc)) = some (0x80000030#32, 0x2004#32) := by decide

/-- MOVNE R0, #1 (Z = 1: not executed). -/
theorem test_condition_fails :
    after (start 0x4000001F#32 0x100#32 (.arm 0x13A00001#32) [(0, 7#32)] [])
        (fun t => (t.readReg 0, t.cpsr.word, t.pc)) = some (7#32, 0x4000001F#32, 0x10C#32) := by decide

/-! ## Multiplies (95 section 2.3) -/

/-- MULS R0, R1, R2. -/
theorem test_mul :
    after (start 0x3000001F#32 0x100#32 (.arm 0xE0100291#32) [(1, 0xFFFFFFFF#32), (2, 2#32)] [])
        (fun t => (t.readReg 0, t.cpsr.word, t.pc)) =
      some (0xFFFFFFFE#32, 0xB000001F#32, 0x10C#32) := by decide

/-- MLAS R0, R1, R2, R3. -/
theorem test_mla :
    after (start 0x2000001F#32 0x100#32 (.arm 0xE0303291#32) [(1, 3#32), (2, 5#32), (3, 0xFFFFFFF1#32)] [])
        (fun t => (t.readReg 0, t.cpsr.word, t.pc)) = some (0#32, 0x6000001F#32, 0x10C#32) := by decide

/-- UMULLS R0, R1, R2, R3. -/
theorem test_umull :
    after (start 0x1F#32 0x100#32 (.arm 0xE0910392#32) [(2, 0xFFFFFFFF#32), (3, 0xFFFFFFFF#32)] [])
        (fun t => (t.readReg 0, t.readReg 1, t.cpsr.word, t.pc)) =
      some (1#32, 0xFFFFFFFE#32, 0x8000001F#32, 0x10C#32) := by decide

/-- UMLAL R0, R1, R2, R3. -/
theorem test_umlal_carry :
    after (start 0x1F#32 0x100#32 (.arm 0xE0A10392#32) 
          [(0, 0xFFFFFFFF#32), (1, 0#32), (2, 1#32), (3, 1#32)] [])
        (fun t => (t.readReg 0, t.readReg 1, t.cpsr.word, t.pc)) =
      some (0#32, 1#32, 0x1F#32, 0x10C#32) := by decide

/-- SMULLS R0, R1, R2, R3. -/
theorem test_smull :
    after (start 0x1F#32 0x100#32 (.arm 0xE0D10392#32) [(2, 0xFFFFFFFF#32), (3, 2#32)] [])
        (fun t => (t.readReg 0, t.readReg 1, t.cpsr.word, t.pc)) =
      some (0xFFFFFFFE#32, 0xFFFFFFFF#32, 0x8000001F#32, 0x10C#32) := by decide

/-- SMLALS R0, R1, R2, R3. -/
theorem test_smlal :
    after (start 0x1F#32 0x100#32 (.arm 0xE0F10392#32) 
          [(0, 1#32), (1, 0#32), (2, 0xFFFFFFFF#32), (3, 1#32)] [])
        (fun t => (t.readReg 0, t.readReg 1, t.cpsr.word, t.pc)) =
      some (0#32, 0#32, 0x4000001F#32, 0x10C#32) := by decide

/-- UMULL R0, R0, R2, R3 (RdLo = RdHi). -/
theorem test_umull_same_destination :
    after (start 0x1F#32 0x100#32 (.arm 0xE0800392#32) [(2, 0x10000#32), (3, 0x10000#32)] [])
        (fun t => (t.readReg 0, t.cpsr.word, t.pc)) = some (1#32, 0x1F#32, 0x10C#32) := by decide

/-! ## Branches and SWI of the 32-bit set (95 section 2.4) -/

/-- B 0x100 (offset24 = -2, to itself). -/
theorem test_b_itself :
    after (start 0x1F#32 0x100#32 (.arm 0xEAFFFFFE#32) [] [])
        (fun t => (t.cpsr.word, t.pc)) = some (0x1F#32, 0x108#32) := by decide

/-- BL 0x90 (offset24 = -30). -/
theorem test_bl :
    after (start 0x1F#32 0x100#32 (.arm 0xEBFFFFE2#32) [] [])
        (fun t => (t.readReg 14, t.cpsr.word, t.pc)) = some (0x104#32, 0x1F#32, 0x98#32) := by decide

/-- BX R1 (to Thumb). -/
theorem test_bx_to_thumb :
    after (start 0x1F#32 0x100#32 (.arm 0xE12FFF11#32) [(1, 0x201#32)] [])
        (fun t => (t.cpsr.word, t.pc)) = some (0x3F#32, 0x204#32) := by decide

/-- BX R1 (ARM, bit 1 dropped). -/
theorem test_bx_arm :
    after (start 0x1F#32 0x100#32 (.arm 0xE12FFF11#32) [(1, 0x202#32)] [])
        (fun t => (t.cpsr.word, t.pc)) = some (0x1F#32, 0x208#32) := by decide

/-- SWI #0x123456, tick 1. -/
theorem test_swi :
    after (start 0x40000010#32 0x100#32 (.arm 0xEF123456#32) [] [])
        (fun t => (t.pending.get .softwareInterrupt, t.cpsr.word, t.pc)) =
      some (true, 0x40000010#32, 0x10C#32) := by decide

/-! ## Loads and stores of the 32-bit set (95 section 2.5) -/

/-- LDR R0, [R1, #1] (misaligned: bytes at 0x1001..0x1004). -/
theorem test_ldr_misaligned :
    after (start 0x1F#32 0x100#32 (.arm 0xE5910001#32) 
          [(1, 0x1000#32)] [(0x1000#32, 0x44332211#32), (0x1004#32, 0x88776655#32)])
        (fun t => (t.readReg 0, t.cpsr.word, t.pc)) = some (0x55443322#32, 0x1F#32, 0x10C#32) := by decide

/-- LDR R0, [R1, -R2, LSL #2]!. -/
theorem test_ldr_scaled_writeback :
    after (start 0x1F#32 0x100#32 (.arm 0xE7310102#32) [(1, 0x1010#32), (2, 4#32)] [(0x1000#32, 0x55#32)])
        (fun t => (t.readReg 0, t.readReg 1, t.cpsr.word, t.pc)) =
      some (0x55#32, 0x1000#32, 0x1F#32, 0x10C#32) := by decide

/-- STR R0, [R1, #-4]!. -/
theorem test_str_pre_writeback :
    after (start 0x1F#32 0x100#32 (.arm 0xE5210004#32) [(0, 0xA5A5A5A5#32), (1, 0x1008#32)] [])
        (fun t => (t.readReg 1, t.readWord 0x1004#32, t.cpsr.word, t.pc)) =
      some (0x1004#32, 0xA5A5A5A5#32, 0x1F#32, 0x10C#32) := by decide

/-- STR PC, [R1] (stores A + 8). -/
theorem test_str_pc :
    after (start 0x1F#32 0x100#32 (.arm 0xE581F000#32) [(1, 0x1000#32)] [])
        (fun t => (t.readWord 0x1000#32, t.cpsr.word, t.pc)) = some (0x108#32, 0x1F#32, 0x10C#32) := by decide

/-- STRB R0, [R1]. -/
theorem test_strb :
    after (start 0x1F#32 0x100#32 (.arm 0xE5C10000#32) 
          [(0, 0x1234#32), (1, 0x1001#32)] [(0x1000#32, 0xFFFFFFFF#32)])
        (fun t => (t.readWord 0x1000#32, t.cpsr.word, t.pc)) =
      some (0xFFFF34FF#32, 0x1F#32, 0x10C#32) := by decide

/-- LDRB R0, [R1, #3]. -/
theorem test_ldrb :
    after (start 0x1F#32 0x100#32 (.arm 0xE5D10003#32) [(1, 0x1000#32)] [(0x1000#32, 0x80FFFFFF#32)])
        (fun t => (t.readReg 0, t.cpsr.word, t.pc)) = some (0x80#32, 0x1F#32, 0x10C#32) := by decide

/-- LDRH R0, [R1, #1] (misaligned). -/
theorem test_ldrh_misaligned :
    after (start 0x1F#32 0x100#32 (.arm 0xE1D100B1#32) [(1, 0x1000#32)] [(0x1000#32, 0x44332211#32)])
        (fun t => (t.readReg 0, t.cpsr.word, t.pc)) = some (0x3322#32, 0x1F#32, 0x10C#32) := by decide

/-- LDRSH R0, [R1]. -/
theorem test_ldrsh :
    after (start 0x1F#32 0x100#32 (.arm 0xE1D100F0#32) [(1, 0x1000#32)] [(0x1000#32, 0x8001#32)])
        (fun t => (t.readReg 0, t.cpsr.word, t.pc)) = some (0xFFFF8001#32, 0x1F#32, 0x10C#32) := by decide

/-- LDRSB R0, [R1]. -/
theorem test_ldrsb :
    after (start 0x1F#32 0x100#32 (.arm 0xE1D100D0#32) [(1, 0x1000#32)] [(0x1000#32, 0x80#32)])
        (fun t => (t.readReg 0, t.cpsr.word, t.pc)) = some (0xFFFFFF80#32, 0x1F#32, 0x10C#32) := by decide

/-- STRH R0, [R1], #2. -/
theorem test_strh_post :
    after (start 0x1F#32 0x100#32 (.arm 0xE0C100B2#32) 
          [(0, 0xABCD1234#32), (1, 0x1000#32)] [(0x1000#32, 0xFFFFFFFF#32)])
        (fun t => (t.readReg 1, t.readWord 0x1000#32, t.cpsr.word, t.pc)) =
      some (0x1002#32, 0xFFFF1234#32, 0x1F#32, 0x10C#32) := by decide

/-- SWP R0, R0, [R1] (Rd = Rm). -/
theorem test_swp_same_register :
    after (start 0x1F#32 0x100#32 (.arm 0xE1010090#32) [(0, 0x22#32), (1, 0x1000#32)] [(0x1000#32, 0x11#32)])
        (fun t => (t.readReg 0, t.readWord 0x1000#32, t.cpsr.word, t.pc)) =
      some (0x11#32, 0x22#32, 0x1F#32, 0x10C#32) := by decide

/-- SWPB R0, R2, [R1]. -/
theorem test_swpb :
    after (start 0x1F#32 0x100#32 (.arm 0xE1410092#32) 
          [(1, 0x1001#32), (2, 0x1FF#32)] [(0x1000#32, 0x44332211#32)])
        (fun t => (t.readReg 0, t.readWord 0x1000#32, t.cpsr.word, t.pc)) =
      some (0x22#32, 0x4433FF11#32, 0x1F#32, 0x10C#32) := by decide

/-- LDMIA SP!, (R0, PC)^ (IRQ mode: return). -/
theorem test_ldm_return :
    after (withSpsr 0x10#32 (start 0x92#32 0x100#32 (.arm 0xE8FD8001#32) 
          [(13, 0x7000#32)] [(0x7000#32, 5#32), (0x7004#32, 0x8000#32)]))
        (fun t => (t.readReg 0, t.regs.read (phys .irq 13), t.cpsr.word, t.pc)) =
      some (5#32, 0x7008#32, 0x10#32, 0x8008#32) := by decide

/-- LDMIA R0, (R13, R14)^ (IRQ mode: User bank). -/
theorem test_ldm_user_bank :
    after (start 0x12#32 0x100#32 (.arm 0xE8D06000#32) 
          [(0, 0x1000#32)] [(0x1000#32, 0x11#32), (0x1004#32, 0x22#32)])
        (fun t => (t.readUserReg 13, t.readUserReg 14, t.readReg 13, t.readReg 14, t.cpsr.word, t.pc)) =
      some (0x11#32, 0x22#32, 0#32, 0#32, 0x12#32, 0x10C#32) := by decide

/-- STMDB R1!, (R0, R1) (base second in list: original stored). -/
theorem test_stm_base_in_list :
    after (start 0x1F#32 0x100#32 (.arm 0xE9210003#32) [(0, 0xAA#32), (1, 0x1008#32)] [])
        (fun t => (t.readReg 1, t.readWord 0x1000#32, t.readWord 0x1004#32, t.cpsr.word, t.pc)) =
      some (0x1000#32, 0xAA#32, 0x1008#32, 0x1F#32, 0x10C#32) := by decide

/-- STMIA R0, (R13, R14)^ (SVC mode; R13, R14 shown are the SVC bank; the User bank, holding 0, is stored). -/
theorem test_stm_user_bank :
    after (start 0x13#32 0x100#32 (.arm 0xE8C06000#32) [(0, 0x1000#32), (13, 0x5555#32), (14, 0x6666#32)] [])
        (fun t => (t.readWord 0x1000#32, t.readWord 0x1004#32, t.cpsr.word, t.pc)) =
      some (0#32, 0#32, 0x13#32, 0x10C#32) := by decide

/-- LDMIA PC!, () and STMIA PC!, (): an empty list writes nothing back, so control goes on (R269). -/
theorem test_block_empty_list_pc :
    after (start 0x1F#32 0x100#32 (.arm 0xE8BF0000#32) [] []) (fun t => (t.cpsr.word, t.pc)) =
        some (0x1F#32, 0x10C#32) ∧
      after (start 0x1F#32 0x100#32 (.arm 0xE8AF0000#32) [] []) (fun t => (t.cpsr.word, t.pc)) =
        some (0x1F#32, 0x10C#32) := by decide

/-! ## Formats 1 to 5, 12 and 13 (95 section 2.6) -/

/-- LSL R0, R1, #1. -/
theorem test_tLslImm :
    after (start 0x3F#32 0x100#32 (.thumb 0x0048#16) [(1, 0x80000000#32)] [])
        (fun t => (t.readReg 0, t.cpsr.word, t.pc)) = some (0#32, 0x6000003F#32, 0x106#32) := by decide

/-- LSR R0, R1, #0 (= #32). -/
theorem test_tLsrImm_zero :
    after (start 0x3F#32 0x100#32 (.thumb 0x0808#16) [(1, 0x80000000#32)] [])
        (fun t => (t.readReg 0, t.cpsr.word, t.pc)) = some (0#32, 0x6000003F#32, 0x106#32) := by decide

/-- ASR R0, R1, #31. -/
theorem test_tAsrImm :
    after (start 0x2000003F#32 0x100#32 (.thumb 0x17C8#16) [(1, 0x40000000#32)] [])
        (fun t => (t.readReg 0, t.cpsr.word, t.pc)) = some (0#32, 0x6000003F#32, 0x106#32) := by decide

/-- ADD R0, R1, R2. -/
theorem test_tAddReg :
    after (start 0x3F#32 0x100#32 (.thumb 0x1888#16) [(1, 0xFFFFFFFF#32), (2, 1#32)] [])
        (fun t => (t.readReg 0, t.cpsr.word, t.pc)) = some (0#32, 0x6000003F#32, 0x106#32) := by decide

/-- SUB R0, R1, R2. -/
theorem test_tSubReg :
    after (start 0x3F#32 0x100#32 (.thumb 0x1A88#16) [(1, 0#32), (2, 1#32)] [])
        (fun t => (t.readReg 0, t.cpsr.word, t.pc)) =
      some (0xFFFFFFFF#32, 0x8000003F#32, 0x106#32) := by decide

/-- ADD R0, R1, #0 (MOV alias; C cleared). -/
theorem test_tAddImm3 :
    after (start 0x2000003F#32 0x100#32 (.thumb 0x1C08#16) [(1, 5#32)] [])
        (fun t => (t.readReg 0, t.cpsr.word, t.pc)) = some (5#32, 0x3F#32, 0x106#32) := by decide

/-- SUB R0, R1, #0 (C cleared). -/
theorem test_tSubImm3 :
    after (start 0x2000003F#32 0x100#32 (.thumb 0x1E08#16) [(1, 5#32)] [])
        (fun t => (t.readReg 0, t.cpsr.word, t.pc)) = some (5#32, 0x3F#32, 0x106#32) := by decide

/-- MOV R0, #0. -/
theorem test_tMovImm :
    after (start 0xB000003F#32 0x100#32 (.thumb 0x2000#16) [(0, 9#32)] [])
        (fun t => (t.readReg 0, t.cpsr.word, t.pc)) = some (0#32, 0x7000003F#32, 0x106#32) := by decide

/-- CMP R0, #255. -/
theorem test_tCmpImm :
    after (start 0x3F#32 0x100#32 (.thumb 0x28FF#16) [(0, 0xFF#32)] [])
        (fun t => (t.cpsr.word, t.pc)) = some (0x6000003F#32, 0x106#32) := by decide

/-- ADD R0, #255. -/
theorem test_tAddImm8 :
    after (start 0x3F#32 0x100#32 (.thumb 0x30FF#16) [(0, 0x7FFFFF01#32)] [])
        (fun t => (t.readReg 0, t.cpsr.word, t.pc)) =
      some (0x80000000#32, 0x9000003F#32, 0x106#32) := by decide

/-- SUB R0, #1. -/
theorem test_tSubImm8 :
    after (start 0x3F#32 0x100#32 (.thumb 0x3801#16) [(0, 0x80000000#32)] [])
        (fun t => (t.readReg 0, t.cpsr.word, t.pc)) =
      some (0x7FFFFFFF#32, 0x3000003F#32, 0x106#32) := by decide

/-- AND R0, R1. -/
theorem test_tAnd :
    after (start 0x3000003F#32 0x100#32 (.thumb 0x4008#16) [(0, 0xF0#32), (1, 0xF#32)] [])
        (fun t => (t.readReg 0, t.cpsr.word, t.pc)) = some (0#32, 0x7000003F#32, 0x106#32) := by decide

/-- EOR R0, R1. -/
theorem test_tEor :
    after (start 0x3F#32 0x100#32 (.thumb 0x4048#16) [(0, 0xFF#32), (1, 0x80000000#32)] [])
        (fun t => (t.readReg 0, t.cpsr.word, t.pc)) =
      some (0x800000FF#32, 0x8000003F#32, 0x106#32) := by decide

/-- LSL R0, R1 (R1 = 32). -/
theorem test_tLslReg :
    after (start 0x3F#32 0x100#32 (.thumb 0x4088#16) [(0, 1#32), (1, 0x20#32)] [])
        (fun t => (t.readReg 0, t.cpsr.word, t.pc)) = some (0#32, 0x6000003F#32, 0x106#32) := by decide

/-- LSR R0, R1 (R1 = 0: amount 0, not 32). -/
theorem test_tLsrReg_zero :
    after (start 0x3F#32 0x100#32 (.thumb 0x40C8#16) [(0, 0x80000000#32), (1, 0#32)] [])
        (fun t => (t.readReg 0, t.cpsr.word, t.pc)) =
      some (0x80000000#32, 0x8000003F#32, 0x106#32) := by decide

/-- ASR R0, R1 (R1 = 40). -/
theorem test_tAsrReg :
    after (start 0x3F#32 0x100#32 (.thumb 0x4108#16) [(0, 0x80000000#32), (1, 0x28#32)] [])
        (fun t => (t.readReg 0, t.cpsr.word, t.pc)) =
      some (0xFFFFFFFF#32, 0xA000003F#32, 0x106#32) := by decide

/-- ADC R0, R1. -/
theorem test_tAdc :
    after (start 0x2000003F#32 0x100#32 (.thumb 0x4148#16) [(0, 0xFFFFFFFF#32), (1, 0#32)] [])
        (fun t => (t.readReg 0, t.cpsr.word, t.pc)) = some (0#32, 0x6000003F#32, 0x106#32) := by decide

/-- SBC R0, R1 (C = 0). -/
theorem test_tSbc :
    after (start 0x3F#32 0x100#32 (.thumb 0x4188#16) [(0, 5#32), (1, 3#32)] [])
        (fun t => (t.readReg 0, t.cpsr.word, t.pc)) = some (1#32, 0x2000003F#32, 0x106#32) := by decide

/-- ROR R0, R1 (R1 = 4). -/
theorem test_tRorReg :
    after (start 0x3F#32 0x100#32 (.thumb 0x41C8#16) [(0, 0xF#32), (1, 4#32)] [])
        (fun t => (t.readReg 0, t.cpsr.word, t.pc)) =
      some (0xF0000000#32, 0xA000003F#32, 0x106#32) := by decide

/-- TST R0, R1. -/
theorem test_tTst :
    after (start 0x8000003F#32 0x100#32 (.thumb 0x4208#16) [(0, 1#32), (1, 2#32)] [])
        (fun t => (t.readReg 0, t.cpsr.word, t.pc)) = some (1#32, 0x4000003F#32, 0x106#32) := by decide

/-- NEG R0, R1 (R1 = 0x80000000). -/
theorem test_tNeg :
    after (start 0x3F#32 0x100#32 (.thumb 0x4248#16) [(1, 0x80000000#32)] [])
        (fun t => (t.readReg 0, t.cpsr.word, t.pc)) =
      some (0x80000000#32, 0x9000003F#32, 0x106#32) := by decide

/-- CMP R0, R1. -/
theorem test_tCmpReg :
    after (start 0x3F#32 0x100#32 (.thumb 0x4288#16) [(0, 1#32), (1, 1#32)] [])
        (fun t => (t.cpsr.word, t.pc)) = some (0x6000003F#32, 0x106#32) := by decide

/-- CMN R0, R1. -/
theorem test_tCmn :
    after (start 0x3F#32 0x100#32 (.thumb 0x42C8#16) [(0, 0x7FFFFFFF#32), (1, 1#32)] [])
        (fun t => (t.cpsr.word, t.pc)) = some (0x9000003F#32, 0x106#32) := by decide

/-- ORR R0, R1. -/
theorem test_tOrr :
    after (start 0x8000003F#32 0x100#32 (.thumb 0x4308#16) [(0, 0#32), (1, 0#32)] [])
        (fun t => (t.readReg 0, t.cpsr.word, t.pc)) = some (0#32, 0x4000003F#32, 0x106#32) := by decide

/-- MUL R0, R1. -/
theorem test_tMul :
    after (start 0x3000003F#32 0x100#32 (.thumb 0x4348#16) [(0, 0x10001#32), (1, 0x10001#32)] [])
        (fun t => (t.readReg 0, t.cpsr.word, t.pc)) = some (0x20001#32, 0x3000003F#32, 0x106#32) := by decide

/-- BIC R0, R1. -/
theorem test_tBic :
    after (start 0x3F#32 0x100#32 (.thumb 0x4388#16) [(0, 0xFF#32), (1, 0xF#32)] [])
        (fun t => (t.readReg 0, t.cpsr.word, t.pc)) = some (0xF0#32, 0x3F#32, 0x106#32) := by decide

/-- MVN R0, R1. -/
theorem test_tMvn :
    after (start 0x3F#32 0x100#32 (.thumb 0x43C8#16) [(1, 0xFFFFFFFF#32)] [])
        (fun t => (t.readReg 0, t.cpsr.word, t.pc)) = some (0#32, 0x4000003F#32, 0x106#32) := by decide

/-- ADD R0, R8 (no flags). -/
theorem test_tAddHi :
    after (start 0x8000003F#32 0x100#32 (.thumb 0x4440#16) [(0, 0xFFFFFFFF#32), (8, 1#32)] [])
        (fun t => (t.readReg 0, t.cpsr.word, t.pc)) = some (0#32, 0x8000003F#32, 0x106#32) := by decide

/-- ADD PC, R1 (branch). -/
theorem test_tAddHi_pc :
    after (start 0x3F#32 0x100#32 (.thumb 0x448F#16) [(1, 0x101#32)] [])
        (fun t => (t.cpsr.word, t.pc)) = some (0x3F#32, 0x208#32) := by decide

/-- CMP R8, R9. -/
theorem test_tCmpHi :
    after (start 0x3F#32 0x100#32 (.thumb 0x45C8#16) [(8, 1#32), (9, 2#32)] [])
        (fun t => (t.cpsr.word, t.pc)) = some (0x8000003F#32, 0x106#32) := by decide

/-- MOV PC, LR. -/
theorem test_tMovHi_pc :
    after (start 0x3F#32 0x100#32 (.thumb 0x46F7#16) [(14, 0x301#32)] [])
        (fun t => (t.cpsr.word, t.pc)) = some (0x3F#32, 0x304#32) := by decide

/-- MOV R0, PC. -/
theorem test_tMovHi :
    after (start 0x3F#32 0x100#32 (.thumb 0x4678#16) [] [])
        (fun t => (t.readReg 0, t.cpsr.word, t.pc)) = some (0x104#32, 0x3F#32, 0x106#32) := by decide

/-- BX R1 (to ARM). -/
theorem test_tBx :
    after (start 0x3F#32 0x100#32 (.thumb 0x4708#16) [(1, 0x202#32)] [])
        (fun t => (t.cpsr.word, t.pc)) = some (0x1F#32, 0x208#32) := by decide

/-- BX PC (at 0x102: PC = 0x106, to ARM at 0x104). -/
theorem test_tBx_pc :
    after (start 0x3F#32 0x102#32 (.thumb 0x4778#16) [] [])
        (fun t => (t.cpsr.word, t.pc)) = some (0x1F#32, 0x10C#32) := by decide

/-- ADD R0, PC, #4 (at 0x102: base 0x104). -/
theorem test_tAddPcImm :
    after (start 0x8000003F#32 0x102#32 (.thumb 0xA001#16) [] [])
        (fun t => (t.readReg 0, t.cpsr.word, t.pc)) = some (0x108#32, 0x8000003F#32, 0x108#32) := by decide

/-- ADD R1, SP, #8. -/
theorem test_tAddSpImm :
    after (start 0x3F#32 0x100#32 (.thumb 0xA902#16) [(13, 0x1000#32)] [])
        (fun t => (t.readReg 1, t.cpsr.word, t.pc)) = some (0x1008#32, 0x3F#32, 0x106#32) := by decide

/-- ADD SP, #-16. -/
theorem test_tAdjustSp :
    after (start 0x4000003F#32 0x100#32 (.thumb 0xB084#16) [(13, 0x1000#32)] [])
        (fun t => (t.readReg 13, t.cpsr.word, t.pc)) = some (0xFF0#32, 0x4000003F#32, 0x106#32) := by decide

/-! ## Formats 6 to 11, 14 and 15 (95 section 2.7) -/

/-- LDR R0, [PC, #4] (at 0x102: base 0x104). -/
theorem test_tLdrPc :
    after (start 0x3F#32 0x102#32 (.thumb 0x4801#16) [] [(0x108#32, 0x12345678#32)])
        (fun t => (t.readReg 0, t.cpsr.word, t.pc)) = some (0x12345678#32, 0x3F#32, 0x108#32) := by decide

/-- STR R0, [R1, R2]. -/
theorem test_tStrReg :
    after (start 0x3F#32 0x100#32 (.thumb 0x5088#16) [(0, 0xAABBCCDD#32), (1, 0x1000#32), (2, 4#32)] [])
        (fun t => (t.readWord 0x1004#32, t.cpsr.word, t.pc)) =
      some (0xAABBCCDD#32, 0x3F#32, 0x106#32) := by decide

/-- STRB R0, [R1, R2]. -/
theorem test_tStrbReg :
    after (start 0x3F#32 0x100#32 (.thumb 0x5488#16) [(0, 0xAABBCCDD#32), (1, 0x1000#32), (2, 1#32)] [])
        (fun t => (t.readWord 0x1000#32, t.cpsr.word, t.pc)) =
      some (0xDD00#32, 0x3F#32, 0x106#32) := by decide

/-- LDR R0, [R1, R2]. -/
theorem test_tLdrReg :
    after (start 0x3F#32 0x100#32 (.thumb 0x5888#16) [(1, 0x1000#32), (2, 4#32)] [(0x1004#32, 0x99#32)])
        (fun t => (t.readReg 0, t.cpsr.word, t.pc)) = some (0x99#32, 0x3F#32, 0x106#32) := by decide

/-- LDRB R0, [R1, R2]. -/
theorem test_tLdrbReg :
    after (start 0x3F#32 0x100#32 (.thumb 0x5C88#16) [(1, 0x1000#32), (2, 3#32)] [(0x1000#32, 0x80000000#32)])
        (fun t => (t.readReg 0, t.cpsr.word, t.pc)) = some (0x80#32, 0x3F#32, 0x106#32) := by decide

/-- STRH R0, [R1, R2]. -/
theorem test_tStrhReg :
    after (start 0x3F#32 0x100#32 (.thumb 0x5288#16) [(0, 0xAABBCCDD#32), (1, 0x1000#32), (2, 2#32)] [])
        (fun t => (t.readWord 0x1000#32, t.cpsr.word, t.pc)) =
      some (0xCCDD0000#32, 0x3F#32, 0x106#32) := by decide

/-- LDSB R0, [R1, R2]. -/
theorem test_tLdsbReg :
    after (start 0x3F#32 0x100#32 (.thumb 0x5688#16) [(1, 0x1000#32), (2, 0#32)] [(0x1000#32, 0xFF#32)])
        (fun t => (t.readReg 0, t.cpsr.word, t.pc)) = some (0xFFFFFFFF#32, 0x3F#32, 0x106#32) := by decide

/-- LDRH R0, [R1, R2]. -/
theorem test_tLdrhReg :
    after (start 0x3F#32 0x100#32 (.thumb 0x5A88#16) [(1, 0x1000#32), (2, 2#32)] [(0x1000#32, 0xFFFF0000#32)])
        (fun t => (t.readReg 0, t.cpsr.word, t.pc)) = some (0xFFFF#32, 0x3F#32, 0x106#32) := by decide

/-- LDSH R0, [R1, R2] (misaligned). -/
theorem test_tLdshReg :
    after (start 0x3F#32 0x100#32 (.thumb 0x5E88#16) [(1, 0x1000#32), (2, 1#32)] [(0x1000#32, 0x801100#32)])
        (fun t => (t.readReg 0, t.cpsr.word, t.pc)) = some (0xFFFF8011#32, 0x3F#32, 0x106#32) := by decide

/-- STR R0, [R1, #124]. -/
theorem test_tStrImm :
    after (start 0x3F#32 0x100#32 (.thumb 0x67C8#16) [(0, 1#32), (1, 0x1000#32)] [])
        (fun t => (t.readWord 0x107C#32, t.cpsr.word, t.pc)) = some (1#32, 0x3F#32, 0x106#32) := by decide

/-- LDR R0, [R1, #4]. -/
theorem test_tLdrImm :
    after (start 0x3F#32 0x100#32 (.thumb 0x6848#16) [(1, 0x1000#32)] [(0x1004#32, 0x31#32)])
        (fun t => (t.readReg 0, t.cpsr.word, t.pc)) = some (0x31#32, 0x3F#32, 0x106#32) := by decide

/-- STRB R0, [R1, #31]. -/
theorem test_tStrbImm :
    after (start 0x3F#32 0x100#32 (.thumb 0x77C8#16) [(0, 0x1FF#32), (1, 0x1000#32)] [])
        (fun t => (t.readWord 0x101C#32, t.cpsr.word, t.pc)) =
      some (0xFF000000#32, 0x3F#32, 0x106#32) := by decide

/-- LDRB R0, [R1, #1]. -/
theorem test_tLdrbImm :
    after (start 0x3F#32 0x100#32 (.thumb 0x7848#16) [(1, 0x1000#32)] [(0x1000#32, 0xAB00#32)])
        (fun t => (t.readReg 0, t.cpsr.word, t.pc)) = some (0xAB#32, 0x3F#32, 0x106#32) := by decide

/-- STRH R0, [R1, #62]. -/
theorem test_tStrhImm :
    after (start 0x3F#32 0x100#32 (.thumb 0x87C8#16) [(0, 0x12345#32), (1, 0x1000#32)] [])
        (fun t => (t.readWord 0x103C#32, t.cpsr.word, t.pc)) =
      some (0x23450000#32, 0x3F#32, 0x106#32) := by decide

/-- LDRH R0, [R1, #2]. -/
theorem test_tLdrhImm :
    after (start 0x3F#32 0x100#32 (.thumb 0x8848#16) [(1, 0x1000#32)] [(0x1000#32, 0xBEEF0000#32)])
        (fun t => (t.readReg 0, t.cpsr.word, t.pc)) = some (0xBEEF#32, 0x3F#32, 0x106#32) := by decide

/-- STR R0, [SP, #4]. -/
theorem test_tStrSp :
    after (start 0x3F#32 0x100#32 (.thumb 0x9001#16) [(0, 0x77#32), (13, 0x2000#32)] [])
        (fun t => (t.readWord 0x2004#32, t.cpsr.word, t.pc)) = some (0x77#32, 0x3F#32, 0x106#32) := by decide

/-- LDR R0, [SP, #1020]. -/
theorem test_tLdrSp :
    after (start 0x3F#32 0x100#32 (.thumb 0x98FF#16) [(13, 0x2000#32)] [(0x23FC#32, 0x42#32)])
        (fun t => (t.readReg 0, t.cpsr.word, t.pc)) = some (0x42#32, 0x3F#32, 0x106#32) := by decide

/-- PUSH (R4, LR). -/
theorem test_tPush :
    after (start 0x3F#32 0x100#32 (.thumb 0xB510#16) [(4, 0x44#32), (13, 0x8000#32), (14, 0x1235#32)] [])
        (fun t => (t.readReg 13, t.readWord 0x7FF8#32, t.readWord 0x7FFC#32, t.cpsr.word, t.pc)) =
      some (0x7FF8#32, 0x44#32, 0x1235#32, 0x3F#32, 0x106#32) := by decide

/-- POP (R4, PC). -/
theorem test_tPop :
    after (start 0x3F#32 0x100#32 (.thumb 0xBD10#16) 
          [(13, 0x7FF8#32)] [(0x7FF8#32, 0x44#32), (0x7FFC#32, 0x1235#32)])
        (fun t => (t.readReg 4, t.readReg 13, t.cpsr.word, t.pc)) =
      some (0x44#32, 0x8000#32, 0x3F#32, 0x1238#32) := by decide

/-- STMIA R0!, (R0) (base in list: original stored). -/
theorem test_tStmia :
    after (start 0x3F#32 0x100#32 (.thumb 0xC001#16) [(0, 0x1000#32)] [])
        (fun t => (t.readReg 0, t.readWord 0x1000#32, t.cpsr.word, t.pc)) =
      some (0x1004#32, 0x1000#32, 0x3F#32, 0x106#32) := by decide

/-- LDMIA R0!, (R0, R1) (base in list: load wins). -/
theorem test_tLdmia :
    after (start 0x3F#32 0x100#32 (.thumb 0xC803#16) 
          [(0, 0x1000#32)] [(0x1000#32, 0x11#32), (0x1004#32, 0x22#32)])
        (fun t => (t.readReg 0, t.readReg 1, t.cpsr.word, t.pc)) =
      some (0x11#32, 0x22#32, 0x3F#32, 0x106#32) := by decide

/-! ## Formats 18 and 19 (95 section 2.8) -/

/-- B -1024 halfwords. -/
theorem test_tB :
    after (start 0x3F#32 0x1000#32 (.thumb 0xE400#16) [] [])
        (fun t => (t.cpsr.word, t.pc)) = some (0x3F#32, 0x808#32) := by decide

/-- BL first half, offset -1. -/
theorem test_tBlFirst :
    after (start 0x3F#32 0x100#32 (.thumb 0xF7FF#16) [] [])
        (fun t => (t.readReg 14, t.cpsr.word, t.pc)) = some (0xFFFFF104#32, 0x3F#32, 0x106#32) := by decide

/-- BL second half alone, R14 = 0x2000. -/
theorem test_tBlSecond :
    after (start 0x3F#32 0x100#32 (.thumb 0xF804#16) [(14, 0x2000#32)] [])
        (fun t => (t.readReg 14, t.cpsr.word, t.pc)) = some (0x103#32, 0x3F#32, 0x200C#32) := by decide
/-- One branch of format 16 at `0x100` with offset +2: where R15 is after it (taken: `0x104 + 4 + 4`). -/
def branchPc (h : Half) (cpsr : Word) : Option Word := after (start cpsr 0x100#32 (.thumb h) [] []) State.pc

/-! The fourteen conditions, each with flags that do not pass and flags that pass (R92, R361). -/

theorem test_tBeq : branchPc 0xD002#16 0x3F#32 = some 0x106#32 ∧
    branchPc 0xD002#16 0x4000003F#32 = some 0x10C#32 := by decide

theorem test_tBne : branchPc 0xD102#16 0x4000003F#32 = some 0x106#32 ∧
    branchPc 0xD102#16 0x3F#32 = some 0x10C#32 := by decide

theorem test_tBcs : branchPc 0xD202#16 0x3F#32 = some 0x106#32 ∧
    branchPc 0xD202#16 0x2000003F#32 = some 0x10C#32 := by decide

theorem test_tBcc : branchPc 0xD302#16 0x2000003F#32 = some 0x106#32 ∧
    branchPc 0xD302#16 0x3F#32 = some 0x10C#32 := by decide

theorem test_tBmi : branchPc 0xD402#16 0x3F#32 = some 0x106#32 ∧
    branchPc 0xD402#16 0x8000003F#32 = some 0x10C#32 := by decide

theorem test_tBpl : branchPc 0xD502#16 0x8000003F#32 = some 0x106#32 ∧
    branchPc 0xD502#16 0x3F#32 = some 0x10C#32 := by decide

theorem test_tBvs : branchPc 0xD602#16 0x3F#32 = some 0x106#32 ∧
    branchPc 0xD602#16 0x1000003F#32 = some 0x10C#32 := by decide

theorem test_tBvc : branchPc 0xD702#16 0x1000003F#32 = some 0x106#32 ∧
    branchPc 0xD702#16 0x3F#32 = some 0x10C#32 := by decide

theorem test_tBhi : branchPc 0xD802#16 0x6000003F#32 = some 0x106#32 ∧
    branchPc 0xD802#16 0x2000003F#32 = some 0x10C#32 := by decide

theorem test_tBls : branchPc 0xD902#16 0x2000003F#32 = some 0x106#32 ∧
    branchPc 0xD902#16 0x6000003F#32 = some 0x10C#32 := by decide

theorem test_tBge : branchPc 0xDA02#16 0x8000003F#32 = some 0x106#32 ∧
    branchPc 0xDA02#16 0x9000003F#32 = some 0x10C#32 := by decide

theorem test_tBlt : branchPc 0xDB02#16 0x9000003F#32 = some 0x106#32 ∧
    branchPc 0xDB02#16 0x1000003F#32 = some 0x10C#32 := by decide

theorem test_tBgt : branchPc 0xDC02#16 0x5000003F#32 = some 0x106#32 ∧
    branchPc 0xDC02#16 0x9000003F#32 = some 0x10C#32 := by decide

theorem test_tBle : branchPc 0xDD02#16 0x3F#32 = some 0x106#32 ∧
    branchPc 0xDD02#16 0x4000003F#32 = some 0x10C#32 := by decide

/-- B of the 32-bit set forward, and with its condition failing (95 section 2.4). -/
theorem test_b : after (start 0x1F#32 0x100#32 (.arm 0xEA000002#32) [] []) State.pc = some 0x118#32 ∧
    after (start 0x1F#32 0x100#32 (.arm 0x0A000002#32) [] []) State.pc = some 0x10C#32 := by decide

/-! ## Primitives (95 section 2.1) -/

/-- A result and its flags, N Z C V. -/
def alu (v : Word) (n z c v' : Bool) : AluResult := ⟨v, ⟨n, z, c, v'⟩⟩

theorem test_add_primitive :
    add 0x7FFFFFFF#32 1#32 0#32 = alu 0x80000000#32 true false false true ∧
      add 0x80000000#32 0xFFFFFFFF#32 1#32 = alu 0x80000000#32 true false true true ∧
      add 0xFFFFFFFF#32 0#32 1#32 = alu 0#32 false true true false := by decide

/-- The six clauses of `Obligations.SubPrimitive`, at boundary values. -/
theorem test_sub_primitive :
    sub 5#32 5#32 0#32 = alu 0#32 false true true false ∧
      sub 5#32 0#32 0#32 = alu 5#32 false false false false ∧
      sub 3#32 5#32 1#32 = alu 0xFFFFFFFD#32 true false true false ∧
      sub 0#32 0#32 1#32 = alu 0xFFFFFFFF#32 true false false false ∧
      sub 5#32 0#32 1#32 = alu 4#32 false false true false ∧
      sub 0x7FFFFFFF#32 0xFFFFFFFF#32 0#32 = alu 0x80000000#32 true false false true ∧
      sub 0xFFFFFFFF#32 0x80000000#32 0#32 = alu 0x7FFFFFFF#32 false false true true := by decide

/-- Amounts 0, 1, 31, 32, 33 and 255 of `0x80000001`. -/
theorem test_shift_lsl : [0, 1, 31, 32, 33, 255].map (lsl true 0x80000001#32) =
    [(0x80000001#32, true), (2#32, true), (0x80000000#32, false), (0#32, true), (0#32, false),
      (0#32, false)] := by decide

theorem test_shift_lsr : [0, 1, 31, 32, 33, 255].map (lsr 0x80000001#32) =
    [(0#32, true), (0x40000000#32, true), (1#32, false), (0#32, true), (0#32, false), (0#32, false)] := by
  decide

theorem test_shift_asr : [0, 1, 31, 32, 33, 255].map (asr 0x80000001#32) =
    [(0xFFFFFFFF#32, true), (0xC0000000#32, true), (0xFFFFFFFF#32, false), (0xFFFFFFFF#32, true),
      (0xFFFFFFFF#32, true), (0xFFFFFFFF#32, true)] := by decide

theorem test_shift_ror : [0, 1, 31, 32, 33, 255].map (ror true 0x80000001#32) =
    [(0x80000001#32, true), (0xC0000000#32, true), (3#32, false), (0x80000001#32, true), (0xC0000000#32, true),
      (3#32, false)] := by decide

/-! ## Exceptions, reset and refusals -/

/-- Kinds made pending from outside. -/
def raising (ks : List ExcKind) (s : State) : State := ks.foldl State.raiseException s

/-- The machine of 95 section 1.1: Thumb state, User mode, Z and C set, about to run the halfword at `0x2000`. -/
def entryStart (k : ExcKind) : State := raising [k] (start 0x60000030#32 0x2000#32 (.thumb 0x46C0#16) [] [])

/-- The CPSR, R14 and SPSR of the entry mode, and R15 after the entry tick. -/
def entrySeen (k : ExcKind) (t : State) : Word × Word × Word × Word :=
  (t.cpsr.word, t.readReg 14, (t.spsr.get k.entryMode).word, t.pc)

/-- The table of 95 section 1.1. -/
theorem test_entry_table : ∀ p ∈ [
    (ExcKind.reset, 0x600000D3#32, 0x8#32), (.dataAbort, 0x60000097#32, 0x18#32),
    (.fastInterrupt, 0x600000D1#32, 0x24#32), (.interrupt, 0x60000092#32, 0x20#32),
    (.prefetchAbort, 0x60000097#32, 0x14#32), (.softwareInterrupt, 0x60000093#32, 0x10#32),
    (.undefinedInstr, 0x6000009B#32, 0xC#32)],
    after (entryStart p.1) (entrySeen p.1) = some (p.2.1, 0x2000#32, 0x60000030#32, p.2.2) := by decide

/-- The first row of 95 section 1.2. -/
theorem test_reset_operation :
    let s := raising [.interrupt] (start 0xA0000030#32 0x3000#32 (.thumb 0x46C0#16) [(14, 0x1234#32)]
      [(0#32, 0xE3A00001#32), (4#32, 0xE3A00002#32)])
    let t := s.hostReset
    (t.cpsr.word, t.spsr.svc.word, t.readReg 14) = (0xA00000D3#32, 0xA0000030#32, 0#32) ∧
      (t.pc, t.pipeCur, t.pipeNext) = (8#32, 0xE3A00001#32, 0xE3A00002#32) ∧
      t.pending = Pending.none ∧ t.running = true := by decide

/-- The values that the spec gives the state after reset (10_state.md R50). -/
theorem test_reset_state : State.reset.cpsr.word = 0xD3#32 ∧ State.reset.pc = 8#32 ∧
    State.reset.readReg 14 = 0#32 ∧ State.reset.running = true ∧ State.reset.mem = [] ∧
    State.powerOn.running = false := by decide

/-- `MOV R0, #1` about to run with kinds raised: R0, the CPSR, R15, R14 and the kinds still pending. -/
def maskingSeen (cpsr : Word) (ks : List ExcKind) : Option (Word × Word × Word × Word × Pending) :=
  after (raising ks (start cpsr 0x100#32 (.arm 0xE3A00001#32) [] []))
    fun t => (t.readReg 0, t.cpsr.word, t.pc, t.readReg 14, t.pending)

/-- Masked kinds are dropped and the instruction runs (95 section 1.3, rows 1 to 3). -/
theorem test_masked : ∀ p ∈ [
    (0x9F#32, [ExcKind.interrupt]), (0x5F#32, [.fastInterrupt]), (0xDF#32, [.interrupt, .fastInterrupt])],
    maskingSeen p.1 p.2 = some (1#32, p.1, 0x10C#32, 0#32, Pending.none) := by decide

/-- A mask guards its own kind alone (rows 4 to 7 and 9). -/
theorem test_not_masked : ∀ p ∈ [
    (0x9F#32, [ExcKind.fastInterrupt], 0xD1#32, 0x24#32), (0x5F#32, [.interrupt], 0xD2#32, 0x20#32),
    (0x9F#32, [.interrupt, .softwareInterrupt], 0x93#32, 0x10#32),
    (0xDF#32, [.fastInterrupt, .interrupt, .undefinedInstr], 0xDB#32, 0xC#32),
    (0xDF#32, [.dataAbort], 0xD7#32, 0x18#32)],
    maskingSeen p.1 p.2.1 = some (0#32, p.2.2.1, p.2.2.2, 0x104#32, Pending.none) := by decide

/-- The first unmasked kind ends the walk; the others stay pending (row 8). -/
theorem test_one_entry_per_tick : maskingSeen 0x1F#32 [.fastInterrupt, .interrupt] =
    some (0#32, 0xD1#32, 0x24#32, 0x104#32, Pending.none.set .interrupt true) := by decide

/-- The second tick of 95 section 1.4: DataAbort after Reset, and what is then pending. -/
theorem test_priority_second_tick :
    after (raising [.dataAbort, .fastInterrupt, .interrupt, .undefinedInstr]
          (start 0xD3#32 0#32 (.arm 0#32) [] []))
        (fun t => (t.readReg 14, t.spsr.abt.word, t.cpsr.word, t.pc, t.pending.get .dataAbort)) =
      some (4#32, 0xD3#32, 0xD7#32, 0x18#32, false) := by decide

/-- An unallocated word and an unallocated halfword become pending and change nothing else in their tick. -/
theorem test_undefined :
    after (start 0x1F#32 0x100#32 (.arm 0xE7F000F0#32) [] []) (fun t => (t.pending, t.cpsr.word, t.pc)) =
        some (Pending.none.set .undefinedInstr true, 0x1F#32, 0x10C#32) ∧
      after (start 0x3F#32 0x100#32 (.thumb 0x4780#16) [] []) (fun t => (t.pending, t.cpsr.word, t.pc)) =
        some (Pending.none.set .undefinedInstr true, 0x3F#32, 0x106#32) := by decide

/-- SWI of the 16-bit set. -/
theorem test_tSwi :
    after (start 0x20000030#32 0x100#32 (.thumb 0xDF01#16) [] []) (fun t => (t.pending, t.cpsr.word, t.pc)) =
      some (Pending.none.set .softwareInterrupt true, 0x20000030#32, 0x106#32) := by decide

/-- The reason of a refusal, where a step is refused. -/
def refusal (s : State) : Option Refusal :=
  match step s with
  | .refused r => some r
  | _ => none

/-- The refusals of 95 section 2.2: no SPSR for MRS and for a return, a change of T, a mode that is none. -/
theorem test_refusals :
    refusal (start 0x1F#32 0x100#32 (.arm 0xE14F0000#32) [] []) = some .noSpsr ∧
      refusal (start 0x1F#32 0x100#32 (.arm 0xE1B0F00E#32) [(14, 0x2000#32)] []) = some .noSpsr ∧
      refusal (start 0x13#32 0x100#32 (.arm 0xE321F030#32) [] []) = some .msrChangesT ∧
      refusal (start 0x13#32 0x100#32 (.arm 0xE321F005#32) [] []) = some .invalidMode := by decide

/-- A return whose saved mode field is 0 is refused (R34). -/
theorem test_return_to_no_mode :
    refusal (start 0x13#32 0x100#32 (.arm 0xE1B0F00E#32) [(14, 0x2000#32)] []) = some .invalidMode := by decide

/-- MSR to the control field in User mode is ignored (95 section 2.2). -/
theorem test_msr_user : after (start 0x10#32 0x100#32 (.arm 0xE321F0D3#32) [] []) (fun t => t.cpsr.word) =
    some 0x10#32 := by decide

/-- MSR to the SPSR keeps any mode value (R204). -/
theorem test_msr_spsr : after (start 0x17#32 0x100#32 (.arm 0xE169F001#32) [(1, 0xF00000FF#32)] [])
    (fun t => (t.spsr.abt.word, t.cpsr.word)) = some (0xF00000FF#32, 0x17#32) := by decide

/-- A mode change banks R13 (95 section 2.2, `MSR CPSR_c, #0xD2`). -/
theorem test_banks :
    after (start 0x13#32 0x100#32 (.arm 0xE321F0D2#32) [(13, 0x1111#32)] [])
        (fun t => (t.readReg 13, t.regs.read (phys .supervisor 13), t.cpsr.word)) =
      some (0#32, 0x1111#32, 0xD2#32) := by decide

/-- `withFetchWord` places one instruction of either set so that the first step after reset runs it. -/
theorem test_withFetchWord :
    after (State.reset.withFetchWord 32 0xE3A00009) (fun t => (t.readReg 0, t.cpsr.t)) = some (9#32, false) ∧
      after (State.reset.withFetchWord 16 0x2565) (fun t => (t.readReg 5, t.cpsr.t)) =
        some (0x65#32, true) := by decide

/-- A store over the next instruction is not seen by the instruction already fetched (70 R430). -/
theorem test_store_over_next :
    after (start 0x1F#32 0x100#32 (.arm 0xE5810000#32) [(0, 0xEA000000#32), (1, 0x104#32)]
          [(0x104#32, 0xE3A02007#32)])
        (fun t => (t.pipeCur, t.readWord 0x104#32)) = some (0xE3A02007#32, 0xEA000000#32) := by decide

/-! ## Witnesses: a state and operands that meet the hypotheses of each obligation -/

/-- `MOV R0, R0` about to run at `0x100` in System mode. -/
def armState : State := start 0x1F#32 0x100#32 (.arm 0xE1A00000#32) [] []

/-- `MOV R8, R8` of the 16-bit set about to run at `0x100` in User mode. -/
def thumbState : State := start 0x30#32 0x100#32 (.thumb 0x46C0#16) [] []

/-- IRQ mode with a saved status that names User mode in Thumb state. -/
def irqState : State := withSpsr 0x80000030#32 (start 0x92#32 0x100#32 (.arm 0xE25EF004#32) [(14, 0x2004#32)] [])

/-- What holds of each kind in the list of all kinds holds of every kind. -/
theorem forall_kind {P : ExcKind → Prop} (h : ∀ k ∈ ExcKind.byPriority, P k) (k : ExcKind) : P k :=
  h k (by cases k <;> decide)

theorem witness_DecodeOfEncode : Instr.wellFormed (.ldm .nv ⟨true, true, true⟩ true 15 0xFFFF#16) = true ∧
    Instr.wellFormed (.undefinedArm .eq 0xEFFFFFF#28) = true := by decide

/-- The last words and halfwords of unallocated ranges, and a condition that passes. -/
theorem witness_UnallocatedEncodings :
    unallocatedArm ((0xEEFFFFFF#32).extractLsb' 0 28) = true ∧
      condPassed (Cond.ofBits ((0xEEFFFFFF#32).extractLsb' 28 4)) State.reset.cpsr.flags = true ∧
      decodeThumb 0xB100#16 = .tUndefined 0xB100#16 ∧ decodeThumb 0x47FF#16 = .tUndefined 0x47FF#16 := by decide

theorem witness_StepRunsDecodedInstruction_arm :
    armState.running = true ∧ armState.pending = Pending.none ∧ armState.cpsr.t = false ∧
      armState.pipeCur = armState.readWord (armState.pc - 8) ∧
      decodeBytes false [armState.readByte (armState.pc - 8), armState.readByte (armState.pc - 7),
        armState.readByte (armState.pc - 6), armState.readByte (armState.pc - 5)] =
          .ok (.mov .al false 0 0 (.regImm 0 .lsl 0), []) :=
  ⟨rfl, rfl, rfl, by decide, rfl⟩

theorem witness_StepRunsDecodedInstruction_thumb :
    thumbState.running = true ∧ thumbState.pending = Pending.none ∧ thumbState.cpsr.t = true ∧
      thumbState.pipeCur = (thumbState.readHalf (thumbState.pc - 4)).zeroExtend 32 ∧
      decodeBytes true [thumbState.readByte (thumbState.pc - 4), thumbState.readByte (thumbState.pc - 3)] =
        .ok (.tMovHi 8 8, []) :=
  ⟨rfl, rfl, rfl, by decide, rfl⟩

/-- Both clauses: all pending kinds masked; the first unmasked kind behind a masked one. -/
theorem witness_ServiceTakesHighestUnmasked :
    (let s := raising [.fastInterrupt, .interrupt] (start 0xDF#32 0x100#32 (.arm 0#32) [] [])
     s.running = true ∧ ∀ k, s.pending.get k = true → s.cpsr.masks k = true) ∧
    (let s := raising [.fastInterrupt, .prefetchAbort, .undefinedInstr] (start 0xDF#32 0x100#32 (.arm 0#32) [] [])
     s.running = true ∧ s.pending.get .prefetchAbort = true ∧ s.cpsr.masks .prefetchAbort = false ∧
       ∀ j, j.code < ExcKind.code .prefetchAbort → s.pending.get j = true → s.cpsr.masks j = true) :=
  ⟨⟨rfl, forall_kind (by decide)⟩, rfl, rfl, rfl, forall_kind (by decide)⟩

theorem witness_RunStateAndRaise : State.powerOn.running = false ∧ ∃ t, step armState = .next t :=
  ⟨rfl, _, rfl⟩

theorem witness_StepKeepsInvariant : armState.Inv ∧ thumbState.Inv ∧ ∃ t, step thumbState = .next t :=
  ⟨by decide, by decide, _, rfl⟩

theorem witness_ResetMeetsInvariant : Memory.wf [] = true ∧ armState.mem.wf = true ∧ armState.mem ≠ [] := by decide

/-- Nothing pending unmasked and nothing to refuse; and a refusal of each kind. -/
theorem witness_RefusalsExactlyWhereSpecRefuses :
    (∀ k, armState.pending.get k = true → armState.cpsr.masks k = true) ∧
      refusalOf armState.currentInstr armState = none ∧
      refusalOf (.mrs .al true 0) armState = some .noSpsr ∧
      refusalOf (.msr .al false ⟨false, false, false, true⟩ (.imm 0 0x30#8)) armState = some .msrChangesT ∧
      refusalOf (.msr .al false ⟨false, false, false, true⟩ (.imm 0 5#8)) armState = some .invalidMode :=
  ⟨forall_kind (by decide), by decide, by decide, by decide, by decide⟩

theorem witness_UserModeIsConfined : thumbState.cpsr.mode = .user ∧ (∀ r, phys .user r ≠ .svc 1) ∧
    ∃ t, exec (.msr .al false ⟨true, false, false, true⟩ (.imm 0 0xD3#8)) thumbState = .next t :=
  ⟨rfl, by decide, _, rfl⟩

/-- BX and a return change T; MSR changes the mode and a mask. -/
theorem witness_StatusControlChanges :
    (∃ t, exec (.tBx 0 0#3) thumbState = .next t ∧ t.cpsr.t ≠ thumbState.cpsr.t) ∧
      (∃ t, exec (.sub .al true 14 15 (.imm 0 4#8)) irqState = .next t ∧ t.cpsr.t ≠ irqState.cpsr.t ∧
        t.cpsr.mode ≠ irqState.cpsr.mode) ∧
      ∃ t, exec (.msr .al false ⟨false, false, false, true⟩ (.imm 0 0xD2#8)) armState = .next t ∧
        t.cpsr.mode ≠ armState.cpsr.mode ∧ t.cpsr.i ≠ armState.cpsr.i ∧ t.cpsr.f ≠ armState.cpsr.f :=
  ⟨⟨_, rfl, by decide⟩, ⟨_, rfl, by decide, by decide⟩, _, rfl, by decide, by decide, by decide⟩

/-- One instruction for each thing it names: no store, no MSR to the SPSR, a software interrupt. -/
theorem witness_InstructionsLeaveTheRest :
    (∃ t, exec (.ldr .al ⟨true, true, true⟩ 1 0 (.imm 4#12)) armState = .next t) ∧
      (∃ t, exec (.msr .al true ⟨true, false, false, true⟩ (.imm 0 0#8)) irqState = .next t ∧
        t.spsr ≠ irqState.spsr) ∧
      ∃ t, exec (.swi .al 0#24) armState = .next t ∧
        t.pending = armState.pending.set .softwareInterrupt true ∧ t.pending ≠ armState.pending :=
  ⟨⟨_, rfl⟩, ⟨_, rfl, by decide⟩, _, rfl, by decide, by decide⟩

/-- NE with Z = 1 (a word and a term), and 1111. -/
theorem witness_ConditionField :
    condPassed (Cond.ofBits ((0x17F000F0#32).extractLsb' 28 4)) ⟨false, true, false, false⟩ = false ∧
      Instr.cond? (.undefinedArm .ne 0x7F000F0#28) = some .ne ∧
      condPassed .ne ⟨false, true, false, false⟩ = false ∧
      condPassed (Cond.ofBits ((0xF3A00009#32).extractLsb' 28 4)) State.reset.cpsr.flags = false := by decide

/-- `Obligations.SubPrimitive`: one pair of operands for each of its six clauses (their results stand above). -/
theorem witness_SubPrimitive :
    (1#32 ≠ 0#32 ∧ 0xFFFFFFFF#32 ≠ 0#32) ∧ (0x7FFFFFFF#32 ≠ 0x80000000#32 ∧ 0x80000001#32 ≠ 0x80000000#32) ∧
      (sub 0#32 1#32 0#32).flags.c = false ∧ (sub 0x80000000#32 0x80000000#32 0#32).flags.v = true ∧
      (sub 0#32 0xFFFFFFFF#32 1#32).flags.c = true := by decide

/-- `Obligations.ShiftPrimitives`: the amounts where its clauses meet. -/
theorem witness_ShiftPrimitives :
    lsl false 0x80000001#32 0 = (0x80000001#32, false) ∧ lsl false 0x80000001#32 1 = (2#32, true) ∧
      lsl false 0x80000001#32 32 = (0#32, true) ∧ lsl true 0x80000001#32 33 = (0#32, false) := by decide

/-- Rotate 0 and 1; a register amount of 0 (from `0x100`), 1 and 255. -/
theorem witness_SecondOperandForms :
    let s := start 0x2000001F#32 0x100#32 (.arm 0#32)
      [(1, 0x80000001#32), (2, 0x100#32), (3, 1#32), (4, 0xFFFFFFFF#32)] []
    (s.operand2 (.imm 0 0x80#8) = (0x80#32, true) ∧ s.operand2 (.imm 1 2#8) = (0x80000000#32, true)) ∧
      (s.operand2 (.regImm 1 .lsr 0) = (0#32, true) ∧ s.operand2 (.regImm 1 .ror 0) = (0x80000001#32, true)) ∧
      (s.operand2 (.regReg 1 .lsr 2) = (0x80000001#32, true) ∧ s.operand2 (.regReg 1 .lsl 3) = (2#32, true) ∧
        s.operand2 (.regReg 1 .asr 4) = (0xFFFFFFFF#32, true)) := by decide

/-- The first and last registers of each bank that is its own (10_state.md R23). -/
theorem witness_BankedRegistersAreSeparate :
    ((14 : Reg) ≠ 15) ∧ phys .fiq 8 ≠ phys .irq 8 ∧ phys .irq 12 = phys .user 12 ∧
      phys .supervisor 13 ≠ phys .system 13 ∧ phys .user 14 = phys .system 14 ∧ phys .fiq 7 = phys .abort 7 := by
  decide

/-- The mode numbers of R32; the first value after the last of them and the one between 0x13 and 0x17. -/
theorem witness_StatusWordLayout : Mode.ofBits? 0x10#5 = some .user ∧ Mode.ofBits? 0x1F#5 = some .system ∧
    Mode.ofBits? 0x0F#5 = none ∧ Mode.ofBits? 0x14#5 = none ∧ (Cpsr.word ⟨⟨false, false, false, false⟩, true, true,
      false, .supervisor⟩) = 0x000000D3#32 := by decide

/-- A word stored over the end of the address space wraps. -/
theorem witness_LittleEndianComposition : armState.mem.wf = true ∧
    (armState.writeWord 0xFFFFFFFE#32 0x44332211#32).readByte 0#32 = 0x33#8 ∧
      (armState.writeWord 0xFFFFFFFE#32 0x44332211#32).readHalf 0xFFFFFFFE#32 = 0x2211#16 := by decide

/-- STR with writeback, STM of an empty list with R15 as base, and STR of format 7. -/
theorem witness_PipelineBuffer : ∀ s ∈ [start 0x1F#32 0x100#32 (.arm 0xE5A10004#32) [] [],
      start 0x1F#32 0x100#32 (.arm 0xE8AF0000#32) [] [], start 0x3F#32 0x100#32 (.thumb 0x5088#16) [] []],
    s.running = true ∧ s.pending = Pending.none ∧ s.align s.pc = s.pc ∧ isStore s.currentInstr = true ∧
      storeWritesPc s.currentInstr = false := by decide

/-- Every kind, alone and not masked. -/
theorem witness_EntryTickProperties (k : ExcKind) : (entryStart k).running = true ∧
    (∀ j, (entryStart k).pending.get j = (j == k)) ∧ (entryStart k).cpsr.masks k = false := by
  cases k <;> exact ⟨rfl, forall_kind (by decide), rfl⟩

/-- Both clauses of `Obligations.MaskedInterruptIsDropped`, the second also with a masked FastInterrupt pending. -/
theorem witness_MaskedInterruptIsDropped :
    let s := start 0xDF#32 0x100#32 (.arm 0xE3A00001#32) [] []
    (s.running = true ∧ s.pending.reset = false ∧ s.pending.dataAbort = false) ∧
      (s.cpsr.f = true ∧ s.pending.fastInterrupt = false) ∧
      (s.cpsr.i = true ∧ s.pending.interrupt = false ∧ (s.pending.fastInterrupt = true → s.cpsr.f = true)) ∧
      (let u := s.raiseException .fastInterrupt
       u.pending.interrupt = false ∧ u.pending.fastInterrupt = true ∧ u.cpsr.f = true) := by decide

/-- Two kinds pending: the second dropped (FastInterrupt after Reset), and the second entered. -/
theorem witness_SimultaneousExceptions :
    (let s := raising [.reset, .fastInterrupt] armState
     s.running = true ∧ (∀ j, s.pending.get j = (j == .reset || j == .fastInterrupt)) ∧
       s.cpsr.masks .reset = false) ∧
    (let s := raising [.dataAbort, .undefinedInstr] armState
     s.running = true ∧ (∀ j, s.pending.get j = (j == .dataAbort || j == .undefinedInstr)) ∧
       s.cpsr.masks .dataAbort = false) :=
  ⟨⟨rfl, forall_kind (by decide), rfl⟩, rfl, forall_kind (by decide), rfl⟩

/-- An interrupt of ARM and of Thumb code. -/
theorem witness_ReturnResumesInterruptedCode : ∀ s ∈ [armState, thumbState],
    (raising [.interrupt] s).running = true ∧ s.align s.pc = s.pc ∧
      (raising [.interrupt] s).pending.get .interrupt = true ∧ s.cpsr.masks .interrupt = false ∧
      ∀ j ∈ ExcKind.byPriority, j.code < ExcKind.code .interrupt → (raising [.interrupt] s).pending.get j = true →
        s.cpsr.masks j = true := by decide

/-- The four instructions that make an exception pending, each about to run. -/
theorem witness_TrapIsEnteredOneTickLater : ∀ p ∈ [
    (start 0x10#32 0x100#32 (.arm 0xEF123456#32) [] [], Instr.swi .al 0x123456#24),
    (start 0x10#32 0x100#32 (.arm 0xE7F000F0#32) [] [], .undefinedArm .al 0x7F000F0#28),
    (start 0x30#32 0x100#32 (.thumb 0xDF01#16) [] [], .tSwi 1#8),
    (start 0x30#32 0x100#32 (.thumb 0xDE00#16) [] [], .tUndefined 0xDE00#16)],
    p.1.running = true ∧ p.1.pending = Pending.none ∧ p.1.align p.1.pc = p.1.pc ∧ p.1.currentInstr = p.2 ∧
      passes p.2 p.1 = true := by decide

/-- The statements that ask for a passing condition and nothing else (`TrapsOnlyBecomePending`,
`MrsReadsStatus`, `MsrWritesCpsr`, `MsrWritesSpsr`, `MultiplyAndAccumulate`, `LongMultiply`, `ArmBranches`,
`BranchExchange`, `ArmLoads`): AL, and EQ with Z = 1. -/
theorem witness_condition_passes : condPassed .al armState.cpsr.flags = true ∧
    condPassed .eq (start 0x4000001F#32 0x100#32 (.arm 0#32) [] []).cpsr.flags = true := by decide

/-- `LogicalOperations`, `ArithmeticOperations`: S = 1 with Rd = 14, and S = 0 with Rd = 15. -/
theorem witness_LogicalOperations : condPassed .al armState.cpsr.flags = true ∧
    (true = true → (14 : Reg) ≠ 15) ∧ (false = true → (15 : Reg) ≠ 15) := by decide

theorem witness_ArithmeticOperations : condPassed .ne armState.cpsr.flags = true ∧
    (true = true → (0 : Reg) ≠ 15) := by decide

theorem witness_CompareOperations : condPassed .pl armState.cpsr.flags = true := by decide

/-- The three outcomes of a return: completed, no saved status, a saved mode that is none. -/
theorem witness_DataProcessingReturn : condPassed .al irqState.cpsr.flags = true ∧
    irqState.cpsr.mode.excMode? = some .irq ∧ Mode.ofBits? (irqState.spsr.get .irq).m = some .user ∧
    armState.cpsr.mode.excMode? = none ∧ Mode.ofBits? (irqState.spsr.get .fiq).m = none := by decide

/-- The stores: canonical memory that is not empty, and a passing condition. -/
theorem witness_ArmStores : armState.mem.wf = true ∧ condPassed .al armState.cpsr.flags = true := by decide

theorem witness_Swaps : irqState.mem.wf = true ∧ condPassed .mi irqState.cpsr.flags = false ∧
    condPassed .pl irqState.cpsr.flags = true := by decide

/-- S = 1 without R15, and S = 0 with it. -/
theorem witness_BlockLoad : condPassed .al armState.cpsr.flags = true ∧
    (true = true → (0x7FFF#16).getLsbD 15 = false) ∧ (false = true → (0xFFFF#16).getLsbD 15 = false) := by decide

theorem witness_BlockLoadReturn : condPassed .al irqState.cpsr.flags = true ∧ (0x8000#16).getLsbD 15 = true := by
  decide

theorem witness_BlockStore : armState.mem.wf = true ∧ condPassed .vc armState.cpsr.flags = true := by decide

theorem witness_EmptyListChangesNothing : condPassed .al armState.cpsr.flags = true := by decide

/-- `ThumbStores`, `ThumbPushPop`, `ThumbBlockTransfer`: canonical memory. -/
theorem witness_ThumbStores : thumbState.mem.wf = true ∧ thumbState.mem ≠ [] := by decide

/-- A BL pair from an aligned Thumb state. -/
theorem witness_ThumbBranches : thumbState.cpsr.t = true ∧ thumbState.align thumbState.pc = thumbState.pc := by
  decide

end Sys2Proof.Machine
end

section
/-! The run flag and external raises (10_state.md R42, 60_exceptions.md R383). -/

namespace Sys2Proof.Machine

variable {s t : State} {i : Instr}

/-! ## The run flag -/

theorem Plain.running_eq (h : Plain s t) : t.running = s.running :=
  let ⟨_, _, he, _⟩ := h
  he.running

@[simp] theorem State.branchExchange_running (s : State) (v : Word) :
    (s.branchExchange v).running = s.running := by
  unfold State.branchExchange
  split <;> rfl

theorem Does.running_eq (h : Does i s t) : t.running = s.running := by
  cases h with
  | plain _ h _ => exact h.running_eq
  | store _ _ h _ => exact h.running_eq
  | exchange _ v => exact s.branchExchange_running v
  | back _ h _ _ _ _ _ _ => exact h.running_eq
  | control _ _ _ _ => rfl
  | saved _ _ _ _ => rfl
  | trap _ _ => rfl

theorem step_running_eq (h : step s = .next t) : t.running = s.running := by
  obtain ⟨-, rfl⟩ | ⟨-, p, u, hu, rfl⟩ | ⟨-, p, k, rfl⟩ := step_cases h
  · rfl
  · exact (exec_does hu).running_eq
  · rfl

/-! ## Raising a kind from outside -/

theorem State.raiseException_get (s : State) (k j : ExcKind) :
    (s.raiseException k).pending.get j = (s.pending.get j || j == k) := by
  rw [State.raiseException_pending, Pending.get_set]
  by_cases h : j = k <;> simp [h]

theorem State.raiseException_idem (s : State) (k : ExcKind) :
    (s.raiseException k).raiseException k = s.raiseException k := by
  have hp : (s.pending.set k true).set k true = s.pending.set k true :=
    Pending.ext_get fun j => by simp only [Pending.get_set]; split <;> rfl
  simp only [State.raiseException, State.setPending, hp]

@[simp] theorem State.hostReset_running (s : State) : s.hostReset.running = true := rfl

@[simp] theorem State.hostReset_pending (s : State) : s.hostReset.pending = Pending.none := rfl

/-- Settles O7: `step_cases` and `exec_does` say that no tick writes the run flag. -/
theorem runStateAndRaise : Obligations.RunStateAndRaise :=
  ⟨rfl, fun _ => step_stopped,
    fun s k => ⟨s.raiseException_get k, rfl, s.raiseException_idem k⟩,
    fun s => ⟨s.hostReset_running, fun k => by simp⟩,
    fun _ _ => step_running_eq⟩

end Sys2Proof.Machine
end

section
/-! Refusals: what each operation answers beside what `refusalOf` says of it (10_state.md R33, R34,
41_arm_data_processing.md R203, 60_exceptions.md R380). -/

namespace Sys2Proof.Machine

variable {s : State} {i : Instr}

/-! ## The shape of an answer with its refusal -/

/-- `o` is the refusal that `r` names or, where it names none, a next state. -/
def AnswersAs (o : Result) (r : Option Refusal) : Prop :=
  match r with
  | some r => o = .refused r
  | none => ∃ t, o = .next t

theorem answersAs_next (t : State) : AnswersAs (.next t) none := ⟨t, rfl⟩

/-- A failing condition completes, so only a passing one can be refused (43 R235). -/
theorem answersAs_whenCond {c : Cond} {k : State → Result} {r : Option Refusal} (h : AnswersAs (k s) r) :
    AnswersAs (s.whenCond c k) (if condPassed c s.cpsr.flags then r else none) := by
  unfold State.whenCond
  split
  · exact h
  · exact answersAs_next s

/-! ## The operations that can be refused -/

theorem answersAs_return {u : State} (h : Plain s u) (v : Word) :
    AnswersAs (u.exceptionReturn v) (restoreRefusal s) := by
  obtain ⟨_, _, he, _⟩ := h
  simp only [State.exceptionReturn, State.restoreStatus, restoreRefusal, he.mode, he.spsr, Psr.toCpsr?]
  cases s.cpsr.mode.excMode? with
  | none => rfl
  | some m =>
    cases hb : Mode.ofBits? (s.spsr.get m).m with
    | none => simp [hb, AnswersAs]
    | some mode => simp [hb, AnswersAs]

theorem answersAs_dataProcessing (op : DpOp) (c : Cond) (sf : Bool) (rn rd : Reg) (o : Operand2) :
    AnswersAs (dataProcessing op c sf rn rd o s)
      (if condPassed c s.cpsr.flags then (if (sf && rd == 15) then restoreRefusal s else none) else none) :=
  answersAs_whenCond (by
    dsimp only
    split
    · exact answersAs_return (.refl s) _
    · exact answersAs_next _)

theorem answersAs_ldm (c : Cond) (m : IndexMode) (sf : Bool) (rn : Reg) (list : BitVec 16) :
    AnswersAs (execLdm c m sf rn list s)
      (if condPassed c s.cpsr.flags then (if (sf && list.getLsbD 15) then restoreRefusal s else none)
        else none) :=
  answersAs_whenCond (by
    dsimp only
    cases list.getLsbD 15 <;> cases sf
    · exact answersAs_next _
    · exact answersAs_next _
    · exact answersAs_next _
    · exact answersAs_return (((Plain.refl s).writeRegIf _ rn _).writeRegs _) _)

theorem answersAs_mrs (c : Cond) (spsr : Bool) (rd : Reg) :
    AnswersAs (execMrs c spsr rd s) (refusalOf (.mrs c spsr rd) s) := by
  cases spsr with
  | false => exact answersAs_whenCond (r := none) (answersAs_next _)
  | true =>
    refine answersAs_whenCond ?_
    cases s.cpsr.mode.excMode? with
    | none => rfl
    | some m => exact answersAs_next _

theorem answersAs_writeSpsr (k : FieldMask) (v : Word) :
    AnswersAs (writeSpsr k v s) (if s.cpsr.mode.excMode?.isNone then some .noSpsr else none) := by
  unfold writeSpsr
  cases s.cpsr.mode.excMode? with
  | none => rfl
  | some m => exact answersAs_next _

/-- R203: with the control field protected or not selected the mode stays one of the seven. -/
theorem answersAs_writeCpsr (k : FieldMask) (v : Word) :
    AnswersAs (writeCpsr k v s) (controlRefusal k v s) := by
  have hsel : (s.cpsr.mode != .user) = decide (s.cpsr.mode ≠ .user) := by
    simp [bne, beq_eq_decide]
  simp only [writeCpsr, controlRefusal, Cpsr.word, Psr.ofWord_masked _ _ _ _ _ (cpsrMask_getLsbD k s.cpsr.mode),
    cpsrMask_getLsbD, Psr.toCpsr?, hsel]
  cases k.c && decide (s.cpsr.mode ≠ .user) with
  | false =>
    simp [Cpsr.toPsr, Mode.ofBits?_bits, AnswersAs]
  | true =>
    by_cases ht : v.getLsbD 5 = s.cpsr.t
    · cases hm : Mode.ofBits? (v.extractLsb' 0 5) <;>
        simp [ht, hm, AnswersAs, -BitVec.getLsbD_eq_getElem]
    · simp [ht, AnswersAs, -BitVec.getLsbD_eq_getElem]

theorem answersAs_msr (c : Cond) (spsr : Bool) (k : FieldMask) (o : MsrOperand) :
    AnswersAs (execMsr c spsr k o s) (refusalOf (.msr c spsr k o) s) := by
  cases spsr with
  | false => exact answersAs_whenCond (answersAs_writeCpsr k (s.msrOperand o))
  | true => exact answersAs_whenCond (answersAs_writeSpsr k (s.msrOperand o))

/-! ## Every instruction -/

/-- The instructions whose meaning has a path that refuses: a status restore, MRS and MSR. -/
def mayRefuse : Instr → Bool
  | .and .. | .eor .. | .sub .. | .rsb .. | .add .. | .adc .. | .sbc .. | .rsc .. | .orr .. | .mov .. | .bic ..
  | .mvn .. | .ldm .. | .mrs .. | .msr .. => true
  | _ => false

theorem refusalOf_eq_none (hi : mayRefuse i = false) : refusalOf i s = none := by
  cases i with
  | and | eor | sub | rsb | add | adc | sbc | rsc | orr | mov | bic | mvn | ldm | mrs | msr => cases hi
  | _ => exact ite_self none

theorem completes_whenCond {c : Cond} {k : State → Result} (h : ∃ t, k s = .next t) :
    ∃ t, s.whenCond c k = .next t := by
  unfold State.whenCond
  split
  · exact h
  · exact ⟨s, rfl⟩

/-- No other instruction can be refused, and none faults (60 R380). -/
theorem exec_completes (hi : mayRefuse i = false) (s : State) : ∃ t, exec i s = .next t := by
  cases i with
  | and | eor | sub | rsb | add | adc | sbc | rsc | orr | mov | bic | mvn | ldm | mrs | msr => cases hi
  | tst | teq | cmp | cmn =>
    simp only [exec, execTst, execTeq, execCmp, execCmn, dataCompare]
    exact completes_whenCond ⟨_, rfl⟩
  | strh | str | strb =>
    simp only [exec, execStrh, execStr, execStrb, storeTransfer]
    exact completes_whenCond ⟨_, rfl⟩
  | ldrh | ldrsb | ldrsh | ldr | ldrb =>
    simp only [exec, execLdrh, execLdrsb, execLdrsh, execLdr, execLdrb, loadTransfer]
    exact completes_whenCond ⟨_, rfl⟩
  | mul | mla | umull | umlal | smull | smlal =>
    simp only [exec, execMul, execMla, execUmull, execUmlal, execSmull, execSmlal, writeLong]
    exact completes_whenCond ⟨_, rfl⟩
  | swp | swpb | stm =>
    simp only [exec, execSwp, execSwpb, execStm]
    exact completes_whenCond ⟨_, rfl⟩
  | b | bl | bx | swi | undefinedArm =>
    simp only [exec, execB, execBl, execBx, execSwi, execUndefinedArm]
    exact completes_whenCond ⟨_, rfl⟩
  | tBeq | tBne | tBcs | tBcc | tBmi | tBpl | tBvs | tBvc | tBhi | tBls | tBge | tBlt | tBgt | tBle =>
    simp only [exec, execTBeq, execTBne, execTBcs, execTBcc, execTBmi, execTBpl, execTBvs, execTBvc, execTBhi,
      execTBls, execTBge, execTBlt, execTBgt, execTBle, thumbCondBranch]
    exact completes_whenCond ⟨_, rfl⟩
  | _ => exact ⟨_, rfl⟩ -- the 16-bit set has no condition field (R122)

/-- An instruction answers the refusal the spec names for the state and, where it names none, a next state. -/
theorem exec_answersAs (i : Instr) (s : State) : AnswersAs (exec i s) (refusalOf i s) := by
  cases hi : mayRefuse i with
  | false => rw [refusalOf_eq_none hi]; exact exec_completes hi s
  | true =>
    cases i with
    | and | eor | sub | rsb | add | adc | sbc | rsc | orr | mov | bic | mvn =>
      simp only [exec, execAnd, execEor, execSub, execRsb, execAdd, execAdc, execSbc, execRsc, execOrr, execMov,
        execBic, execMvn]
      exact answersAs_dataProcessing ..
    | ldm => exact answersAs_ldm ..
    | mrs => exact answersAs_mrs ..
    | msr => exact answersAs_msr ..
    | _ => cases hi

/-- The refusals do not depend on what is pending. -/
theorem refusalOf_pending (i : Instr) (s : State) (p : Pending) :
    refusalOf i { s with pending := p } = refusalOf i s := rfl

/-- A tick that enters no exception executes the current instruction, with the pending set emptied. -/
theorem step_of_masked (hr : s.running = true) (h : ∀ k, s.pending.get k = true → s.cpsr.masks k = true) :
    step s = thenAdvance (exec s.currentInstr
      { s with pending := s.pending.clear ExcKind.byPriority }) := by
  rw [step, if_pos hr, State.service, State.serviceFrom_false fun k _ => h k]
  rfl

theorem safeRun_one_of_step {t : State} (h : step s = .next t) : SafeRun 1 s :=
  ⟨t, by simp only [Host.Core.run, core, h]⟩

/-- Settles O10: `exec_answersAs` for the instruction; a tick whose pending kinds are all masked executes the current
one. -/
theorem refusalsExactlyWhereSpecRefuses : Obligations.RefusalsExactlyWhereSpecRefuses := by
  refine ⟨exec_answersAs, fun s hm hn => ?_⟩
  cases hr : s.running with
  | false => exact safeRun_one_of_step (step_stopped hr)
  | true =>
    have ha := exec_answersAs s.currentInstr { s with pending := s.pending.clear ExcKind.byPriority }
    rw [refusalOf_pending, hn] at ha
    obtain ⟨t, ht⟩ := ha
    exact safeRun_one_of_step (t := t.advance) (by rw [step_of_masked hr hm, ht]; rfl)

end Sys2Proof.Machine
end

section
/-! Which names of which modes stand for one physical register (10_state.md R23, R24). -/

namespace Sys2Proof.Machine

/-! ## The index and the bank of a physical register -/

/-- The index by which every mode that sees a physical register names it. -/
def Phys.index : Phys → Nat
  | .common i => i.val
  | .fiq i => i.val + 8
  | .svc i | .abt i | .irq i | .und i => i.val + 13
  | .pc => 15

/-- The exception mode that a physical register belongs to alone, if any (10_state.md R23). -/
def Phys.bank : Phys → Option ExcMode
  | .common _ | .pc => none
  | .fiq _ => some .fiq
  | .svc _ => some .supervisor
  | .abt _ => some .abort
  | .irq _ => some .irq
  | .und _ => some .undefined

/-- Within a bank the index tells registers apart; R15 is the only one of index 15 outside every bank. -/
theorem Phys.eq_of_index_bank {p q : Phys} (hi : p.index = q.index) (hb : p.bank = q.bank) : p = q := by
  cases p <;> cases q <;> simp only [Phys.index, Phys.bank, reduceCtorEq] at hi hb <;> grind

theorem phys_index : ∀ (m : Mode) (i : Reg), (phys m i).index = i.val := by
  intro m; cases m <;> decide

/-- The bank mapping of R24 by index: common, banked for FIQ only, banked for every exception mode. -/
theorem phys_bank : ∀ (m : Mode) (i : Reg), (phys m i).bank =
    if i.val < 8 ∨ i = 15 then none
    else if i.val < 13 then (if m = .fiq then some .fiq else none)
    else m.excMode? := by
  intro m; cases m <;> decide

theorem Mode.excMode?_eq_iff (m m' : Mode) :
    m.excMode? = m'.excMode? ↔ m = m' ∨ (m.excMode? = none ∧ m'.excMode? = none) := by
  cases m <;> cases m' <;> decide

/-- R8 to R12: one bank for FIQ, one for every other mode. -/
theorem fiqBank_eq_iff (m m' : Mode) :
    (if m = .fiq then some ExcMode.fiq else none) = (if m' = .fiq then some ExcMode.fiq else none) ↔
      m = m' ∨ (m ≠ .fiq ∧ m' ≠ .fiq) := by
  cases m <;> cases m' <;> decide

/-- Two names stand for one register exactly if index and bank agree. -/
theorem phys_eq_iff (m m' : Mode) (i j : Reg) :
    phys m i = phys m' j ↔ i = j ∧ (phys m i).bank = (phys m' i).bank := by
  constructor
  · intro h
    have hij : i = j := Fin.ext (by rw [← phys_index m i, h, phys_index])
    subst hij
    exact ⟨rfl, congrArg _ h⟩
  · rintro ⟨rfl, hb⟩
    exact Phys.eq_of_index_bank (by rw [phys_index, phys_index]) hb

theorem phys_bank_eq_iff (m m' : Mode) (i : Reg) :
    (phys m i).bank = (phys m' i).bank ↔
      i.val < 8 ∨ i = 15 ∨ m = m' ∨ (m.excMode? = none ∧ m'.excMode? = none) ∨
        (i.val < 13 ∧ m ≠ .fiq ∧ m' ≠ .fiq) := by
  have hfiq : ∀ n : Mode, n.excMode? = none → n ≠ .fiq := by
    rintro _ h rfl; cases h
  rw [phys_bank, phys_bank]
  by_cases hc : i.val < 8 ∨ i = 15
  · simp only [if_pos hc]; tauto
  by_cases h13 : i.val < 13
  · simp only [if_neg hc, if_pos h13, fiqBank_eq_iff]; tauto
  · simp only [if_neg hc, if_neg h13, Mode.excMode?_eq_iff]; tauto

/-- Settles O19: a physical register is its index and its bank, and `phys` gives both (R24). -/
theorem bankedRegistersAreSeparate : Obligations.BankedRegistersAreSeparate := by
  refine ⟨fun s i v hi m j _ => ?_, fun m m' i j => ?_, fun _ _ _ => rfl⟩
  · rw [State.writeReg_ne s i v hi, State.setPhys_regs, RegFile.read_write]
  · rw [phys_eq_iff, phys_bank_eq_iff]

end Sys2Proof.Machine
end

section
/-! Status words written and read back, and the mode numbers (10_state.md R30, R32, R33). -/

namespace Sys2Proof.Machine

theorem Psr.word_unused (p : Psr) : p.word.extractLsb' 8 20 = 0#20 := by
  ext i hi
  rw [BitVec.getElem_extractLsb', Psr.word_getLsbD, if_neg (by omega), if_neg (by omega), if_neg (by omega),
    if_neg (by omega), if_pos (by omega)]
  simp

theorem Psr.word_mode (p : Psr) : p.word.extractLsb' 0 5 = p.m := by
  ext i hi
  rw [BitVec.getElem_extractLsb', Psr.word_getLsbD, Nat.zero_add, if_pos hi, BitVec.getLsbD_eq_getElem hi]

theorem Psr.ofWord_word (p : Psr) : Psr.ofWord p.word = p := by
  simp only [Psr.ofWord, field, Psr.word_mode, Psr.word_getLsbD]
  rfl

/-- R30: a write ignores bits 27:8. -/
theorem Psr.word_ofWord (w : Word) : (Psr.ofWord w).word = w &&& 0xF00000FF#32 := by
  have hmask : ∀ i, (0xF00000FF#32).getLsbD i = (decide (28 ≤ i ∧ i < 32) || decide (i < 8)) :=
    FieldMask.word_getLsbD ⟨true, false, false, true⟩
  apply BitVec.eq_of_getLsbD_eq
  intro i hi
  rw [Psr.word_getLsbD, BitVec.getLsbD_and, hmask]
  simp only [Psr.ofWord, field, BitVec.getLsbD_extractLsb']
  interval_cases i <;> simp

theorem Mode.ofBits?_eq_some_iff (b : BitVec 5) (m : Mode) : Mode.ofBits? b = some m ↔ b = m.bits :=
  ⟨fun h => (Mode.bits_of_ofBits? h).symm, fun h => h ▸ Mode.ofBits?_bits m⟩

theorem Mode.excMode?_eq_none_iff (m : Mode) : m.excMode? = none ↔ m = .user ∨ m = .system := by
  cases m <;> decide

/-- Settles O20: the bits of a status word are those of `Psr.word_getLsbD`, and the numbers of R32 are `Mode.bits`. -/
theorem statusWordLayout : Obligations.StatusWordLayout := by
  refine ⟨fun p => ?_, Psr.word_ofWord, ?_⟩
  · simp [Psr.word_unused, Psr.word_mode, Psr.ofWord_word, Psr.word_getLsbD, -BitVec.getLsbD_eq_getElem]
  · intro number
    have hnumber : number = Mode.bits := by funext m; cases m <;> rfl
    rw [hnumber]
    exact ⟨fun c => c.toPsr.word_mode, Mode.ofBits?_eq_some_iff, Mode.excMode?_eq_none_iff⟩

end Sys2Proof.Machine
end

section
/-! What no instruction writes but the ones made for it: memory, the SPSRs, the pending set (20_memory.md R68,
10_state.md R33, R41, R42). -/

namespace Sys2Proof.Machine

variable {s t : State} {i : Instr}

/-! ## The operations that `Does` names -/

theorem Plain.spsr_eq (h : Plain s t) : t.spsr = s.spsr :=
  let ⟨_, _, he, _⟩ := h
  he.spsr

theorem Plain.pending_eq (h : Plain s t) : t.pending = s.pending :=
  let ⟨_, _, he, _⟩ := h
  he.pending

@[simp] theorem State.branchExchange_mem (s : State) (v : Word) : (s.branchExchange v).mem = s.mem := by
  unfold State.branchExchange
  split <;> rfl

@[simp] theorem State.branchExchange_spsr (s : State) (v : Word) : (s.branchExchange v).spsr = s.spsr := by
  unfold State.branchExchange
  split <;> rfl

@[simp] theorem State.branchExchange_pending (s : State) (v : Word) :
    (s.branchExchange v).pending = s.pending := by
  unfold State.branchExchange
  split <;> rfl

/-! ## One lemma per thing left alone -/

/-- R68: only a store writes memory. -/
theorem Does.mem_eq (h : Does i s t) (hi : isStore i = false) : t.mem = s.mem := by
  cases h with
  | plain _ _ hm => exact hm
  | store _ hs _ _ => rw [hi] at hs; cases hs
  | exchange _ v => exact s.branchExchange_mem v
  | back _ _ hm _ _ _ _ _ => exact hm
  | control _ _ _ _ => rfl
  | saved _ _ _ _ => rfl
  | trap _ _ => rfl

/-- R33: only MSR to the SPSR writes a saved status. -/
theorem Does.spsr_eq (h : Does i s t) (hi : ∀ c k o, i ≠ .msr c true k o) : t.spsr = s.spsr := by
  cases h with
  | plain _ h _ => exact h.spsr_eq
  | store _ _ h _ => exact h.spsr_eq
  | exchange _ v => exact s.branchExchange_spsr v
  | back _ h _ _ _ _ _ _ => exact h.spsr_eq
  | control _ _ _ _ => rfl
  | saved hs _ _ _ =>
    obtain ⟨c, k, o, rfl⟩ := hs
    exact absurd rfl (hi c k o)
  | trap _ _ => rfl

/-- R41: only a software interrupt or an unallocated encoding makes an exception pending, each its own kind. -/
theorem Does.pending_cases (h : Does i s t) :
    t.pending = s.pending ∨
      (t.pending = s.pending.set .softwareInterrupt true ∧ ((∃ c n, i = .swi c n) ∨ ∃ n, i = .tSwi n)) ∨
      (t.pending = s.pending.set .undefinedInstr true ∧
        ((∃ c b, i = .undefinedArm c b) ∨ ∃ b, i = .tUndefined b)) := by
  cases h with
  | plain _ h _ => exact .inl h.pending_eq
  | store _ _ h _ => exact .inl h.pending_eq
  | exchange _ v => exact .inl (s.branchExchange_pending v)
  | back _ h _ _ _ _ _ _ => exact .inl h.pending_eq
  | control _ _ _ _ => exact .inl rfl
  | saved _ _ _ _ => exact .inl rfl
  | trap _ hk =>
    obtain ⟨rfl, hi⟩ | ⟨rfl, hi⟩ := hk
    · exact .inr (.inl ⟨rfl, hi⟩)
    · exact .inr (.inr ⟨rfl, hi⟩)

/-- Settles O13: `exec_does` says what an instruction can do, and each way leaves the rest. -/
theorem instructionsLeaveTheRest : Obligations.InstructionsLeaveTheRest := fun _ _ _ h =>
  have hd := exec_does h
  ⟨hd.running_eq, hd.mem_eq, hd.spsr_eq, hd.pending_cases⟩

end Sys2Proof.Machine
end

section
/-! Halfwords and words as bytes in ascending address order (20_memory.md R62, R64). -/

namespace Sys2Proof.Machine

variable {s t : State}

/-! ## Values as sums of bytes -/

theorem toNat_append_byte {n : Nat} (x : BitVec n) (b : Byte) :
    (x ++ b).toNat = b.toNat + 2 ^ 8 * x.toNat := by
  rw [BitVec.toNat_append, ← Nat.shiftLeft_add_eq_or_of_lt b.isLt, Nat.shiftLeft_eq]
  omega

/-- R62: the low-order byte stands at the low address. -/
theorem State.readHalf_toNat (s : State) (a : Word) :
    (s.readHalf a).toNat = (s.readByte a).toNat + 2 ^ 8 * (s.readByte (a + 1)).toNat :=
  toNat_append_byte _ _

theorem State.readWord_toNat (s : State) (a : Word) :
    (s.readWord a).toNat = (s.readByte a).toNat + 2 ^ 8 * (s.readByte (a + 1)).toNat +
      2 ^ 16 * (s.readByte (a + 2)).toNat + 2 ^ 24 * (s.readByte (a + 3)).toNat := by
  simp only [State.readWord, toNat_append_byte]
  omega

/-! ## Bytes taken from a value and joined again -/

@[simp] theorem halfBytes_length (v : Half) : (halfBytes v).length = 2 := rfl

@[simp] theorem wordBytes_length (v : Word) : (wordBytes v).length = 4 := rfl

theorem half_of_bytes (v : Half) : v.extractLsb' 8 8 ++ v.extractLsb' 0 8 = v :=
  (BitVec.extractLsb'_append_extractLsb'_eq_extractLsb' rfl).trans BitVec.extractLsb'_eq_self

theorem word_of_bytes (v : Word) :
    v.extractLsb' 24 8 ++ v.extractLsb' 16 8 ++ v.extractLsb' 8 8 ++ v.extractLsb' 0 8 = v := by
  rw [BitVec.extractLsb'_append_extractLsb'_eq_extractLsb' (show 24 = 16 + 8 from rfl),
    BitVec.extractLsb'_append_extractLsb'_eq_extractLsb' (show 16 = 8 + 8 from rfl),
    BitVec.extractLsb'_append_extractLsb'_eq_extractLsb' (show 8 = 0 + 8 from rfl)]
  exact BitVec.extractLsb'_eq_self

/-! ## Reading back what was stored -/

/-- `State.Stored` names the first address `a + 0`. -/
theorem State.Stored.readByte_zero {a : Word} {b : Byte} {bs : List Byte} (h : s.Stored t a (b :: bs)) :
    t.readByte a = b := by
  simpa using h.1 0 (Nat.succ_pos _)

theorem State.Stored.readHalf {a : Word} {v : Half} (h : s.Stored t a (halfBytes v)) : t.readHalf a = v := by
  have h1 : t.readByte (a + 1) = v.extractLsb' 8 8 := h.1 1 (by simp)
  rw [State.readHalf, h1, State.Stored.readByte_zero h, half_of_bytes]

theorem State.Stored.readWord {a v : Word} (h : s.Stored t a (wordBytes v)) : t.readWord a = v := by
  have h1 : t.readByte (a + 1) = v.extractLsb' 8 8 := h.1 1 (by simp)
  have h2 : t.readByte (a + 2) = v.extractLsb' 16 8 := h.1 2 (by simp)
  have h3 : t.readByte (a + 3) = v.extractLsb' 24 8 := h.1 3 (by simp)
  rw [State.readWord, h1, h2, h3, State.Stored.readByte_zero h, word_of_bytes]

/-! ## What each write stores -/

theorem State.writeByte_stored (a : Word) (v : Byte) (hw : s.mem.wf = true) : s.Stored (s.writeByte a v) a [v] :=
  s.storeBytes_stored a [v] hw (by simp)

theorem State.writeHalf_stored (a : Word) (v : Half) (hw : s.mem.wf = true) :
    s.Stored (s.writeHalf a v) a (halfBytes v) := by
  rw [State.writeHalf_eq]
  exact s.storeBytes_stored a (halfBytes v) hw (by simp)

theorem State.writeWord_stored (a v : Word) (hw : s.mem.wf = true) :
    s.Stored (s.writeWord a v) a (wordBytes v) := by
  rw [State.writeWord_eq]
  exact s.storeBytes_stored a (wordBytes v) hw (by simp)

/-- Settles O21: a write is `State.storeBytes` of the value's bytes, and a read joins the bytes again. -/
theorem littleEndianComposition : Obligations.LittleEndianComposition := fun s a hw =>
  ⟨fun v => State.writeByte_stored a v hw,
    fun v => ⟨State.writeHalf_stored a v hw, (State.writeHalf_stored a v hw).readHalf⟩,
    fun v => ⟨State.writeWord_stored a v hw, (State.writeWord_stored a v hw).readWord⟩,
    s.readHalf_toNat a, s.readWord_toNat a⟩

end Sys2Proof.Machine
end

section
/-! Reading fields of joined bits (30_encoding.md R94, R111), for the encoder's formats. -/

namespace Sys2Proof

variable {n m len : Nat}

/-! ## Fields and bits of a known field -/

/-- A field inside a known field. -/
theorem field_subfield {x : BitVec n} {lo : Nat} {v : BitVec len} (h : field x lo len = v) (a b : Nat)
    (hab : a + b ≤ len := by decide) : field x (lo + a) b = field v a b := by
  subst h
  ext k hk
  simp only [field, BitVec.getElem_extractLsb', BitVec.getLsbD_extractLsb']
  rw [Nat.add_assoc, decide_eq_true (by omega), Bool.true_and]

/-- A bit inside a known field. -/
theorem getLsbD_of_field {x : BitVec n} {lo : Nat} {v : BitVec len} (h : field x lo len = v) (k : Nat)
    (hk : k < len := by decide) : x.getLsbD (lo + k) = v.getLsbD k := by
  subst h
  simp only [field, BitVec.getLsbD_extractLsb', decide_eq_true hk, Bool.true_and]

/-! ## Fields and bits of joined bits

The formats have numerals for widths, so `simp` must not index these equations by the sum `n + m`. -/

theorem field_append_hi (x : BitVec n) (y : BitVec m) (lo len : Nat) (h : m ≤ lo) :
    field (n := no_index (n + m)) (x ++ y) lo len = field x (lo - m) len :=
  field_append_left x y lo len h

theorem field_append_lo (x : BitVec n) (y : BitVec m) (lo len : Nat) (h : lo + len ≤ m) :
    field (n := no_index (n + m)) (x ++ y) lo len = field y lo len :=
  field_append_right x y lo len h

theorem field_full (x : BitVec n) (lo : Nat) (h : lo = 0) : field x lo n = x := by
  rw [h, field_whole]

theorem getLsbD_append_hi (x : BitVec n) (y : BitVec m) (k : Nat) (h : m ≤ k) :
    BitVec.getLsbD (w := no_index (n + m)) (x ++ y) k = x.getLsbD (k - m) := by
  rw [BitVec.getLsbD_append, if_neg (Nat.not_lt.mpr h)]

theorem getLsbD_append_lo (x : BitVec n) (y : BitVec m) (k : Nat) (h : k < m) :
    BitVec.getLsbD (w := no_index (n + m)) (x ++ y) k = y.getLsbD k := by
  rw [BitVec.getLsbD_append, if_pos h]

theorem getLsbD_ofBool_of_eq (b : Bool) (k : Nat) (h : k = 0) : (BitVec.ofBool b).getLsbD k = b := by
  subst h; cases b <;> rfl

end Sys2Proof
end

section
/-! The lines of the map of the 32-bit set (30_encoding.md R93): the bits that select each, the lines before it
excluded. -/

namespace Sys2Proof

variable (c : Cond) {i : BitVec 28}

theorem decodeArm_append (i : BitVec 28) : decodeArm (c.bits ++ i) = decodeArmBits c i := by
  rw [decodeArm, field_cond, field_instr, Cond.ofBits_bits]

/-- Line 1. -/
theorem decodeGroup000_bx (h : field i 4 24 = 0x12FFF1#24) : decodeGroup000 c i = .bx c (regAt i 0) := by
  rw [decodeGroup000, if_pos h]

/-- Lines 2, 3, 4 and 6. -/
theorem decodeGroup000_multiplySwap (h : field i 4 4 = 0b1001#4) :
    decodeGroup000 c i = decodeMultiplySwap c i := by
  have hbx : field i 4 24 ≠ 0x12FFF1#24 := fun hb =>
    absurd (h.symm.trans (field_subfield hb 0 4)) (by decide)
  rw [decodeGroup000, if_neg hbx, if_pos h]

/-- Line 5. -/
theorem decodeGroup000_halfTransfer (hm : field i 4 4 ≠ 0b1001#4)
    (h : i.getLsbD 7 = true ∧ i.getLsbD 4 = true) : decodeGroup000 c i = decodeHalfTransfer c i := by
  have hbx : field i 4 24 ≠ 0x12FFF1#24 := fun hb =>
    absurd (h.1.symm.trans (getLsbD_of_field hb 3)) (by decide)
  rw [decodeGroup000, if_neg hbx, if_neg hm, if_pos h]

/-- With bit 4 clear, none of the lines 1 to 6. -/
theorem not_bx_multiply_half_of_bit4 (h : i.getLsbD 4 = false) :
    field i 4 24 ≠ 0x12FFF1#24 ∧ field i 4 4 ≠ 0b1001#4 ∧ ¬ (i.getLsbD 7 = true ∧ i.getLsbD 4 = true) :=
  ⟨fun hb => absurd (h.symm.trans (getLsbD_of_field hb 0)) (by decide),
    fun hm => absurd (h.symm.trans (getLsbD_of_field hm 0)) (by decide),
    fun h74 => absurd (h.symm.trans h74.2) (by decide)⟩

/-- Line 7. -/
theorem decodeGroup000_mrs (h : field i 23 5 = 0b00010#5 ∧ field i 16 6 = 0b001111#6 ∧ field i 0 12 = 0#12) :
    decodeGroup000 c i = .mrs c (i.getLsbD 22) (regAt i 12) := by
  obtain ⟨hbx, hm, h74⟩ := not_bx_multiply_half_of_bit4 (getLsbD_of_field h.2.2 4)
  rw [decodeGroup000, if_neg hbx, if_neg hm, if_neg h74, if_pos h]

/-- Line 8. -/
theorem decodeGroup000_msr (h : field i 23 5 = 0b00010#5 ∧ field i 20 2 = 0b10#2 ∧ field i 4 12 = 0xF00#12) :
    decodeGroup000 c i = .msr c (i.getLsbD 22)
      ⟨i.getLsbD 19, i.getLsbD 18, i.getLsbD 17, i.getLsbD 16⟩ (.reg (regAt i 0)) := by
  obtain ⟨hbx, hm, h74⟩ := not_bx_multiply_half_of_bit4 (getLsbD_of_field h.2.2 0)
  have hmrs : field i 16 6 ≠ 0b001111#6 := fun h16 =>
    absurd ((getLsbD_of_field h16 5).symm.trans (getLsbD_of_field h.2.1 1)) (by decide)
  rw [decodeGroup000, if_neg hbx, if_neg hm, if_neg h74, if_neg fun hr => hmrs hr.2.1, if_pos h]

/-- Line 10 in the `000` group. -/
theorem decodeGroup000_undefined (h74 : ¬ (i.getLsbD 7 = true ∧ i.getLsbD 4 = true))
    (hc : field i 23 2 = 0b10#2 ∧ i.getLsbD 20 = false) (hbx : field i 4 24 ≠ 0x12FFF1#24)
    (hmrs : ¬ (field i 23 5 = 0b00010#5 ∧ field i 16 6 = 0b001111#6 ∧ field i 0 12 = 0#12))
    (hmsr : ¬ (field i 23 5 = 0b00010#5 ∧ field i 20 2 = 0b10#2 ∧ field i 4 12 = 0xF00#12)) :
    decodeGroup000 c i = .undefinedArm c i := by
  have hm : field i 4 4 ≠ 0b1001#4 := fun hm => h74 ⟨getLsbD_of_field hm 3, getLsbD_of_field hm 0⟩
  rw [decodeGroup000, if_neg hbx, if_neg hm, if_neg h74, if_neg hmrs, if_neg hmsr, if_pos hc]

/-- Line 11 in the `000` group: BX, MRS and MSR are compares with S = 0. -/
theorem decodeGroup000_dataProcessing (h74 : ¬ (i.getLsbD 7 = true ∧ i.getLsbD 4 = true))
    (hc : ¬ (field i 23 2 = 0b10#2 ∧ i.getLsbD 20 = false)) :
    decodeGroup000 c i = decodeDataProcessing c i (shiftedOperand i) := by
  have hbx : field i 4 24 ≠ 0x12FFF1#24 := fun hb => hc ⟨field_subfield hb 19 2, getLsbD_of_field hb 16⟩
  have hm : field i 4 4 ≠ 0b1001#4 := fun hm => h74 ⟨getLsbD_of_field hm 3, getLsbD_of_field hm 0⟩
  rw [decodeGroup000, if_neg hbx, if_neg hm, if_neg h74,
    if_neg fun ⟨h23, h16, _⟩ => hc ⟨field_subfield h23 0 2, getLsbD_of_field h16 4⟩,
    if_neg fun ⟨h23, h20, _⟩ => hc ⟨field_subfield h23 0 2, getLsbD_of_field h20 0⟩, if_neg hc]

/-- Line 11 in the `001` group. -/
theorem decodeGroup001_dataProcessing (hc : ¬ (field i 23 2 = 0b10#2 ∧ i.getLsbD 20 = false)) :
    decodeGroup001 c i = decodeDataProcessing c i (.imm (field i 8 4).toFin (field i 0 8)) := by
  rw [decodeGroup001, if_neg fun ⟨h23, h20, _⟩ => hc ⟨h23, getLsbD_of_field h20 0⟩, if_neg hc]

end Sys2Proof
end

section
/-! The formats of the 32-bit set (30_encoding.md R94): the fields of each, and the line of R93 that decodes
it. -/

namespace Sys2Proof

variable (c : Cond)

/-! ## Data processing -/

theorem dpBits_fields (op : BitVec 4) (sf : Bool) (rn rd : Reg) (o : Operand2) :
    let i := dpBits op sf rn rd o
    field i 25 3 = 0b00#2 ++ o.immBit ∧ field i 21 4 = op ∧ field i 23 2 = field op 2 2 ∧
      i.getLsbD 20 = sf ∧ regAt i 16 = rn ∧ regAt i 12 = rd := by
  simp (disch := decide) only [dpBits, regAt, field_append_hi, field_append_lo, field_full, getLsbD_append_hi,
    getLsbD_append_lo, getLsbD_ofBool_of_eq, Nat.reduceSub, Reg.toFin_bits, and_self]

theorem dpBits_imm (op : BitVec 4) (sf : Bool) (rn rd : Reg) (rotate : Fin 16) (imm8 : BitVec 8) :
    let i := dpBits op sf rn rd (.imm rotate imm8)
    field i 8 4 = BitVec.ofFin rotate ∧ field i 0 8 = imm8 := by
  simp (disch := decide) only [dpBits, Operand2.bits, field_append_hi, field_append_lo, field_full, and_self]

theorem dpBits_regImm (op : BitVec 4) (sf : Bool) (rn rd rm : Reg) (ty : ShiftType) (amount : Fin 32) :
    let i := dpBits op sf rn rd (.regImm rm ty amount)
    i.getLsbD 4 = false ∧ shiftedOperand i = .regImm rm ty amount := by
  simp (disch := decide) only [shiftedOperand, dpBits, Operand2.bits, regAt, field_append_hi, field_append_lo,
    field_full, getLsbD_append_hi, getLsbD_append_lo, BitVec.getLsbD_zero, Nat.reduceSub, Reg.toFin_bits,
    ShiftType.ofBits_bits, Bool.false_eq_true, if_false, and_self]

theorem dpBits_regReg (op : BitVec 4) (sf : Bool) (rn rd rm : Reg) (ty : ShiftType) (rs : Reg) :
    let i := dpBits op sf rn rd (.regReg rm ty rs)
    i.getLsbD 7 = false ∧ shiftedOperand i = .regReg rm ty rs := by
  simp (disch := decide) only [shiftedOperand, dpBits, Operand2.bits, regAt, field_append_hi, field_append_lo,
    field_full, getLsbD_append_hi, getLsbD_append_lo, BitVec.getLsbD_zero, BitVec.reduceGetLsb, Nat.reduceSub,
    Reg.toFin_bits, ShiftType.ofBits_bits, if_true, and_self]

/-- The compare opcodes with S = 0 are no data processing. -/
theorem decodeArmBits_dpBits {op : BitVec 4} {sf : Bool} (h : field op 2 2 ≠ 0b10#2 ∨ sf = true) (rn rd : Reg)
    (o : Operand2) :
    decodeArmBits c (dpBits op sf rn rd o) = decodeDataProcessing c (dpBits op sf rn rd o) o := by
  have hc : ¬ (field (dpBits op sf rn rd o) 23 2 = 0b10#2 ∧ (dpBits op sf rn rd o).getLsbD 20 = false) := by
    simp only [dpBits_fields]
    rintro ⟨h23, rfl⟩
    exact h.elim (absurd h23) Bool.noConfusion
  cases o with
  | imm rotate imm8 =>
    simp only [decodeArmBits, dpBits_fields, Operand2.immBit, BitVec.reduceAppend,
      decodeGroup001_dataProcessing c hc, dpBits_imm]
  | regImm rm ty amount =>
    obtain ⟨h4, ho⟩ := dpBits_regImm op sf rn rd rm ty amount
    obtain ⟨-, -, h74⟩ := not_bx_multiply_half_of_bit4 h4
    simp only [decodeArmBits, dpBits_fields, Operand2.immBit, BitVec.reduceAppend,
      decodeGroup000_dataProcessing c h74 hc, ho]
  | regReg rm ty rs =>
    obtain ⟨h7, ho⟩ := dpBits_regReg op sf rn rd rm ty rs
    simp only [decodeArmBits, dpBits_fields, Operand2.immBit, BitVec.reduceAppend,
      decodeGroup000_dataProcessing c (fun h74 => absurd (h7.symm.trans h74.1) (by decide)) hc, ho]

/-! ## Status transfer, and branch and exchange -/

theorem decodeArmBits_mrs (spsr : Bool) (rd : Reg) :
    decodeArmBits c (0b00010#5 ++ BitVec.ofBool spsr ++ 0b001111#6 ++ Reg.bits rd ++ 0#12) =
      .mrs c spsr rd := by
  generalize hi : (0b00010#5 ++ BitVec.ofBool spsr ++ 0b001111#6 ++ Reg.bits rd ++ 0#12 : BitVec 28) = i
  have hf : field i 23 5 = 0b00010#5 ∧ field i 16 6 = 0b001111#6 ∧ field i 0 12 = 0#12 ∧ i.getLsbD 22 = spsr ∧
      regAt i 12 = rd := by
    subst hi
    simp (disch := decide) only [regAt, field_append_hi, field_append_lo, field_full, getLsbD_append_hi,
      getLsbD_append_lo, getLsbD_ofBool_of_eq, Nat.reduceSub, Reg.toFin_bits, and_self]
  obtain ⟨h23, h16, h0, hs, hd⟩ := hf
  have h25 : field i 25 3 = 0b000#3 := field_subfield h23 2 3
  simp only [decodeArmBits, h25, decodeGroup000_mrs c ⟨h23, h16, h0⟩, hs, hd]

theorem msrBits_fields (spsr : Bool) (k : FieldMask) (o : MsrOperand) :
    let i := msrBits spsr k o
    i.getLsbD 22 = spsr ∧ field i 20 2 = 0b10#2 ∧ i.getLsbD 19 = k.f ∧ i.getLsbD 18 = k.s ∧
      i.getLsbD 17 = k.x ∧ i.getLsbD 16 = k.c ∧ field i 12 4 = 0b1111#4 := by
  cases o <;>
    simp (disch := decide) only [msrBits, field_append_hi, field_append_lo, field_full, getLsbD_append_hi,
      getLsbD_append_lo, getLsbD_ofBool_of_eq, Nat.reduceSub, and_self]

theorem msrBits_reg (spsr : Bool) (k : FieldMask) (rm : Reg) :
    let i := msrBits spsr k (.reg rm)
    field i 23 5 = 0b00010#5 ∧ field i 4 8 = 0#8 ∧ regAt i 0 = rm := by
  simp (disch := decide) only [msrBits, regAt, field_append_hi, field_append_lo, field_full, Nat.reduceSub,
    Reg.toFin_bits, and_self]

theorem msrBits_imm (spsr : Bool) (k : FieldMask) (rotate : Fin 16) (imm8 : BitVec 8) :
    let i := msrBits spsr k (.imm rotate imm8)
    field i 23 5 = 0b00110#5 ∧ field i 8 4 = BitVec.ofFin rotate ∧ field i 0 8 = imm8 := by
  simp (disch := decide) only [msrBits, field_append_hi, field_append_lo, field_full, Nat.reduceSub, and_self]

theorem decodeArmBits_msrBits (spsr : Bool) (k : FieldMask) (o : MsrOperand) :
    decodeArmBits c (msrBits spsr k o) = .msr c spsr k o := by
  have hf := msrBits_fields spsr k o
  obtain ⟨-, h20, -, -, -, -, h12⟩ := hf
  cases o with
  | reg rm =>
    obtain ⟨h23, h4, -⟩ := msrBits_reg spsr k rm
    have h4' : field (msrBits spsr k (.reg rm)) 4 12 = 0xF00#12 := by
      rw [← field_join _ 4 8 4, h4, h12]; rfl
    have h25 : field (msrBits spsr k (.reg rm)) 25 3 = 0b000#3 := field_subfield h23 2 3
    simp only [decodeArmBits, h25, decodeGroup000_msr c ⟨h23, h20, h4'⟩, msrBits_fields, msrBits_reg]
  | imm rotate imm8 =>
    obtain ⟨h23, -⟩ := msrBits_imm spsr k rotate imm8
    have h25 : field (msrBits spsr k (.imm rotate imm8)) 25 3 = 0b001#3 := field_subfield h23 2 3
    have h23' : field (msrBits spsr k (.imm rotate imm8)) 23 2 = 0b10#2 := field_subfield h23 0 2
    simp only [decodeArmBits, h25, decodeGroup001, h23', msrBits_fields, msrBits_imm, and_self, if_true]

theorem decodeArmBits_bx (rm : Reg) : decodeArmBits c (0x12FFF1#24 ++ Reg.bits rm) = .bx c rm := by
  have h4 : field (0x12FFF1#24 ++ Reg.bits rm) 4 24 = 0x12FFF1#24 := by
    rw [field_append_left _ _ _ _ (by decide), field_whole]
  have h0 : regAt (0x12FFF1#24 ++ Reg.bits rm) 0 = rm := by
    rw [regAt, field_append_right _ _ _ _ (by decide), field_whole, Reg.toFin_bits]
  have h25 : field (0x12FFF1#24 ++ Reg.bits rm) 25 3 = 0b000#3 := field_subfield h4 21 3
  simp only [decodeArmBits, h25, decodeGroup000_bx c h4, h0]

/-! ## Multiply and swap -/

theorem mulBits_fields (op : BitVec 7) (sf : Bool) (hi lo rs rm : Reg) :
    let i := mulBits op sf hi lo rs rm
    field i 25 3 = field op 4 3 ∧ field i 22 6 = field op 1 6 ∧ field i 23 5 = field op 2 5 ∧
      field i 21 2 = field op 0 2 ∧ i.getLsbD 21 = op.getLsbD 0 ∧ i.getLsbD 20 = sf ∧ field i 4 4 = 0b1001#4 ∧
      regAt i 16 = hi ∧ regAt i 12 = lo ∧ regAt i 8 = rs ∧ regAt i 0 = rm := by
  simp (disch := decide) only [mulBits, regAt, field_append_hi, field_append_lo, field_full, getLsbD_append_hi,
    getLsbD_append_lo, getLsbD_ofBool_of_eq, Nat.reduceSub, Reg.toFin_bits, and_self]

theorem decodeArmBits_mulBits {op : BitVec 7} (h : field op 4 3 = 0b000#3) (sf : Bool) (hi lo rs rm : Reg) :
    decodeArmBits c (mulBits op sf hi lo rs rm) = decodeMultiplySwap c (mulBits op sf hi lo rs rm) := by
  obtain ⟨-, -, -, -, -, -, hm, -⟩ := mulBits_fields op sf hi lo rs rm
  simp only [decodeArmBits, mulBits_fields, h, decodeGroup000_multiplySwap c hm]

theorem swpBits_fields (byte : Bool) (rn rd rm : Reg) :
    let i := swpBits byte rn rd rm
    field i 23 5 = 0b00010#5 ∧ i.getLsbD 22 = byte ∧ field i 20 2 = 0b00#2 ∧ field i 8 4 = 0#4 ∧
      field i 4 4 = 0b1001#4 ∧ regAt i 16 = rn ∧ regAt i 12 = rd ∧ regAt i 0 = rm := by
  simp (disch := decide) only [swpBits, regAt, field_append_hi, field_append_lo, field_full, getLsbD_append_hi,
    getLsbD_append_lo, getLsbD_ofBool_of_eq, Nat.reduceSub, Reg.toFin_bits, true_and, and_true]
  decide

theorem decodeArmBits_swpBits (byte : Bool) (rn rd rm : Reg) :
    decodeArmBits c (swpBits byte rn rd rm) = if byte then .swpb c rn rd rm else .swp c rn rd rm := by
  obtain ⟨h23, -, -, -, hm, -⟩ := swpBits_fields byte rn rd rm
  have h25 : field (swpBits byte rn rd rm) 25 3 = 0b000#3 := field_subfield h23 2 3
  have h22 : field (swpBits byte rn rd rm) 22 6 ≠ 0b000000#6 := fun h =>
    absurd ((field_subfield h 1 5).symm.trans h23) (by decide)
  simp only [decodeArmBits, h25, decodeGroup000_multiplySwap c hm, decodeMultiplySwap, if_neg h22,
    swpBits_fields]
  rfl

/-! ## Halfword and signed transfer -/

theorem halfBits_fields (load : Bool) (sh : BitVec 2) (m : IndexMode) (rn rd : Reg) (o : HalfOffset) :
    let i := halfBits load sh m rn rd o
    field i 25 3 = 0b000#3 ∧ indexModeOf i = m ∧ i.getLsbD 20 = load ∧ regAt i 16 = rn ∧ regAt i 12 = rd ∧
      i.getLsbD 7 = true ∧ field i 5 2 = sh ∧ i.getLsbD 4 = true := by
  simp (disch := decide) only [halfBits, indexModeOf, regAt, field_append_hi, field_append_lo, field_full,
    getLsbD_append_hi, getLsbD_append_lo, getLsbD_ofBool_of_eq, Nat.reduceSub, Reg.toFin_bits, true_and]
  decide

theorem halfBits_imm (load : Bool) (sh : BitVec 2) (m : IndexMode) (rn rd : Reg) (off8 : BitVec 8) :
    let i := halfBits load sh m rn rd (.imm off8)
    i.getLsbD 22 = true ∧ field i 8 4 ++ field i 0 4 = off8 := by
  simp (disch := decide) only [halfBits, field_append_hi, field_append_lo, field_full, getLsbD_append_hi,
    getLsbD_append_lo, BitVec.reduceGetLsb, Nat.reduceSub, true_and]
  exact (field_join off8 0 4 4).trans (field_whole off8)

theorem halfBits_reg (load : Bool) (sh : BitVec 2) (m : IndexMode) (rn rd rm : Reg) :
    let i := halfBits load sh m rn rd (.reg rm)
    i.getLsbD 22 = false ∧ field i 8 4 = 0#4 ∧ regAt i 0 = rm := by
  simp (disch := decide) only [halfBits, regAt, field_append_hi, field_append_lo, field_full, getLsbD_append_hi,
    getLsbD_append_lo, BitVec.reduceGetLsb, Nat.reduceSub, Reg.toFin_bits, and_self]

/-- SH = 00 is a multiply or a swap. -/
theorem decodeArmBits_halfBits {sh : BitVec 2} (h : sh ≠ 0b00#2) (load : Bool) (m : IndexMode) (rn rd : Reg)
    (o : HalfOffset) :
    decodeArmBits c (halfBits load sh m rn rd o) = decodeHalfTransfer c (halfBits load sh m rn rd o) := by
  obtain ⟨h25, -, -, -, -, h7, h5, h4⟩ := halfBits_fields load sh m rn rd o
  have hm : field (halfBits load sh m rn rd o) 4 4 ≠ 0b1001#4 := fun hm =>
    h (h5.symm.trans (field_subfield hm 1 2))
  simp only [decodeArmBits, h25, decodeGroup000_halfTransfer c hm ⟨h7, h4⟩]

/-! ## Single data transfer, block transfer, branches and software interrupt -/

theorem singleBits_fields (byte load : Bool) (m : IndexMode) (rn rd : Reg) (o : WordOffset) :
    let i := singleBits byte load m rn rd o
    indexModeOf i = m ∧ i.getLsbD 22 = byte ∧ i.getLsbD 20 = load ∧ regAt i 16 = rn ∧ regAt i 12 = rd := by
  simp (disch := decide) only [singleBits, indexModeOf, regAt, field_append_hi, field_append_lo, field_full,
    getLsbD_append_hi, getLsbD_append_lo, getLsbD_ofBool_of_eq, Nat.reduceSub, Reg.toFin_bits, and_self]

theorem singleBits_imm (byte load : Bool) (m : IndexMode) (rn rd : Reg) (imm12 : BitVec 12) :
    let i := singleBits byte load m rn rd (.imm imm12)
    field i 25 3 = 0b010#3 ∧ field i 0 12 = imm12 := by
  simp (disch := decide) only [singleBits, field_append_hi, field_append_lo, field_full, and_self]

theorem singleBits_reg (byte load : Bool) (m : IndexMode) (rn rd rm : Reg) (ty : ShiftType) (amount : Fin 32) :
    let i := singleBits byte load m rn rd (.reg rm ty amount)
    field i 25 3 = 0b011#3 ∧ i.getLsbD 4 = false ∧ regAt i 0 = rm ∧ ShiftType.ofBits (field i 5 2) = ty ∧
      field i 7 5 = BitVec.ofFin amount := by
  simp (disch := decide) only [singleBits, regAt, field_append_hi, field_append_lo, field_full,
    getLsbD_append_hi, getLsbD_append_lo, BitVec.getLsbD_zero, Nat.reduceSub, Reg.toFin_bits, ShiftType.ofBits_bits, and_self]

theorem decodeArmBits_singleBits (byte load : Bool) (m : IndexMode) (rn rd : Reg) (o : WordOffset) :
    decodeArmBits c (singleBits byte load m rn rd o) =
      decodeSingleTransfer c (singleBits byte load m rn rd o) o := by
  cases o with
  | imm imm12 => simp only [decodeArmBits, singleBits_imm]
  | reg rm ty amount => simp only [decodeArmBits, singleBits_reg, Bool.false_eq_true, if_false]

theorem blockBits_fields (load sf : Bool) (m : IndexMode) (rn : Reg) (list : BitVec 16) :
    let i := blockBits load sf m rn list
    field i 25 3 = 0b100#3 ∧ indexModeOf i = m ∧ i.getLsbD 22 = sf ∧ i.getLsbD 20 = load ∧ regAt i 16 = rn ∧
      field i 0 16 = list := by
  simp (disch := decide) only [blockBits, indexModeOf, regAt, field_append_hi, field_append_lo, field_full,
    getLsbD_append_hi, getLsbD_append_lo, getLsbD_ofBool_of_eq, Nat.reduceSub, Reg.toFin_bits, and_self]

theorem decodeArmBits_blockBits (load sf : Bool) (m : IndexMode) (rn : Reg) (list : BitVec 16) :
    decodeArmBits c (blockBits load sf m rn list) =
      if load then .ldm c m sf rn list else .stm c m sf rn list := by
  simp only [decodeArmBits, blockBits_fields]

/-- The fields of B, BL and SWI. -/
theorem opcode24_fields (op : BitVec 4) (x : BitVec 24) :
    field (op ++ x) 25 3 = field op 1 3 ∧ (op ++ x).getLsbD 24 = op.getLsbD 0 ∧ field (op ++ x) 0 24 = x := by
  simp (disch := decide) only [field_append_hi, field_append_lo, field_full, getLsbD_append_hi, Nat.reduceSub,
    and_self]

end Sys2Proof
end

section
/-! The format tags of the 16-bit set (30_encoding.md R110) and its formats (R111). -/

namespace Sys2Proof

/-! ## The high byte gives the format -/

theorem thumbFormat_congr {h h' : Half} (e : field h 8 8 = field h' 8 8) : thumbFormat h = thumbFormat h' := by
  have sub (lo k : Nat) (hk : lo + k ≤ 8) : field h (8 + lo) k = field h' (8 + lo) k :=
    (field_subfield e lo k hk).trans (field_subfield rfl lo k hk).symm
  have h9 : h.getLsbD 9 = h'.getLsbD 9 := (getLsbD_of_field e 1).trans (getLsbD_of_field rfl 1).symm
  have h9' : field h 9 2 = field h' 9 2 := sub 1 2 (by decide)
  have h10 : field h 10 6 = field h' 10 6 := sub 2 6 (by decide)
  have h11 : field h 11 5 = field h' 11 5 := sub 3 5 (by decide)
  have h12 : field h 12 4 = field h' 12 4 := sub 4 4 (by decide)
  have h13 : field h 13 3 = field h' 13 3 := sub 5 3 (by decide)
  rw [thumbFormat, thumbFormat, e, h9, h9', h10, h11, h12, h13]

theorem thumbFormat_append (b x : BitVec 8) : thumbFormat (b ++ x) = thumbFormat (b ++ 0#8) :=
  thumbFormat_congr (by rw [field_append_left _ _ _ _ (by decide), field_append_left _ _ _ _ (by decide)])

theorem thumbFormat_highByte (h : Half) : thumbFormat h = thumbFormat (field h 8 8 ++ 0#8) :=
  thumbFormat_congr (by rw [field_append_left _ _ _ _ (by decide), field_whole])

/-- The format of a halfword with these top bits and zeros below. -/
def topBitsFormat {k : Nat} (j : Nat) (op : BitVec k) : ThumbFormat :=
  thumbFormat ((op ++ 0#j).setWidth 8 ++ 0#8)

/-- The top bits settle the format: every completion to a byte has the same. -/
abbrev TopBitsSettle {k : Nat} (j : Nat) (op : BitVec k) : Prop :=
  ∀ y : BitVec j, thumbFormat ((op ++ y).setWidth 8 ++ 0#8) = topBitsFormat j op

theorem thumbFormat_of_topBits (j k : Nat) {h : Half} {op : BitVec k} (ht : field h (8 + j) k = op)
    (hop : TopBitsSettle j op) (hjk : k + j = 8 := by decide) : thumbFormat h = topBitsFormat j op := by
  obtain rfl : k = 8 - j := by omega
  have hb : field h 8 8 = (op ++ field h 8 j).setWidth 8 := by
    rw [← ht, field_join]
    ext t hlt
    simp [field, hjk, hlt]
  rw [thumbFormat_highByte, hb, hop]

/-! ## The formats -/

theorem aluHalf_fields (op : BitVec 4) (rd rs : LoReg) :
    let h := aluHalf op rd rs
    field h 10 6 = 0b010000#6 ∧ field h 6 4 = op ∧ loAt h 0 = rd ∧ loAt h 3 = rs := by
  simp (disch := decide) only [aluHalf, loAt, field_append_hi, field_append_lo, field_full, Nat.reduceSub,
    LoReg.toFin_bits, and_self]

theorem decodeThumb_aluHalf (op : BitVec 4) (rd rs : LoReg) :
    decodeThumb (aluHalf op rd rs) = decodeThumbAlu op rd rs := by
  obtain ⟨h10, h6, hd, hs⟩ := aluHalf_fields op rd rs
  have hf : thumbFormat (aluHalf op rd rs) = .f4 := thumbFormat_of_topBits 2 6 h10 (by decide)
  simp only [decodeThumb, hf, h6, hd, hs]

theorem hiHalf_fields (op : BitVec 2) (rd rs : Reg) :
    let h := hiHalf op rd rs
    field h 10 6 = 0b010001#6 ∧ field h 8 2 = op ∧ regAt h 3 = rs ∧
      (BitVec.ofBool (h.getLsbD 7) ++ field h 0 3).toFin = rd := by
  have hd : BitVec.ofBool ((field (Reg.bits rd) 3 1).getLsbD 0) ++ field (Reg.bits rd) 0 3 = Reg.bits rd := by
    revert rd; decide
  simp (disch := decide) only [hiHalf, regAt, field_append_hi, field_append_lo, field_full, getLsbD_append_hi,
    getLsbD_append_lo, Nat.reduceSub, hd, Reg.toFin_bits, and_self]

theorem decodeThumb_hiHalf (op : BitVec 2) (rd rs : Reg) :
    decodeThumb (hiHalf op rd rs) = decodeThumbHi (hiHalf op rd rs) := by
  obtain ⟨h10, -⟩ := hiHalf_fields op rd rs
  have hf : thumbFormat (hiHalf op rd rs) = .f5 := thumbFormat_of_topBits 2 6 h10 (by decide)
  simp only [decodeThumb, hf]

/-- The fields of BX. -/
theorem bxHalf_fields (op : BitVec 9) (rs : Reg) (low : BitVec 3) :
    field (op ++ Reg.bits rs ++ low) 7 9 = op ∧ regAt (op ++ Reg.bits rs ++ low) 3 = rs ∧
      field (op ++ Reg.bits rs ++ low) 0 3 = low := by
  simp (disch := decide) only [regAt, field_append_hi, field_append_lo, field_full, Nat.reduceSub,
    Reg.toFin_bits, and_self]

theorem decodeThumb_bx (rs : Reg) (low : BitVec 3) :
    decodeThumb (0b010001110#9 ++ Reg.bits rs ++ low) = .tBx rs low := by
  obtain ⟨h7, hs, hl⟩ := bxHalf_fields 0b010001110#9 rs low
  have hop : field (0b010001110#9 ++ Reg.bits rs ++ low) 8 2 = 0b11#2 := field_subfield h7 1 2
  have h1 : (0b010001110#9 ++ Reg.bits rs ++ low).getLsbD 7 = false := getLsbD_of_field h7 0
  have hf : thumbFormat (0b010001110#9 ++ Reg.bits rs ++ low) = .f5 :=
    thumbFormat_of_topBits 2 6 (field_subfield h7 3 6) (by decide)
  simp only [decodeThumb, hf, decodeThumbHi, hop, h1, hs, hl, Bool.false_eq_true, if_false]
  rfl

theorem threeHalf_fields (op : BitVec 7) (rd rb ro : LoReg) :
    let h := threeHalf op rd rb ro
    field h 9 7 = op ∧ h.getLsbD 11 = op.getLsbD 2 ∧ h.getLsbD 10 = op.getLsbD 1 ∧ h.getLsbD 9 = op.getLsbD 0 ∧
      field h 6 3 = LoReg.bits ro ∧ loAt h 6 = ro ∧ loAt h 3 = rb ∧ loAt h 0 = rd := by
  simp (disch := decide) only [threeHalf, loAt, field_append_hi, field_append_lo, field_full, getLsbD_append_hi,
    Nat.reduceSub, LoReg.toFin_bits, and_self]

theorem thumbFormat_threeHalf {op : BitVec 7} (hop : TopBitsSettle 1 op) (rd rb ro : LoReg) :
    thumbFormat (threeHalf op rd rb ro) = topBitsFormat 1 op :=
  thumbFormat_of_topBits 1 7 (threeHalf_fields op rd rb ro).1 hop

theorem offHalf_fields (op off : BitVec 5) (rd rb : LoReg) :
    let h := offHalf op off rd rb
    field h 11 5 = op ∧ field h 11 2 = field op 0 2 ∧ h.getLsbD 12 = op.getLsbD 1 ∧
      h.getLsbD 11 = op.getLsbD 0 ∧ field h 6 5 = off ∧ loAt h 0 = rd ∧ loAt h 3 = rb := by
  simp (disch := decide) only [offHalf, loAt, field_append_hi, field_append_lo, field_full, getLsbD_append_hi,
    Nat.reduceSub, LoReg.toFin_bits, and_self]

theorem thumbFormat_offHalf {op : BitVec 5} (hop : TopBitsSettle 3 op) (off : BitVec 5) (rd rb : LoReg) :
    thumbFormat (offHalf op off rd rb) = topBitsFormat 3 op :=
  thumbFormat_of_topBits 3 5 (offHalf_fields op off rd rb).1 hop

theorem byteHalf_fields (op : BitVec 5) (rd : LoReg) (b : BitVec 8) :
    let h := byteHalf op rd b
    field h 11 5 = op ∧ field h 11 2 = field op 0 2 ∧ h.getLsbD 11 = op.getLsbD 0 ∧ loAt h 8 = rd ∧
      field h 0 8 = b := by
  simp (disch := decide) only [byteHalf, loAt, field_append_hi, field_append_lo, field_full, getLsbD_append_hi,
    Nat.reduceSub, LoReg.toFin_bits, and_self]

theorem thumbFormat_byteHalf {op : BitVec 5} (hop : TopBitsSettle 3 op) (rd : LoReg) (b : BitVec 8) :
    thumbFormat (byteHalf op rd b) = topBitsFormat 3 op :=
  thumbFormat_of_topBits 3 5 (byteHalf_fields op rd b).1 hop

/-- The fields of format 13. -/
theorem adjustHalf_fields (op : BitVec 8) (neg : Bool) (x : BitVec 7) :
    field (op ++ BitVec.ofBool neg ++ x) 8 8 = op ∧ (op ++ BitVec.ofBool neg ++ x).getLsbD 7 = neg ∧
      field (op ++ BitVec.ofBool neg ++ x) 0 7 = x := by
  simp (disch := decide) only [field_append_hi, field_append_lo, field_full, getLsbD_append_hi,
    getLsbD_append_lo, getLsbD_ofBool_of_eq, Nat.reduceSub, and_self]

theorem decodeThumb_adjustSp (neg : Bool) (x : BitVec 7) :
    decodeThumb (0b10110000#8 ++ BitVec.ofBool neg ++ x) = .tAdjustSp neg x := by
  obtain ⟨h8, hn, hx⟩ := adjustHalf_fields 0b10110000#8 neg x
  have hf : thumbFormat (0b10110000#8 ++ BitVec.ofBool neg ++ x) = .f13 :=
    thumbFormat_of_topBits 0 8 h8 (by decide)
  simp only [decodeThumb, hf, hn, hx]

/-- The fields of format 14. -/
theorem flagHalf_fields (op : BitVec 7) (x : Bool) (b : BitVec 8) :
    field (op ++ BitVec.ofBool x ++ b) 9 7 = op ∧ (op ++ BitVec.ofBool x ++ b).getLsbD 11 = op.getLsbD 2 ∧
      (op ++ BitVec.ofBool x ++ b).getLsbD 8 = x ∧ field (op ++ BitVec.ofBool x ++ b) 0 8 = b := by
  simp (disch := decide) only [field_append_hi, field_append_lo, field_full, getLsbD_append_hi,
    getLsbD_append_lo, getLsbD_ofBool_of_eq, Nat.reduceSub, and_self]

theorem thumbFormat_flagHalf {op : BitVec 7} (hop : TopBitsSettle 1 op) (x : Bool) (b : BitVec 8) :
    thumbFormat (op ++ BitVec.ofBool x ++ b) = topBitsFormat 1 op :=
  thumbFormat_of_topBits 1 7 (flagHalf_fields op x b).1 hop

/-- The fields of formats 18 and 19. -/
theorem opcode11_fields (op : BitVec 5) (x : BitVec 11) :
    field (op ++ x) 11 5 = op ∧ (op ++ x).getLsbD 11 = op.getLsbD 0 ∧ field (op ++ x) 0 11 = x := by
  simp (disch := decide) only [field_append_hi, field_append_lo, field_full, getLsbD_append_hi, Nat.reduceSub,
    and_self]

theorem thumbFormat_opcode11 {op : BitVec 5} (hop : TopBitsSettle 3 op) (x : BitVec 11) :
    thumbFormat (op ++ x) = topBitsFormat 3 op :=
  thumbFormat_of_topBits 3 5 (opcode11_fields op x).1 hop

/-- The fields of formats 16 and 17. -/
theorem opcode8_fields (b x : BitVec 8) :
    field (b ++ x) 8 4 = field b 0 4 ∧ field (b ++ x) 0 8 = x := by
  simp (disch := decide) only [field_append_hi, field_append_lo, field_full, Nat.reduceSub, and_self]

theorem decodeThumb_cond (b x : BitVec 8) (hb : thumbFormat (b ++ 0#8) = .f16) :
    decodeThumb (b ++ x) = decodeThumbCond (b ++ x) := by
  rw [decodeThumb, thumbFormat_append, hb]

end Sys2Proof
end

section
/-! The unallocated encodings of the 32-bit set (30_encoding.md R97): what is on the list in each group of R93,
and what the decoder makes of it. -/

namespace Sys2Proof

variable (c : Cond) {i : BitVec 28}

/-! ## The list, group by group -/

theorem field_20_2_eq_iff : field i 20 2 = 0b10#2 ↔ i.getLsbD 21 = true ∧ i.getLsbD 20 = false := by
  have h0 : i.getLsbD 20 = (field i 20 2).getLsbD 0 := getLsbD_of_field rfl 0
  have h1 : i.getLsbD 21 = (field i 20 2).getLsbD 1 := getLsbD_of_field rfl 1
  rw [h0, h1]
  generalize field i 20 2 = v
  revert v; decide

/-- R93 line 6. -/
theorem unallocatedArm_multiply (h25 : field i 25 3 = 0b000#3) (hm : field i 4 4 = 0b1001#4) :
    unallocatedArm i = true ↔ field i 22 6 ≠ 0#6 ∧ field i 23 5 ≠ 0b00001#5 ∧
      ¬ (field i 23 5 = 0b00010#5 ∧ field i 20 2 = 0b00#2 ∧ field i 8 4 = 0#4) := by
  have h5 : field i 5 2 = 0b00#2 := field_subfield hm 1 2
  have h4 : i.getLsbD 4 = true := getLsbD_of_field hm 0
  have h7 : i.getLsbD 7 = true := getLsbD_of_field hm 3
  have hb : i.getLsbD 25 = false := getLsbD_of_field h25 0
  have h24 : field i 24 4 ≠ 0b1110#4 := fun h => absurd (h25.symm.trans (field_subfield h 1 3)) (by decide)
  simp only [field] at *
  grind [unallocatedArm, unallocatedHalfTransfer, unallocatedMultiply, unallocatedCompare, unallocatedSpace]

/-- R93 line 5. -/
theorem unallocatedArm_halfTransfer (h25 : field i 25 3 = 0b000#3) (hm : field i 4 4 ≠ 0b1001#4)
    (h7 : i.getLsbD 7 = true) (h4 : i.getLsbD 4 = true) :
    unallocatedArm i = true ↔
      (i.getLsbD 22 = false ∧ field i 8 4 ≠ 0#4) ∨ (i.getLsbD 20 = false ∧ field i 5 2 ≠ 0b01#2) := by
  have hb : i.getLsbD 25 = false := getLsbD_of_field h25 0
  have h24 : field i 24 4 ≠ 0b1110#4 := fun h => absurd (h25.symm.trans (field_subfield h 1 3)) (by decide)
  have hsh : ∀ v : BitVec 4, v ≠ 0b1001#4 → v.getLsbD 3 = true → v.getLsbD 0 = true →
      field v 1 2 ≠ 0b00#2 ∧ (field v 1 2 ≠ 0b01#2 ↔ v.getLsbD 2 = true) := by decide
  have h5 : field i 5 2 ≠ 0b00#2 ∧ (field i 5 2 ≠ 0b01#2 ↔ i.getLsbD 6 = true) := by
    rw [show field i 5 2 = field (field i 4 4) 1 2 from field_subfield rfl 1 2,
      show i.getLsbD 6 = (field i 4 4).getLsbD 2 from getLsbD_of_field rfl 2]
    exact hsh _ hm ((getLsbD_of_field rfl 3).symm.trans h7) ((getLsbD_of_field rfl 0).symm.trans h4)
  simp only [field] at *
  grind [unallocatedArm, unallocatedHalfTransfer, unallocatedMultiply, unallocatedCompare, unallocatedSpace]

/-- R93 line 10 in the `000` group. -/
theorem unallocatedArm_group000 (h25 : field i 25 3 = 0b000#3)
    (h74 : ¬ (i.getLsbD 7 = true ∧ i.getLsbD 4 = true)) :
    unallocatedArm i = true ↔
      (field i 23 2 = 0b10#2 ∧ i.getLsbD 20 = false) ∧ field i 4 24 ≠ 0x12FFF1#24 ∧
        ¬ (field i 23 5 = 0b00010#5 ∧ field i 16 6 = 0b001111#6 ∧ field i 0 12 = 0#12) ∧
        ¬ (field i 23 5 = 0b00010#5 ∧ field i 20 2 = 0b10#2 ∧ field i 4 12 = 0xF00#12) := by
  have hb : i.getLsbD 25 = false := getLsbD_of_field h25 0
  have h26 : field i 26 2 = 0b00#2 := field_subfield h25 1 2
  have h24 : field i 24 4 ≠ 0b1110#4 := fun h => absurd (h25.symm.trans (field_subfield h 1 3)) (by decide)
  have hm : field i 4 4 ≠ 0b1001#4 := fun hm => h74 ⟨getLsbD_of_field hm 3, getLsbD_of_field hm 0⟩
  have h23 : field i 23 2 = 0b10#2 → field i 23 5 = 0b00010#5 := fun h => by
    rw [← field_join i 23 2 3, h25, h]; rfl
  have h20 := field_20_2_eq_iff (i := i)
  simp only [field] at *
  grind [unallocatedArm, unallocatedHalfTransfer, unallocatedMultiply, unallocatedCompare, unallocatedSpace]

/-- R93 line 10 in the `001` group. -/
theorem unallocatedArm_group001 (h25 : field i 25 3 = 0b001#3) :
    unallocatedArm i = true ↔
      (field i 23 2 = 0b10#2 ∧ i.getLsbD 20 = false) ∧
        ¬ (field i 23 2 = 0b10#2 ∧ field i 20 2 = 0b10#2 ∧ field i 12 4 = 0b1111#4) := by
  have hb : i.getLsbD 25 = true := getLsbD_of_field h25 0
  have h26 : field i 26 2 = 0b00#2 := field_subfield h25 1 2
  have h24 : field i 24 4 ≠ 0b1110#4 := fun h => absurd (h25.symm.trans (field_subfield h 1 3)) (by decide)
  have hbx : field i 4 24 ≠ 0x12FFF1#24 := fun h => absurd ((field_subfield h 21 3).symm.trans h25) (by decide)
  have h20 := field_20_2_eq_iff (i := i)
  simp only [field] at *
  grind [unallocatedArm, unallocatedHalfTransfer, unallocatedMultiply, unallocatedCompare, unallocatedSpace]

theorem field_24_4_eq_iff : field i 24 4 = 0b1110#4 ↔ field i 25 3 = 0b111#3 ∧ i.getLsbD 24 = false := by
  have h0 : i.getLsbD 24 = (field i 24 4).getLsbD 0 := getLsbD_of_field rfl 0
  have h1 : field i 25 3 = field (field i 24 4) 1 3 := field_subfield rfl 1 3
  rw [h0, h1]
  generalize field i 24 4 = v
  revert v; decide

/-- R93 lines 12, 16 and 17. -/
theorem unallocatedArm_space {g : BitVec 3} (h : field i 25 3 = g) (hg : field g 1 2 ≠ 0b00#2) :
    unallocatedArm i = true ↔
      (g = 0b011#3 ∧ i.getLsbD 4 = true) ∨ g = 0b110#3 ∨ (g = 0b111#3 ∧ i.getLsbD 24 = false) := by
  have h26 : field i 26 2 ≠ 0b00#2 := fun h' => hg ((field_subfield h 1 2).symm.trans h')
  have h0 : g ≠ 0b000#3 := fun h' => hg (h' ▸ rfl)
  have h24 := field_24_4_eq_iff (i := i)
  subst h
  simp only [field] at *
  simp only [unallocatedArm, unallocatedHalfTransfer, unallocatedMultiply, unallocatedCompare, unallocatedSpace,
    h0, h26, h24, false_and, decide_false, Bool.or_false, Bool.false_or, decide_eq_true_eq]

/-! ## What the decoder makes of it -/

/-- The instruction field that an UNDEFINED instruction of the 32-bit set keeps. -/
def Instr.undefinedBits? : Instr → Option (BitVec 28)
  | .undefinedArm _ bits => some bits
  | _ => none

theorem decodeDataProcessing_undefinedBits? (i : BitVec 28) (o : Operand2) :
    (decodeDataProcessing c i o).undefinedBits? = none := by
  unfold decodeDataProcessing
  dsimp only
  split <;> rfl

theorem decodeSingleTransfer_undefinedBits? (i : BitVec 28) (o : WordOffset) :
    (decodeSingleTransfer c i o).undefinedBits? = none := by
  unfold decodeSingleTransfer
  dsimp only
  split <;> rfl

theorem decodeMultiplySwap_undefinedBits? (h25 : field i 25 3 = 0b000#3) (hm : field i 4 4 = 0b1001#4) :
    (decodeMultiplySwap c i).undefinedBits? = if unallocatedArm i then some i else none := by
  simp only [unallocatedArm_multiply h25 hm]
  unfold decodeMultiplySwap
  dsimp only
  split
  · next h => split <;> exact (if_neg fun hu => hu.1 h).symm
  · next h22 =>
    split
    · next h => split <;> exact (if_neg fun hu => hu.2.1 h).symm
    · next h23 =>
      split
      · next h => split <;> exact (if_neg fun hu => hu.2.2 h).symm
      · next h => exact (if_pos ⟨h22, h23, h⟩).symm

theorem decodeHalfTransfer_undefinedBits? (h25 : field i 25 3 = 0b000#3) (hm : field i 4 4 ≠ 0b1001#4)
    (h7 : i.getLsbD 7 = true) (h4 : i.getLsbD 4 = true) :
    (decodeHalfTransfer c i).undefinedBits? = if unallocatedArm i then some i else none := by
  simp only [unallocatedArm_halfTransfer h25 hm h7 h4]
  unfold decodeHalfTransfer
  extract_lets m rn rd o
  clear_value o
  split
  · next h => exact (if_pos (.inl h)).symm
  · next h22 =>
    split
    · next h =>
      have hn : ¬ (i.getLsbD 20 = false ∧ field i 5 2 ≠ 0b01#2) := fun hs =>
        absurd (h.symm.trans hs.1) (by decide)
      split <;> exact (if_neg (not_or_intro h22 hn)).symm
    · next h20 =>
      split
      · next h => exact (if_neg (not_or_intro h22 fun hs => hs.2 h)).symm
      · next h => exact (if_pos (.inr ⟨Bool.eq_false_iff.mpr h20, h⟩)).symm

theorem decodeGroup000_undefinedBits? (h25 : field i 25 3 = 0b000#3) :
    (decodeGroup000 c i).undefinedBits? = if unallocatedArm i then some i else none := by
  by_cases hm : field i 4 4 = 0b1001#4
  · rw [decodeGroup000_multiplySwap c hm, decodeMultiplySwap_undefinedBits? c h25 hm]
  by_cases h74 : i.getLsbD 7 = true ∧ i.getLsbD 4 = true
  · rw [decodeGroup000_halfTransfer c hm h74, decodeHalfTransfer_undefinedBits? c h25 hm h74.1 h74.2]
  simp only [unallocatedArm_group000 h25 h74]
  by_cases hc : field i 23 2 = 0b10#2 ∧ i.getLsbD 20 = false
  · by_cases hbx : field i 4 24 = 0x12FFF1#24
    · rw [decodeGroup000_bx c hbx, if_neg fun hu => hu.2.1 hbx]; rfl
    by_cases hmrs : field i 23 5 = 0b00010#5 ∧ field i 16 6 = 0b001111#6 ∧ field i 0 12 = 0#12
    · rw [decodeGroup000_mrs c hmrs, if_neg fun hu => hu.2.2.1 hmrs]; rfl
    by_cases hmsr : field i 23 5 = 0b00010#5 ∧ field i 20 2 = 0b10#2 ∧ field i 4 12 = 0xF00#12
    · rw [decodeGroup000_msr c hmsr, if_neg fun hu => hu.2.2.2 hmsr]; rfl
    rw [decodeGroup000_undefined c h74 hc hbx hmrs hmsr, if_pos ⟨hc, hbx, hmrs, hmsr⟩]
    rfl
  · rw [decodeGroup000_dataProcessing c h74 hc, decodeDataProcessing_undefinedBits?, if_neg fun hu => hc hu.1]

theorem decodeGroup001_undefinedBits? (h25 : field i 25 3 = 0b001#3) :
    (decodeGroup001 c i).undefinedBits? = if unallocatedArm i then some i else none := by
  simp only [unallocatedArm_group001 h25]
  unfold decodeGroup001
  split
  · next h => rw [if_neg fun hu => hu.2 h]; rfl
  · next hmsr =>
    split
    · next h => rw [if_pos ⟨h, hmsr⟩]; rfl
    · next h => rw [decodeDataProcessing_undefinedBits?, if_neg fun hu => h hu.1]

theorem decodeArmBits_undefinedBits? (i : BitVec 28) :
    (decodeArmBits c i).undefinedBits? = if unallocatedArm i then some i else none := by
  unfold decodeArmBits
  split
  · next h => exact decodeGroup000_undefinedBits? c h
  · next h => exact decodeGroup001_undefinedBits? c h
  · next h =>
    rw [decodeSingleTransfer_undefinedBits?, if_neg (by simp [unallocatedArm_space h (by decide)])]
  · next h =>
    have hu : unallocatedArm i = true ↔ i.getLsbD 4 = true := by simp [unallocatedArm_space h (by decide)]
    split
    · next h4 => exact (if_pos (hu.mpr h4)).symm
    · next h4 => rw [decodeSingleTransfer_undefinedBits?, if_neg (mt hu.mp h4)]
  · next h =>
    have hn : ¬ unallocatedArm i = true := by simp [unallocatedArm_space h (by decide)]
    rw [if_neg hn]
    split <;> rfl
  · next h =>
    have hn : ¬ unallocatedArm i = true := by simp [unallocatedArm_space h (by decide)]
    rw [if_neg hn]
    split <;> rfl
  · next h =>
    rw [if_pos (by simp [unallocatedArm_space h (by decide)])]
    rfl
  · next h0 h1 h2 h3 h4 h5 h6 =>
    have h7 : field i 25 3 = 0b111#3 := by
      generalize field i 25 3 = g at *
      revert g; decide
    have hu : unallocatedArm i = true ↔ ¬ i.getLsbD 24 = true := by simp [unallocatedArm_space h7 (by decide)]
    split
    · next h24 => exact (if_neg (fun h => hu.mp h h24)).symm
    · next h24 => exact (if_pos (hu.mpr h24)).symm

theorem decodeArmBits_of_unallocated (h : unallocatedArm i = true) : decodeArmBits c i = .undefinedArm c i := by
  have hu := decodeArmBits_undefinedBits? c i
  have hc := decodeArmBits_cond? c i
  rw [if_pos h] at hu
  cases hd : decodeArmBits c i with
  | undefinedArm c' bits =>
    rw [hd] at hu hc
    cases hu
    cases hc
    rfl
  | _ => rw [hd] at hu; cases hu

theorem decodeArmBits_eq_undefinedArm_iff (i : BitVec 28) :
    (∃ c' bits, decodeArmBits c i = .undefinedArm c' bits) ↔ unallocatedArm i = true := by
  constructor
  · rintro ⟨c', bits, hd⟩
    by_contra hn
    have hu := decodeArmBits_undefinedBits? c i
    rw [hd, if_neg hn] at hu
    cases hu
  · exact fun h => ⟨c, i, decodeArmBits_of_unallocated c h⟩

end Sys2Proof
end

section
/-! The unallocated halfwords of the 16-bit set (30_encoding.md R121). -/

namespace Sys2Proof

theorem decodeThumbHi_eq_tUndefined_iff (h : Half) :
    decodeThumbHi h = .tUndefined h ↔ field h 8 2 = 0b11#2 ∧ h.getLsbD 7 = true := by
  unfold decodeThumbHi
  dsimp only
  split
  · next e => simp [e]
  · next e => simp [e]
  · next e => simp [e]
  · next e0 e1 e2 =>
    have e3 : field h 8 2 = 0b11#2 := by
      generalize field h 8 2 = v at *
      revert v; decide
    split
    · next h7 => exact iff_of_true rfl ⟨e3, h7⟩
    · next h7 => exact iff_of_false Instr.noConfusion fun hc => h7 hc.2

theorem decodeThumbCond_eq_tUndefined_iff (h : Half) :
    decodeThumbCond h = .tUndefined h ↔ 14 ≤ (field h 8 4).toNat := by
  unfold decodeThumbCond
  dsimp only
  generalize field h 8 4 = v
  split
  on_goal 15 => exact iff_of_true rfl (by revert v; decide)
  all_goals exact iff_of_false Instr.noConfusion (by decide)

theorem decodeThumbAlu_ne_tUndefined (op : BitVec 4) (rd rs : LoReg) (h : Half) :
    decodeThumbAlu op rd rs ≠ .tUndefined h := by
  unfold decodeThumbAlu
  split <;> exact Instr.noConfusion

/-- Only three formats hold unallocated halfwords (R121). -/
theorem decodeThumb_eq_tUndefined_iff_format (h : Half) :
    decodeThumb h = .tUndefined h ↔ thumbFormat h = .unallocated ∨
      (thumbFormat h = .f16 ∧ decodeThumbCond h = .tUndefined h) ∨
      (thumbFormat h = .f5 ∧ decodeThumbHi h = .tUndefined h) := by
  unfold decodeThumb
  cases thumbFormat h with
  | f4 => simp [decodeThumbAlu_ne_tUndefined]
  | f5 | f6 | f13 | f16 | f17 | f18 | unallocated => simp
  | _ => dsimp only; split <;> simp

/-- The ranges of R121 as high bytes: no format, format 16 with its condition 1110, format 5 with op 11. -/
theorem thumbFormat_unallocated_bytes (b : BitVec 8) :
    (thumbFormat (b ++ 0#8) = .unallocated ↔
      (0xB1 ≤ b.toNat ∧ b.toNat ≤ 0xB3) ∨ (0xB6 ≤ b.toNat ∧ b.toNat ≤ 0xBB) ∨
        (0xBE ≤ b.toNat ∧ b.toNat ≤ 0xBF) ∨ (0xE8 ≤ b.toNat ∧ b.toNat ≤ 0xEF)) ∧
    (thumbFormat (b ++ 0#8) = .f16 ∧ 14 ≤ (field b 0 4).toNat ↔ b.toNat = 0xDE) ∧
    (thumbFormat (b ++ 0#8) = .f5 ∧ field b 0 2 = 0b11#2 ↔ b.toNat = 0x47) := by
  revert b; decide

theorem highByte_toNat (h : Half) : (field h 8 8).toNat = h.toNat / 256 := by
  have hlt := h.isLt
  simp only [field, BitVec.extractLsb'_toNat, Nat.shiftRight_eq_div_pow]
  omega

theorem decodeThumb_eq_tUndefined_iff (h : Half) :
    decodeThumb h = .tUndefined h ↔ unallocatedThumb h = true := by
  obtain ⟨hu, hc, hh⟩ := thumbFormat_unallocated_bytes (field h 8 8)
  have h4 : field (field h 8 8) 0 4 = field h 8 4 := (field_subfield rfl 0 4).symm
  have h2 : field (field h 8 8) 0 2 = field h 8 2 := (field_subfield rfl 0 2).symm
  have h7 : h.getLsbD 7 = true ↔ h.toNat / 128 % 2 = 1 := by
    simp [BitVec.getLsbD, Nat.testBit_eq_decide_div_mod_eq]
  rw [← thumbFormat_highByte, highByte_toNat] at hu hc hh
  rw [h4] at hc
  rw [h2] at hh
  rw [decodeThumb_eq_tUndefined_iff_format, decodeThumbCond_eq_tUndefined_iff, decodeThumbHi_eq_tUndefined_iff,
    ← and_assoc, hu, hc, hh, h7]
  simp only [unallocatedThumb, decide_eq_true_eq]
  omega

end Sys2Proof
end

section
/-! The statements about encodings (30_encoding.md). -/

open Sys2Proof Sys2Proof.Machine

/-- Settles O4: `decodeArmBits_undefinedBits?` gives the list of R97 group by group,
`decodeThumb_eq_tUndefined_iff` the ranges of R121 by the high byte. -/
theorem unallocatedEncodings : Obligations.UnallocatedEncodings := by
  refine ⟨fun w => decodeArmBits_eq_undefinedArm_iff _ _, fun h => ?_, fun w s hu hc => ?_, fun h s hd => ?_⟩
  · rw [decodeThumb_eq_tUndefined_iff, unallocatedThumb, decide_eq_true_eq]
  · have hd : decodeArm w = .undefinedArm _ _ := decodeArmBits_of_unallocated _ hu
    rw [Raises, hd]
    exact if_pos hc
  · rw [Raises, hd]
    rfl

/-- Settles O2: in each format the fields that the encoder joins are the fields that the decoder reads, and the
opcode bits select the format's line. -/
theorem decodeOfEncode : Obligations.DecodeOfEncode := by
  intro i hi
  cases i with
  | and | eor | sub | rsb | add | adc | sbc | rsc | orr | mov | bic | mvn =>
    simp only [encode, Code.decode]
    rw [decodeArm_append, decodeArmBits_dpBits _ (.inl (by decide))]
    simp only [decodeDataProcessing, dpBits_fields] <;> rfl
  | tst | teq | cmp | cmn =>
    simp only [encode, Code.decode]
    rw [decodeArm_append, decodeArmBits_dpBits _ (.inr rfl)]
    simp only [decodeDataProcessing, dpBits_fields]
  | mrs => exact (decodeArm_append _ _).trans (decodeArmBits_mrs _ _ _)
  | msr => exact (decodeArm_append _ _).trans (decodeArmBits_msrBits _ _ _ _)
  | mul | mla | umull | umlal | smull | smlal =>
    simp only [encode, Code.decode]
    rw [decodeArm_append, decodeArmBits_mulBits _ rfl]
    simp only [decodeMultiplySwap, mulBits_fields]
    rfl
  | swp | swpb => exact (decodeArm_append _ _).trans (decodeArmBits_swpBits _ _ _ _ _)
  | bx => exact (decodeArm_append _ _).trans (decodeArmBits_bx _ _)
  | strh _ _ _ _ o | ldrh _ _ _ _ o | ldrsb _ _ _ _ o | ldrsh _ _ _ _ o =>
    simp only [encode, Code.decode]
    rw [decodeArm_append, decodeArmBits_halfBits _ (by decide)]
    cases o <;> simp only [decodeHalfTransfer, halfBits_fields, halfBits_imm, halfBits_reg] <;> rfl
  | str | ldr | strb | ldrb =>
    simp only [encode, Code.decode]
    rw [decodeArm_append, decodeArmBits_singleBits]
    simp only [decodeSingleTransfer, singleBits_fields]
  | stm | ldm => exact (decodeArm_append _ _).trans (decodeArmBits_blockBits _ _ _ _ _ _)
  | b | bl | swi =>
    simp only [encode, Code.decode]
    rw [decodeArm_append]
    simp only [decodeArmBits, opcode24_fields]
    rfl
  | undefinedArm _ bits => exact (decodeArm_append _ _).trans (decodeArmBits_of_unallocated _ hi)
  | tLslImm | tLsrImm | tAsrImm | tStrImm | tLdrImm | tStrbImm | tLdrbImm | tStrhImm | tLdrhImm =>
    simp only [encode, Code.decode]
    rw [decodeThumb, thumbFormat_offHalf (by decide)]
    simp only [offHalf_fields]
    rfl
  | tAddReg | tSubReg | tStrReg | tStrbReg | tLdrReg | tLdrbReg | tStrhReg | tLdsbReg | tLdrhReg | tLdshReg =>
    simp only [encode, Code.decode]
    rw [decodeThumb, thumbFormat_threeHalf (by decide)]
    simp only [threeHalf_fields]
    rfl
  | tAddImm3 rd rs imm3 | tSubImm3 rd rs imm3 =>
    change decodeThumb (threeHalf _ rd rs imm3.toFin) = _
    rw [decodeThumb, thumbFormat_threeHalf (by decide)]
    simp only [threeHalf_fields]
    rfl
  | tMovImm | tCmpImm | tAddImm8 | tSubImm8 | tLdrPc | tStrSp | tLdrSp | tAddPcImm | tAddSpImm | tStmia
  | tLdmia =>
    simp only [encode, Code.decode]
    rw [decodeThumb, thumbFormat_byteHalf (by decide)]
    simp only [byteHalf_fields]
    rfl
  | tAnd | tEor | tLslReg | tLsrReg | tAsrReg | tAdc | tSbc | tRorReg | tTst | tNeg | tCmpReg | tCmn | tOrr
  | tMul | tBic | tMvn => exact decodeThumb_aluHalf _ _ _
  | tAddHi | tCmpHi | tMovHi =>
    simp only [encode, Code.decode]
    rw [decodeThumb_hiHalf]
    simp only [decodeThumbHi, hiHalf_fields]
  | tBx => exact decodeThumb_bx _ _
  | tAdjustSp => exact decodeThumb_adjustSp _ _
  | tPush | tPop =>
    simp only [encode, Code.decode]
    rw [decodeThumb, thumbFormat_flagHalf (by decide)]
    simp only [flagHalf_fields]
    rfl
  | tBeq | tBne | tBcs | tBcc | tBmi | tBpl | tBvs | tBvc | tBhi | tBls | tBge | tBlt | tBgt | tBle =>
    simp only [encode, Code.decode]
    rw [decodeThumb_cond _ _ rfl]
    simp only [decodeThumbCond, opcode8_fields]
    rfl
  | tSwi =>
    simp only [encode, Code.decode]
    rw [decodeThumb, thumbFormat_append]
    simp only [opcode8_fields]
    rfl
  | tB | tBlFirst | tBlSecond =>
    simp only [encode, Code.decode]
    rw [decodeThumb, thumbFormat_opcode11 (by decide)]
    simp only [opcode11_fields]
    rfl
  | tUndefined bits => exact (decodeThumb_eq_tUndefined_iff bits).mpr hi

/-- Settles O1: the decoder evaluated at each word. -/
theorem sampleWordsDecode : Obligations.SampleWordsDecode := by
  unfold Obligations.SampleWordsDecode
  decide

end

section
/-! Every tick keeps the invariant (40_cycle_and_primitives.md R146). -/

namespace Sys2Proof.Machine

variable {s t : State} {i : Instr}

/-- In Thumb state the next slot holds a zero-extended halfword: what `advance()` needs to meet the invariant
(10_state.md R40). -/
def State.NextSlotFits (s : State) : Prop := s.cpsr.t = true → s.pipeNext.toNat < 2 ^ 16

theorem State.fetch_lt (a : Word) (h : s.cpsr.t = true) : (s.fetch a).toNat < 2 ^ 16 := by
  rw [State.fetch_thumb a h, BitVec.toNat_setWidth]
  exact (Nat.mod_le _ _).trans_lt (s.readHalf a).isLt

theorem State.At.nextSlotFits {v : Word} (h : t.At v) : t.NextSlotFits := fun ht =>
  h.2 ▸ State.fetch_lt _ ht

theorem Plain.nextSlotFits (h : Plain s t) (hs : s.NextSlotFits) : t.NextSlotFits := by
  obtain ⟨_, ws, he, _⟩ := h
  have hpc := he.regs.2
  cases hw : lastWrite .pc ws with
  | some v => rw [hw] at hpc; exact State.At.nextSlotFits hpc
  | none =>
    rw [hw] at hpc
    obtain ⟨-, -, hnext⟩ := hpc
    exact fun ht => hnext ▸ hs (he.stateBit ▸ ht)

theorem State.branchExchange_nextSlotFits (s : State) (v : Word) : (s.branchExchange v).NextSlotFits := by
  unfold State.branchExchange
  split <;> exact (State.branchTo_at _ _).nextSlotFits

theorem Does.nextSlotFits (h : Does i s t) (hs : s.NextSlotFits) : t.NextSlotFits := by
  cases h with
  | plain _ h _ => exact h.nextSlotFits hs
  | store _ _ h _ => exact h.nextSlotFits hs
  | exchange _ v => exact s.branchExchange_nextSlotFits v
  | back _ _ _ _ _ _ _ v => exact (State.branchTo_at _ v).nextSlotFits
  | control _ new ht _ => exact fun h => hs (ht ▸ h)
  | saved _ _ _ _ => exact hs
  | trap _ _ => exact hs

theorem Does.mem_wf (h : Does i s t) (hs : s.mem.wf = true) : t.mem.wf = true := by
  cases h with
  | plain _ _ hm => rw [hm]; exact hs
  | store _ _ _ hm => exact hm hs
  | exchange _ v => rw [s.branchExchange_mem]; exact hs
  | back _ _ hm _ _ _ _ _ => rw [State.branchTo_mem, hm]; exact hs
  | control _ _ _ _ => exact hs
  | saved _ _ _ _ => exact hs
  | trap _ _ => exact hs

/-- `advance()` aligns R15 and passes the next slot on. -/
theorem State.advance_inv (hm : s.mem.wf = true) (hn : s.NextSlotFits) : s.advance.Inv :=
  ⟨hm, fun _ => ⟨State.align_pc_advance, fun ht => ⟨hn ht, State.fetch_lt _ ht⟩⟩⟩

/-- Settles O8: `step_cases` says what a tick can do, and every way of it but the stopped one ends in
`advance()`. -/
theorem stepKeepsInvariant : Obligations.StepKeepsInvariant := by
  intro s t ⟨hm, hrun⟩ h
  obtain ⟨-, rfl⟩ | ⟨hr, p, u, hu, rfl⟩ | ⟨-, p, k, rfl⟩ := step_cases h
  · exact ⟨hm, hrun⟩
  · obtain ⟨-, hslots⟩ := hrun hr
    have hd := exec_does hu
    exact State.advance_inv (hd.mem_wf hm) (hd.nextSlotFits fun ht => (hslots ht).2)
  · exact State.advance_inv hm (State.branchTo_at _ k.vector).nextSlotFits

end Sys2Proof.Machine
end

section
/-! The addition and subtraction primitives (40_cycle_and_primitives.md R150, R151). -/

namespace Sys2Proof.Machine

/-- `v1` and `v2` of R150 are signed overflow: the exact sum leaves the 32-bit range. -/
theorem partialOverflow_iff (a b : Word) :
    partialOverflow a b = true ↔ a.toInt + b.toInt < -2 ^ 31 ∨ 2 ^ 31 ≤ a.toInt + b.toInt := by
  have h : partialOverflow a b = BitVec.saddOverflow a b := (BitVec.saddOverflow_eq a b).symm
  rw [h, BitVec.saddOverflow, Bool.or_eq_true, decide_eq_true_eq, decide_eq_true_eq, or_comm]

theorem partialOverflow_zero (a : Word) : partialOverflow a 0#32 = false := by
  simp [partialOverflow]

theorem addCarry_iff (a b c : Word) : addCarry a b c = true ↔ 0xFFFFFFFF < a.toNat + b.toNat + c.toNat :=
  decide_eq_true_iff

/-- Settles O15: C and V are `addCarry_iff` and `partialOverflow_iff` of the partial sums. -/
theorem addPrimitive : Obligations.AddPrimitive := by
  intro a b c r out
  refine ⟨rfl, addCarry_iff a b c, ?_, beq_iff_eq, BitVec.msb_eq_getLsbD_last r.value⟩
  exact Bool.or_eq_true_iff.trans (or_congr (partialOverflow_iff a b) (partialOverflow_iff (a + b) c))

/-! ## Subtraction -/

theorem sub_value (a b c : Word) : (sub a b c).value = a - b - c := by
  change a + (0#32 - b) + (0#32 - c) = a - b - c
  simp [BitVec.sub_eq_add_neg]

theorem neg_toNat {b : Word} (h : b ≠ 0#32) : (0#32 - b).toNat = 2 ^ 32 - b.toNat := by
  have hb := b.isLt
  have h0 : b.toNat ≠ 0 := fun h0 => h (BitVec.eq_of_toNat_eq h0)
  rw [BitVec.zero_sub, BitVec.toNat_neg]
  omega

/-- Consequence (e) of R151: negating any other subtrahend is exact. -/
theorem partialOverflow_neg (a : Word) {b : Word} (hb : b ≠ 0x80000000#32) :
    partialOverflow a (0#32 - b) = true ↔ a.toInt - b.toInt < -2 ^ 31 ∨ 2 ^ 31 ≤ a.toInt - b.toInt := by
  have hneg : (0#32 - b).toInt = -b.toInt := by
    rw [BitVec.zero_sub]; exact BitVec.toInt_neg_of_ne_intMin hb
  rw [partialOverflow_iff, hneg, Int.sub_eq_add_neg]

theorem add_zero_flags_v (a b : Word) : (add a b 0#32).flags.v = partialOverflow a b :=
  (congrArg _ (partialOverflow_zero (a + b))).trans (Bool.or_false _)

/-- Settles O16: the clauses on C are arithmetic on the negated operands' values, those on V
`partialOverflow_neg`. -/
theorem subPrimitive : Obligations.SubPrimitive := by
  intro a b c r out
  have hc : r.flags.c = true ↔ 0xFFFFFFFF < a.toNat + (0#32 - b).toNat + (0#32 - c).toNat := addCarry_iff ..
  have hv : r.flags.v = true ↔ b = 0x80000000#32 ∨ (add a (0#32 - b) (0#32 - c)).flags.v = true := by
    rw [or_comm, ← beq_iff_eq (a := b), ← Bool.or_eq_true]; rfl
  have hone : (0#32 - 1#32).toNat = 0xFFFFFFFF := rfl
  have ha := a.isLt
  have hb := b.isLt
  refine ⟨sub_value a b c, beq_iff_eq, BitVec.msb_eq_getLsbD_last r.value, hc, hv, fun h h0 => ?_,
    fun h h0 => ?_, fun h h0 => ?_, fun h h0 => ?_, fun h hmin => ?_, fun h => hv.mpr (.inl h)⟩
  · rw [hc, h, neg_toNat h0, BitVec.sub_self, BitVec.toNat_zero]
    omega
  · rw [← Bool.not_eq_true, hc, h, h0, BitVec.sub_self, BitVec.toNat_zero]
    omega
  · rw [hc, h, neg_toNat h0, hone]
    omega
  · rw [hc, h, h0, BitVec.sub_self, BitVec.toNat_zero, hone, ne_eq, ← BitVec.toNat_inj, BitVec.toNat_zero]
    omega
  · rw [hv, h, BitVec.sub_self, add_zero_flags_v, partialOverflow_neg a hmin]
    exact or_iff_right hmin

end Sys2Proof.Machine
end

section
/-! The shifts and the rotate, for every amount (40_cycle_and_primitives.md R153 to R157). -/

namespace Sys2Proof.Machine

/-! ## The functions of R153 are the shifts of bit vectors, also for counts of 32 and more -/

theorem shl_eq (v : Word) (k : Nat) : shl v k = v <<< k :=
  ite_eq_left_iff.mpr fun h => (BitVec.shiftLeft_eq_zero (Nat.le_of_not_lt h)).symm

theorem shr_eq (v : Word) (k : Nat) : shr v k = v >>> k :=
  ite_eq_left_iff.mpr fun h => (BitVec.ushiftRight_eq_zero (Nat.le_of_not_lt h)).symm

theorem sar_eq (v : Word) (k : Nat) : sar v k = v.sshiftRight k := by
  refine ite_eq_left_iff.mpr fun h => BitVec.eq_of_getLsbD_eq fun i hi => ?_
  have hin : ¬ k + i < 32 := by omega
  rw [BitVec.getLsbD_sshiftRight, if_neg hin]
  cases v.msb with
  | false => simp
  | true => simpa [hi, Nat.not_le.mpr hi] using BitVec.getLsbD_allOnes (v := 32) (i := i)

theorem rotr_eq (v : Word) (k : Nat) : rotr v k = v.rotateRight k :=
  ite_eq_right_iff.mpr fun h => by simp [h]

theorem getLsbD_rotr (v : Word) (k : Nat) {j : Nat} (hj : j < 32) :
    (rotr v k).getLsbD j = v.getLsbD ((j + k) % 32) := by
  rw [rotr_eq, BitVec.getLsbD_rotateRight]
  by_cases h : j < 32 - k % 32
  · rw [decide_eq_true h, cond_true]
    congr 1; omega
  · rw [decide_eq_false h, decide_eq_true hj, cond_false, Bool.true_and]
    congr 1; omega

/-! ## Values and carries of the primitives -/

theorem shl_value (v : Word) (n : Nat) : shl v n = BitVec.ofNat 32 (v.toNat * 2 ^ n) := by
  rw [shl_eq]
  apply BitVec.eq_of_toNat_eq
  rw [BitVec.toNat_shiftLeft, Nat.shiftLeft_eq, BitVec.toNat_ofNat]

theorem shl_carry (v : Word) {n : Nat} (h : 1 ≤ n) (h' : n ≤ 32) :
    (shl v (n - 1)).getLsbD 31 = v.getLsbD (32 - n) := by
  have hn : ¬ 31 < n - 1 := by omega
  rw [shl_eq, BitVec.getLsbD_shiftLeft, decide_eq_true (by decide), decide_eq_false hn, Bool.not_false,
    Bool.true_and, Bool.true_and]
  congr 1; omega

theorem lsl_of_gt (cin : Bool) (v : Word) {n : Nat} (h : 32 < n) : lsl cin v n = (0#32, false) := by
  rw [lsl, if_neg (by omega), shl_eq, shl_eq, BitVec.shiftLeft_eq_zero (by omega),
    BitVec.shiftLeft_eq_zero (by omega)]
  rfl

theorem shr_value (v : Word) (m : Nat) : (shr v m).toNat = v.toNat / 2 ^ m := by
  rw [shr_eq, BitVec.toNat_ushiftRight, Nat.shiftRight_eq_div_pow]

theorem shr_carry (v : Word) (k : Nat) : (shr v k).getLsbD 0 = v.getLsbD k := by
  rw [shr_eq, BitVec.getLsbD_ushiftRight, Nat.add_zero]

theorem sar_value (v : Word) (m : Nat) : (sar v m).toInt = v.toInt / 2 ^ m := by
  rw [sar_eq, BitVec.toInt_sshiftRight, Int.shiftRight_eq_div_pow, Nat.cast_pow, Nat.cast_ofNat]

/-- From amount 33 on the sign bit is shifted out. -/
theorem sar_carry (v : Word) {m : Nat} (h : 1 ≤ m) : (sar v (m - 1)).getLsbD 0 = v.getLsbD (min m 32 - 1) := by
  rw [sar_eq, BitVec.getLsbD_sshiftRight, decide_eq_false (by decide), Bool.not_false, Bool.true_and]
  split
  · congr 1; omega
  · rw [BitVec.msb_eq_getLsbD_last]
    congr 1; omega

theorem rotr_carry (v : Word) (n : Nat) : (rotr v (n - 1)).getLsbD 0 = v.getLsbD ((n - 1) % 32) := by
  rw [getLsbD_rotr v (n - 1) (by decide), Nat.zero_add]

theorem getLsbD_rotr_31 (v : Word) {n : Nat} (h : 1 ≤ n) : (rotr v n).getLsbD 31 = v.getLsbD ((n - 1) % 32) := by
  rw [getLsbD_rotr v n (by decide)]
  congr 1; omega

/-- Settles O17: each primitive's value and carry are those of the functions of R153. -/
theorem shiftPrimitives : Obligations.ShiftPrimitives := by
  intro cin v n m
  have hm : 1 ≤ m := by
    change 1 ≤ if n = 0 then 32 else n
    split <;> omega
  refine ⟨fun h => ⟨if_pos h, if_pos h⟩, fun h h' => ?_, lsl_of_gt cin v, shr_value v m, shr_carry v (m - 1),
    sar_value v m, sar_carry v hm, fun h => ?_⟩
  · rw [lsl, if_neg (Nat.ne_of_gt h), shl_value, shl_carry v h h']
  · rw [ror, if_neg (Nat.ne_of_gt h)]
    exact ⟨fun j hj => getLsbD_rotr v n hj, rotr_carry v n, (rotr_carry v n).trans (getLsbD_rotr_31 v h).symm⟩

end Sys2Proof.Machine
end

section
/-! Conditions: the table of R92, and that a failing one makes an instruction do nothing (40 R166, 43 R235). -/

namespace Sys2Proof.Machine

variable {s : State} {i : Instr} {c : Cond}

/-- Every meaning of the 32-bit set stands under its condition. -/
theorem exec_eq_whenCond (hi : i.cond? = some c) (s : State) : ∃ k, exec i s = s.whenCond c k := by
  cases i with
  | and | eor | sub | rsb | add | adc | sbc | rsc | orr | mov | bic | mvn =>
    cases hi
    simp only [exec, execAnd, execEor, execSub, execRsb, execAdd, execAdc, execSbc, execRsc, execOrr, execMov,
      execBic, execMvn, dataProcessing]
    exact ⟨_, rfl⟩
  | tst | teq | cmp | cmn =>
    cases hi
    simp only [exec, execTst, execTeq, execCmp, execCmn, dataCompare]
    exact ⟨_, rfl⟩
  | mul | mla | umull | umlal | smull | smlal =>
    cases hi
    simp only [exec, execMul, execMla, execUmull, execUmlal, execSmull, execSmlal]
    exact ⟨_, rfl⟩
  | mrs | msr | bx | b | bl | swi | undefinedArm =>
    cases hi
    simp only [exec, execMrs, execMsr, execBx, execB, execBl, execSwi, execUndefinedArm]
    exact ⟨_, rfl⟩
  | strh | str | strb | swp | swpb | stm =>
    cases hi
    simp only [exec, execStrh, execStr, execStrb, storeTransfer, execSwp, execSwpb, execStm]
    exact ⟨_, rfl⟩
  | ldrh | ldrsb | ldrsh | ldr | ldrb | ldm =>
    cases hi
    simp only [exec, execLdrh, execLdrsb, execLdrsh, execLdr, execLdrb, loadTransfer, execLdm]
    exact ⟨_, rfl⟩
  | _ => cases hi -- the 16-bit set has no condition field (R122)

theorem exec_of_cond_fails (hi : i.cond? = some c) (hc : condPassed c s.cpsr.flags = false) :
    exec i s = .next s := by
  obtain ⟨k, hk⟩ := exec_eq_whenCond hi s
  rw [hk, whenCond_fail k hc]

/-- Settles O14: the table is `condPassed` at each number, and the rest is `exec_of_cond_fails`. -/
theorem conditionField : Obligations.ConditionField :=
  ⟨fun f => by simp [Cond.ofBits, condPassed],
    fun _ _ hc => exec_of_cond_fails (decodeArmBits_cond? _ _) hc, fun _ _ _ => exec_of_cond_fails⟩

end Sys2Proof.Machine
end

section
/-! The tick with nothing pending: one instruction, then `advance()` (40_cycle_and_primitives.md R141, R145). -/

namespace Sys2Proof.Machine

variable {s : State}

theorem step_of_none_pending (hr : s.running = true) (hp : s.pending = Pending.none) :
    step s = thenAdvance (exec s.currentInstr s) := by
  have hs : { s with pending := s.pending.clear ExcKind.byPriority } = s := by
    rw [hp, show Pending.none.clear ExcKind.byPriority = s.pending from hp.symm]
  rw [step_of_masked hr (by simp [hp]), hs]

/-- The decoder reads a word's bytes in the order in which `State.readWord` joins them (20_memory.md R62, R66). -/
theorem decodeBytes_readWord (s : State) (a : Word) :
    decodeBytes false [s.readByte (a - 8), s.readByte (a - 7), s.readByte (a - 6), s.readByte (a - 5)] =
      .ok (decodeArm (s.readWord (a - 8)), []) := by
  rw [State.readWord, sub_add, sub_add, sub_add]
  rfl

theorem decodeBytes_readHalf (s : State) (a : Word) :
    decodeBytes true [s.readByte (a - 4), s.readByte (a - 3)] = .ok (decodeThumb (s.readHalf (a - 4)), []) := by
  rw [State.readHalf, sub_add]
  rfl

theorem State.currentInstr_arm (h : s.cpsr.t = false) : s.currentInstr = decodeArm s.pipeCur := by
  simp [State.currentInstr, h]

/-- A zero-extended halfword in the slot is that halfword to the decoder. -/
theorem State.currentInstr_thumb {x : Half} (h : s.cpsr.t = true) (hx : s.pipeCur = x.zeroExtend 32) :
    s.currentInstr = decodeThumb x := by
  have hf : field (x.zeroExtend 32) 0 16 = x := by
    simp [field, BitVec.extractLsb'_setWidth_of_le]
  simp [State.currentInstr, h, hx, hf]

/-- Settles O5: the slot holds the bytes that the decoder is given. -/
theorem stepRunsDecodedInstruction : Obligations.StepRunsDecodedInstruction := by
  intro s i rest hr hp harm hthumb
  have hi : s.currentInstr = i := by
    cases ht : s.cpsr.t with
    | false =>
      obtain ⟨hcur, hdec⟩ := harm ht
      rw [decodeBytes_readWord] at hdec
      rw [State.currentInstr_arm ht, hcur]
      cases hdec
      rfl
    | true =>
      obtain ⟨hcur, hdec⟩ := hthumb ht
      rw [decodeBytes_readHalf] at hdec
      rw [State.currentInstr_thumb ht hcur]
      cases hdec
      rfl
  rw [step_of_none_pending hr hp, hi]

end Sys2Proof.Machine
end

section
/-! The pipeline buffer, and BX (40_cycle_and_primitives.md R143, R165, 70_reset_and_hazards.md R430). -/

namespace Sys2Proof.Machine

variable {s : State}

/-! ## The aligned target in exact arithmetic -/

theorem State.align_eq_ofNat (s : State) (a : Word) :
    s.align a = BitVec.ofNat 32 (a.toNat / (if s.cpsr.t then 2 else 4) * (if s.cpsr.t then 2 else 4)) := by
  rw [← State.align_toNat, BitVec.ofNat_toNat, BitVec.setWidth_eq]

theorem State.width_eq_ofNat (s : State) : s.width = BitVec.ofNat 32 (if s.cpsr.t then 2 else 4) := by
  cases h : s.cpsr.t <;> simp [State.width, h]

/-- Settles O22: `State.branchTo_advance` for the branch; a store that stays (`exec_store_staysAt`) leaves the next
slot to `advance()`. -/
theorem pipelineBuffer : Obligations.PipelineBuffer := by
  refine ⟨?_, fun s hr hp ha hi hpc => ?_⟩
  · intro s target t w a
    have hw : s.width = BitVec.ofNat 32 w := s.width_eq_ofNat
    have haw : s.align target = a := s.align_eq_ofNat target
    obtain ⟨hcur, hnext, hpc⟩ := s.branchTo_advance target
    rw [haw] at hcur hnext hpc
    rw [hw] at hnext hpc
    refine ⟨hcur, hnext, ?_, rfl, rfl⟩
    rw [hpc, Nat.two_mul, BitVec.ofNat_add, BitVec.add_assoc]
  · obtain ⟨u, ws, hu, he, hws⟩ := exec_store_staysAt (s := s) hi hpc
    obtain ⟨-, hregs⟩ := he.regs
    rw [hws] at hregs
    obtain ⟨hupc, -, hunext⟩ := hregs
    have hwidth : u.width = s.width := by rw [State.width, he.stateBit, State.width]
    have halign : u.align u.pc = s.pc := by rw [State.align, hwidth, hupc]; exact ha
    refine ⟨u, u.advance, hu, ?_, rfl, hunext, congrArg u.fetch halign, ?_⟩
    · rw [step_of_none_pending hr hp, hu]; rfl
    · rw [State.pc_advance, halign, hwidth]

/-! ## BX -/

/-- Both ways of R165 in one: a branch in the state that bit 0 of the target selects. -/
theorem State.branchExchange_eq (s : State) (v : Word) :
    s.branchExchange v = ({ s with cpsr := { s.cpsr with t := v.getLsbD 0 } } : State).branchTo
      (if v.getLsbD 0 then v &&& 0xFFFFFFFE#32 else v &&& 0xFFFFFFFC#32) := by
  unfold State.branchExchange
  cases v.getLsbD 0 <;> rfl

/-- The masks of R165 align the target. -/
theorem State.align_exchangeTarget {b : Bool} (h : s.cpsr.t = b) (v : Word) :
    s.align (if b then v &&& 0xFFFFFFFE#32 else v &&& 0xFFFFFFFC#32) =
      if b then v &&& 0xFFFFFFFE#32 else v &&& 0xFFFFFFFC#32 := by
  cases b with
  | false => exact (State.align_arm _ h).trans (by simp [BitVec.and_assoc])
  | true => exact (State.align_thumb _ h).trans (by simp [BitVec.and_assoc])

/-- Settles O41: BX is `State.branchExchange` in both sets, a branch to an aligned target. -/
theorem branchExchange : Obligations.BranchExchange := by
  intro c r low s hc v a i hi
  have hx : exec i s = .next (s.branchExchange v) := by
    rw [List.mem_pair] at hi
    obtain rfl | rfl := hi
    · rw [exec, execBx, whenCond_pass _ hc]
    · rfl
  rw [State.branchExchange_eq] at hx
  have ha := State.align_exchangeTarget (s := { s with cpsr := { s.cpsr with t := v.getLsbD 0 } }) rfl v
  refine ⟨_, hx, rfl, ?_, ?_, fun p hp => State.read_branchTo _ _ hp, rfl, rfl, rfl, .of_mem rfl⟩
  · rw [State.pc_branchTo, ha]; rfl
  · rw [State.branchTo_pipeNext, ha]; rfl

end Sys2Proof.Machine
end

section
/-! The formats of the 32-bit set put together again from the fields of a word (30_encoding.md R93, R94). -/

namespace Sys2Proof

/-! ## Adjacent fields -/

section

variable {n hi lo a b : Nat} {x : BitVec n} {u : BitVec b}

/-- Two adjacent fields joined, by their values. -/
theorem field_eq_append {v : BitVec a} (hu : field x hi b = u) (hv : field x lo a = v)
    (h : hi = lo + a) : field x lo (b + a) = u ++ v := by
  subst h
  rw [← hu, ← hv, field_join]

theorem field_bit (x : BitVec n) (k : Nat) : field x k 1 = BitVec.ofBool (x.getLsbD k) := by
  ext j hj
  obtain rfl : j = 0 := by omega
  simp [field]

theorem eq_of_field_whole {y : BitVec n} (h : field x 0 n = y) : y = x := h.symm.trans (field_whole x)

theorem field_append_bit {k : Nat} (hu : field x (k + 1) b = u) :
    field x k (b + 1) = u ++ BitVec.ofBool (x.getLsbD k) :=
  field_eq_append hu (field_bit x k) rfl

theorem field_append_regAt {k : Nat} (hu : field x (k + 4) b = u) :
    field x k (b + 4) = u ++ Reg.bits (regAt x k) :=
  field_eq_append hu rfl rfl

end

variable {i : BitVec 28} (c : Cond)

theorem code_arm_congr {x : BitVec 28} (h : x = i) : Code.arm (c.bits ++ x) = .arm (c.bits ++ i) := by rw [h]

/-! ## Data processing -/

theorem dpBits_of_fields {op : BitVec 4} {o : Operand2} (h26 : field i 26 2 = 0b00#2)
    (h25 : field i 25 1 = o.immBit) (hop : field i 21 4 = op) (h0 : field i 0 12 = o.bits) :
    dpBits op (i.getLsbD 20) (regAt i 16) (regAt i 12) o = i := by
  have h20 := field_append_bit (field_eq_append (field_eq_append h26 h25 rfl) hop rfl)
  have h12 := field_append_regAt (field_append_regAt h20)
  exact eq_of_field_whole (field_eq_append h12 h0 rfl)

/-- The compares have S = 1. -/
theorem encode_decodeDataProcessing {o : Operand2} (h26 : field i 26 2 = 0b00#2)
    (h25 : field i 25 1 = o.immBit) (h0 : field i 0 12 = o.bits)
    (hs : ¬ (field i 23 2 = 0b10#2 ∧ i.getLsbD 20 = false)) :
    encode (decodeDataProcessing c i o) = .arm (c.bits ++ i) := by
  have hdp {op : BitVec 4} (hop : field i 21 4 = op) :
      Code.arm (c.bits ++ dpBits op (i.getLsbD 20) (regAt i 16) (regAt i 12) o) = .arm (c.bits ++ i) :=
    code_arm_congr c (dpBits_of_fields h26 h25 hop h0)
  have hcmp {op : BitVec 4} (hop : field i 21 4 = op) (hc : field op 2 2 = 0b10#2) :
      Code.arm (c.bits ++ dpBits op true (regAt i 16) (regAt i 12) o) = .arm (c.bits ++ i) := by
    have h23 : field i 23 2 = 0b10#2 := (field_subfield hop 2 2).trans hc
    have h20 : i.getLsbD 20 = true := by simpa [h23, -BitVec.getLsbD_eq_getElem] using hs
    exact h20 ▸ hdp hop
  unfold decodeDataProcessing
  dsimp only
  split
  case h_9 h | h_10 h | h_11 h | h_12 h => exact hcmp h rfl
  case h_16 => exact hdp (by simp only [imp_false] at *; bv_omega)
  all_goals next h => exact hdp h

/-- R94: shift by a register where bit 4 is set and bit 7 clear, else by an immediate. -/
theorem shiftedOperand_bits (h74 : ¬ (i.getLsbD 7 = true ∧ i.getLsbD 4 = true)) :
    (shiftedOperand i).immBit = 0#1 ∧ field i 0 12 = (shiftedOperand i).bits := by
  have hty : field i 5 2 = (ShiftType.ofBits (field i 5 2)).bits := (ShiftType.bits_ofBits _).symm
  unfold shiftedOperand
  cases h4 : i.getLsbD 4 with
  | false =>
    have h5 : field i 5 7 = _ := field_eq_append (rfl : field i 7 5 = _) hty rfl
    have h := field_append_regAt (field_append_bit h5)
    rw [h4] at h
    exact ⟨rfl, h⟩
  | true =>
    have h7 : i.getLsbD 7 = false := by simpa [h4, -BitVec.getLsbD_eq_getElem] using h74
    have h5 := field_eq_append (field_append_bit (rfl : field i 8 4 = _)) hty rfl
    have h := field_append_regAt (field_append_bit h5)
    rw [h4, h7] at h
    exact ⟨rfl, h⟩

/-! ## Status transfer -/

theorem mrsBits_of_fields (h23 : field i 23 5 = 0b00010#5) (h16 : field i 16 6 = 0b001111#6)
    (h0 : field i 0 12 = 0#12) :
    0b00010#5 ++ BitVec.ofBool (i.getLsbD 22) ++ 0b001111#6 ++ Reg.bits (regAt i 12) ++ 0#12 = i := by
  have h12 := field_append_regAt (field_eq_append (field_append_bit h23) h16 rfl)
  exact eq_of_field_whole (field_eq_append h12 h0 rfl)

/-- The bits above the operand of MSR. -/
theorem msrHead_of_fields {head : BitVec 5} (h23 : field i 23 5 = head) (h20 : field i 20 2 = 0b10#2)
    (h12 : field i 12 4 = 0b1111#4) :
    field i 12 16 = head ++ BitVec.ofBool (i.getLsbD 22) ++ 0b10#2 ++ (BitVec.ofBool (i.getLsbD 19) ++
      BitVec.ofBool (i.getLsbD 18) ++ BitVec.ofBool (i.getLsbD 17) ++ BitVec.ofBool (i.getLsbD 16)) ++
      0b1111#4 := by
  have hmask := field_append_bit (field_append_bit (field_append_bit (field_bit i 19)))
  exact field_eq_append (field_eq_append (field_eq_append (field_append_bit h23) h20 rfl) hmask rfl) h12 rfl

/-- The field mask of MSR, bits 19 to 16 (R94). -/
def fieldMaskOf (i : BitVec 28) : FieldMask := ⟨i.getLsbD 19, i.getLsbD 18, i.getLsbD 17, i.getLsbD 16⟩

theorem msrBits_reg_of_fields (h23 : field i 23 5 = 0b00010#5) (h20 : field i 20 2 = 0b10#2)
    (h4 : field i 4 12 = 0xF00#12) :
    msrBits (i.getLsbD 22) (fieldMaskOf i) (.reg (regAt i 0)) = i := by
  have h12 := msrHead_of_fields h23 h20 (field_subfield h4 8 4)
  have h4' : field i 4 8 = 0#8 := field_subfield h4 0 8
  exact eq_of_field_whole (field_append_regAt (field_eq_append h12 h4' rfl))

theorem msrBits_imm_of_fields (h23 : field i 23 5 = 0b00110#5) (h20 : field i 20 2 = 0b10#2)
    (h12 : field i 12 4 = 0b1111#4) :
    msrBits (i.getLsbD 22) (fieldMaskOf i) (.imm (field i 8 4).toFin (field i 0 8)) = i := by
  have h8 := field_eq_append (msrHead_of_fields h23 h20 h12) (rfl : field i 8 4 = _) rfl
  exact eq_of_field_whole (field_eq_append h8 (rfl : field i 0 8 = _) rfl)

/-! ## Multiply and swap -/

theorem mulBits_of_fields {op : BitVec 7} (hop : field i 21 7 = op) (hm : field i 4 4 = 0b1001#4) :
    mulBits op (i.getLsbD 20) (regAt i 16) (regAt i 12) (regAt i 8) (regAt i 0) = i := by
  have h8 := field_append_regAt (field_append_regAt (field_append_regAt (field_append_bit hop)))
  exact eq_of_field_whole (field_append_regAt (field_eq_append h8 hm rfl))

theorem swpBits_of_fields (h23 : field i 23 5 = 0b00010#5) (h20 : field i 20 2 = 0b00#2)
    (h8 : field i 8 4 = 0#4) (hm : field i 4 4 = 0b1001#4) :
    swpBits (i.getLsbD 22) (regAt i 16) (regAt i 12) (regAt i 0) = i := by
  have h12 := field_append_regAt (field_append_regAt (field_eq_append (field_append_bit h23) h20 rfl))
  exact eq_of_field_whole (field_append_regAt (field_eq_append h12 (field_eq_append h8 hm rfl) rfl))

theorem encode_decodeMultiplySwap (hm : field i 4 4 = 0b1001#4) :
    encode (decodeMultiplySwap c i) = .arm (c.bits ++ i) := by
  have hmul {op : BitVec 7} (hop : field i 21 7 = op) :
      Code.arm (c.bits ++ mulBits op (i.getLsbD 20) (regAt i 16) (regAt i 12) (regAt i 8) (regAt i 0)) =
        .arm (c.bits ++ i) := code_arm_congr c (mulBits_of_fields hop hm)
  unfold decodeMultiplySwap
  dsimp only
  split
  · next h22 =>
    have h := hmul (field_append_bit h22)
    revert h
    cases i.getLsbD 21 <;> exact id
  · split
    · next h23 =>
      split
      case h_4 => exact hmul (field_eq_append (v := 0b11#2) h23 (by simp only [imp_false] at *; bv_omega) rfl)
      all_goals next h21 => exact hmul (field_eq_append h23 h21 rfl)
    · split
      · next h =>
        obtain ⟨h23, h20, h8⟩ := h
        have h := code_arm_congr c (swpBits_of_fields h23 h20 h8 hm)
        revert h
        cases i.getLsbD 22 <;> exact id
      · rfl

/-! ## Halfword and signed transfer -/

theorem halfBits_of_fields {load : Bool} {sh : BitVec 2} (h25 : field i 25 3 = 0b000#3)
    (hr : ¬ (i.getLsbD 22 = false ∧ field i 8 4 ≠ 0#4)) (h20 : i.getLsbD 20 = load)
    (h7 : i.getLsbD 7 = true) (h5 : field i 5 2 = sh) (h4 : i.getLsbD 4 = true) :
    halfBits load sh (indexModeOf i) (regAt i 16) (regAt i 12)
      (if i.getLsbD 22 then .imm (field i 8 4 ++ field i 0 4) else .reg (regAt i 0)) = i := by
  have hbits := field_append_bit (field_append_bit (field_append_bit h25))
  have hregs := field_append_regAt (field_append_regAt (field_append_bit (field_append_bit hbits)))
  have hhi := field_eq_append hregs (rfl : field i 8 4 = _) rfl
  have h := eq_of_field_whole
    (field_append_regAt (field_append_bit (field_eq_append (field_append_bit hhi) h5 rfl)))
  rw [h20, h7, h4] at h
  cases h22 : i.getLsbD 22 with
  | false =>
    have h8 : field i 8 4 = 0#4 := by simpa [h22, -BitVec.getLsbD_eq_getElem] using hr
    rw [h22, h8] at h
    exact h
  | true =>
    have hoffhi : field (field i 8 4 ++ field i 0 4) 4 4 = field i 8 4 :=
      (field_append_left _ _ _ _ (by decide)).trans (field_whole _)
    have hofflo : field (field i 8 4 ++ field i 0 4) 0 4 = field i 0 4 :=
      (field_append_right _ _ _ _ (by decide)).trans (field_whole _)
    rw [h22] at h
    simp only [halfBits, if_true, hoffhi, hofflo]
    exact h

theorem encode_decodeHalfTransfer (h25 : field i 25 3 = 0b000#3) (hm : field i 4 4 ≠ 0b1001#4)
    (h7 : i.getLsbD 7 = true) (h4 : i.getLsbD 4 = true) :
    encode (decodeHalfTransfer c i) = .arm (c.bits ++ i) := by
  unfold decodeHalfTransfer
  extract_lets m rn rd o
  split
  · rfl
  · next hr =>
    have hhalf {load : Bool} {sh : BitVec 2} (h20 : i.getLsbD 20 = load) (h5 : field i 5 2 = sh) :
        Code.arm (c.bits ++ halfBits load sh m rn rd o) = .arm (c.bits ++ i) :=
      code_arm_congr c (halfBits_of_fields h25 hr h20 h7 h5 h4)
    split
    · next h20 =>
      split
      case h_3 =>
        have h00 : field i 5 2 ≠ 0b00#2 := fun h5 => hm (by
          have h := field_append_bit (field_eq_append (field_bit i 7) h5 rfl)
          rw [h7, h4] at h
          exact h)
        exact hhalf h20 (by simp only [imp_false] at *; bv_omega)
      all_goals next h5 => exact hhalf h20 h5
    · next h20 =>
      split
      · next h5 => exact hhalf (Bool.eq_false_iff.mpr h20) h5
      · rfl

/-! ## Single and block transfer -/

/-- The bits of a single data transfer, its group and its offset given. -/
theorem transfer_of_fields {head : BitVec 3} {off : BitVec 12} (h25 : field i 25 3 = head)
    (h0 : field i 0 12 = off) :
    head ++ BitVec.ofBool (i.getLsbD 24) ++ BitVec.ofBool (i.getLsbD 23) ++ BitVec.ofBool (i.getLsbD 22) ++
      BitVec.ofBool (i.getLsbD 21) ++ BitVec.ofBool (i.getLsbD 20) ++ Reg.bits (regAt i 16) ++
      Reg.bits (regAt i 12) ++ off = i := by
  have h22 := field_append_bit (field_append_bit (field_append_bit h25))
  have h12 := field_append_regAt (field_append_regAt (field_append_bit (field_append_bit h22)))
  exact eq_of_field_whole (field_eq_append h12 h0 rfl)

theorem encode_decodeSingleTransfer {o : WordOffset}
    (h : singleBits (i.getLsbD 22) (i.getLsbD 20) (indexModeOf i) (regAt i 16) (regAt i 12) o = i) :
    encode (decodeSingleTransfer c i o) = .arm (c.bits ++ i) := by
  have h := code_arm_congr c h
  unfold decodeSingleTransfer
  revert h
  cases i.getLsbD 22 <;> cases i.getLsbD 20 <;> exact id

theorem singleBits_imm_of_fields (h25 : field i 25 3 = 0b010#3) :
    singleBits (i.getLsbD 22) (i.getLsbD 20) (indexModeOf i) (regAt i 16) (regAt i 12)
      (.imm (field i 0 12)) = i :=
  transfer_of_fields h25 rfl

theorem singleBits_reg_of_fields (h25 : field i 25 3 = 0b011#3) (h4 : i.getLsbD 4 = false) :
    singleBits (i.getLsbD 22) (i.getLsbD 20) (indexModeOf i) (regAt i 16) (regAt i 12)
      (.reg (regAt i 0) (ShiftType.ofBits (field i 5 2)) (field i 7 5).toFin) = i := by
  have hty : field i 5 2 = (ShiftType.ofBits (field i 5 2)).bits := (ShiftType.bits_ofBits _).symm
  have h := field_append_regAt (field_append_bit (field_eq_append (rfl : field i 7 5 = _) hty rfl))
  rw [h4] at h
  exact transfer_of_fields h25 h

theorem blockBits_of_fields (h25 : field i 25 3 = 0b100#3) :
    blockBits (i.getLsbD 20) (i.getLsbD 22) (indexModeOf i) (regAt i 16) (field i 0 16) = i := by
  have h22 := field_append_bit (field_append_bit (field_append_bit h25))
  have h16 := field_append_regAt (field_append_bit (field_append_bit h22))
  exact eq_of_field_whole (field_eq_append h16 (rfl : field i 0 16 = _) rfl)

/-! ## The map of R93 -/

theorem encode_decodeGroup000 (h25 : field i 25 3 = 0b000#3) :
    encode (decodeGroup000 c i) = .arm (c.bits ++ i) := by
  unfold decodeGroup000
  split
  · next hbx => exact code_arm_congr c (eq_of_field_whole (field_append_regAt hbx))
  split
  · next hm => exact encode_decodeMultiplySwap c hm
  next hm =>
  split
  · next h74 =>
    obtain ⟨h7, h4⟩ := h74
    exact encode_decodeHalfTransfer c h25 hm h7 h4
  next h74 =>
  split
  · next h =>
    obtain ⟨h23, h16, h0⟩ := h
    exact code_arm_congr c (mrsBits_of_fields h23 h16 h0)
  split
  · next h =>
    obtain ⟨h23, h20, h4⟩ := h
    exact code_arm_congr c (msrBits_reg_of_fields h23 h20 h4)
  split
  · rfl
  next hs =>
  obtain ⟨himm, h0⟩ := shiftedOperand_bits h74
  have h1 : field i 25 1 = 0#1 := field_subfield h25 0 1
  exact encode_decodeDataProcessing c (field_subfield h25 1 2) (h1.trans himm.symm) h0 hs

theorem encode_decodeGroup001 (h25 : field i 25 3 = 0b001#3) :
    encode (decodeGroup001 c i) = .arm (c.bits ++ i) := by
  unfold decodeGroup001
  split
  · next h =>
    obtain ⟨h23, h20, h12⟩ := h
    exact code_arm_congr c (msrBits_imm_of_fields (field_eq_append h25 h23 rfl) h20 h12)
  split
  · rfl
  next hs =>
  have h0 : field i 0 12 = _ := field_eq_append (rfl : field i 8 4 = _) (rfl : field i 0 8 = _) rfl
  exact encode_decodeDataProcessing c (field_subfield h25 1 2) (field_subfield h25 0 1) h0 hs

theorem encode_decodeArmBits (i : BitVec 28) : encode (decodeArmBits c i) = .arm (c.bits ++ i) := by
  have h24 {head : BitVec 3} (h25 : field i 25 3 = head) :
      Code.arm (c.bits ++ (head ++ BitVec.ofBool (i.getLsbD 24) ++ field i 0 24)) = .arm (c.bits ++ i) :=
    code_arm_congr c (eq_of_field_whole (field_eq_append (field_append_bit h25) rfl rfl))
  unfold decodeArmBits
  split
  · next h25 => exact encode_decodeGroup000 c h25
  · next h25 => exact encode_decodeGroup001 c h25
  · next h25 => exact encode_decodeSingleTransfer c (singleBits_imm_of_fields h25)
  · next h25 =>
    split
    · rfl
    · next h4 => exact encode_decodeSingleTransfer c (singleBits_reg_of_fields h25 (Bool.eq_false_iff.mpr h4))
  · next h25 =>
    have h := code_arm_congr c (blockBits_of_fields h25)
    revert h
    cases i.getLsbD 20 <;> exact id
  · next h25 =>
    have h := h24 h25
    revert h
    cases i.getLsbD 24 <;> exact id
  · rfl
  · next =>
    have h25 : field i 25 3 = 0b111#3 := by simp only [imp_false] at *; bv_omega
    have h := h24 h25
    revert h
    cases i.getLsbD 24
    · exact fun _ => rfl
    · exact id

end Sys2Proof
end

section
/-! The formats of the 16-bit set put together again from the fields of a halfword (30_encoding.md R110,
R111). -/

namespace Sys2Proof

variable {h : Half}

theorem field_append_loAt {n k b : Nat} {x : BitVec n} {u : BitVec b} (hu : field x (k + 3) b = u) :
    field x k (b + 3) = u ++ LoReg.bits (loAt x k) :=
  field_eq_append hu rfl rfl

/-! ## The formats -/

theorem offHalf_of_fields {op : BitVec 5} (hop : field h 11 5 = op) :
    offHalf op (field h 6 5) (loAt h 0) (loAt h 3) = h := by
  have h6 := field_eq_append hop (rfl : field h 6 5 = _) rfl
  exact eq_of_field_whole (field_append_loAt (field_append_loAt h6))

theorem threeHalf_of_fields {op : BitVec 7} (hop : field h 9 7 = op) :
    threeHalf op (loAt h 0) (loAt h 3) (loAt h 6) = h := by
  have h3 := field_append_loAt (field_append_loAt hop)
  exact eq_of_field_whole (field_append_loAt h3)

theorem byteHalf_of_fields {op : BitVec 5} (hop : field h 11 5 = op) :
    byteHalf op (loAt h 8) (field h 0 8) = h := by
  have h8 := field_append_loAt hop
  exact eq_of_field_whole (field_eq_append h8 (rfl : field h 0 8 = _) rfl)

theorem aluHalf_of_fields (h10 : field h 10 6 = 0b010000#6) :
    aluHalf (field h 6 4) (loAt h 0) (loAt h 3) = h := by
  have h6 := field_eq_append h10 (rfl : field h 6 4 = _) rfl
  exact eq_of_field_whole (field_append_loAt (field_append_loAt h6))

/-- H1 and Rd of format 5 make one register number (R316). -/
theorem hiHalf_of_fields (h10 : field h 10 6 = 0b010001#6) {op : BitVec 2} (hop : field h 8 2 = op) :
    hiHalf op (BitVec.ofBool (h.getLsbD 7) ++ field h 0 3).toFin (regAt h 3) = h := by
  have hd : ∀ x : BitVec 1, ∀ y : BitVec 3, field (x ++ y) 3 1 = x ∧ field (x ++ y) 0 3 = y := by decide
  obtain ⟨hhi, hlo⟩ := hd (BitVec.ofBool (h.getLsbD 7)) (field h 0 3)
  have h3 := field_append_regAt (field_append_bit (field_eq_append h10 hop rfl))
  rw [hiHalf, Reg.bits]
  simp only [hhi, hlo]
  exact eq_of_field_whole (field_eq_append h3 (rfl : field h 0 3 = _) rfl)

theorem bxHalf_of_fields (h10 : field h 10 6 = 0b010001#6) (h8 : field h 8 2 = 0b11#2) (h7 : h.getLsbD 7 = false) :
    0b010001110#9 ++ Reg.bits (regAt h 3) ++ field h 0 3 = h := by
  have h7' : field h 7 9 = 0b010001110#9 := by
    have e := field_append_bit (field_eq_append h10 h8 rfl)
    rw [h7] at e
    exact e
  exact eq_of_field_whole (field_eq_append (field_append_regAt h7') (rfl : field h 0 3 = _) rfl)

/-! ## The match list of R110 -/

/-- What the line of R110 that gives a format asks of the halfword; for format 1 also that it is not format 2. -/
def ThumbFormat.Asks (h : Half) : ThumbFormat → Prop
  | .f1 => field h 13 3 = 0b000#3 ∧ field h 11 5 ≠ 0b00011#5
  | .f2 => field h 11 5 = 0b00011#5
  | .f3 => field h 13 3 = 0b001#3
  | .f4 => field h 10 6 = 0b010000#6
  | .f5 => field h 10 6 = 0b010001#6
  | .f6 => field h 11 5 = 0b01001#5
  | .f7 => field h 12 4 = 0b0101#4 ∧ h.getLsbD 9 = false
  | .f8 => field h 12 4 = 0b0101#4 ∧ h.getLsbD 9 = true
  | .f9 => field h 13 3 = 0b011#3
  | .f10 => field h 12 4 = 0b1000#4
  | .f11 => field h 12 4 = 0b1001#4
  | .f12 => field h 12 4 = 0b1010#4
  | .f13 => field h 8 8 = 0b10110000#8
  | .f14 => field h 12 4 = 0b1011#4 ∧ field h 9 2 = 0b10#2
  | .f15 => field h 12 4 = 0b1100#4
  | .f16 => field h 12 4 = 0b1101#4
  | .f17 => field h 8 8 = 0b11011111#8
  | .f18 => field h 11 5 = 0b11100#5
  | .f19 => field h 12 4 = 0b1111#4
  | .unallocated => True

theorem asks_ite {p : Prop} [Decidable p] {f g : ThumbFormat} (hf : p → f.Asks h) (hg : ¬ p → g.Asks h) :
    (if p then f else g).Asks h := by
  split
  · next hp => exact hf hp
  · next hp => exact hg hp

/-- The lines in their order: formats 17, 13, 4, 5, 2, 6, 18, 8, 7, 14, 10, 11, 12, 15, 16, 19, 1, 3 and 9. -/
theorem thumbFormat_asks (h : Half) : (thumbFormat h).Asks h :=
  asks_ite id fun _ => asks_ite id fun _ => asks_ite id fun _ => asks_ite id fun _ => asks_ite id fun hne2 =>
    asks_ite id fun _ => asks_ite id fun _ => asks_ite id fun _ => asks_ite id fun _ => asks_ite id fun _ =>
    asks_ite id fun _ => asks_ite id fun _ => asks_ite id fun _ => asks_ite id fun _ => asks_ite id fun _ =>
    asks_ite id fun _ => asks_ite (fun h13 => ⟨h13, hne2⟩) fun _ =>
    asks_ite id fun _ => asks_ite id fun _ => trivial

/-! ## The groups that have a decoder of their own -/

theorem encode_decodeThumbAlu (op : BitVec 4) (rd rs : LoReg) :
    encode (decodeThumbAlu op rd rs) = .thumb (aluHalf op rd rs) := by
  unfold decodeThumbAlu
  split
  case h_16 =>
    obtain rfl : op = 0b1111#4 := by simp only [imp_false] at *; bv_omega
    rfl
  all_goals rfl

theorem encode_decodeThumbHi (h10 : field h 10 6 = 0b010001#6) : encode (decodeThumbHi h) = .thumb h := by
  unfold decodeThumbHi
  extract_lets rd rs
  split
  case h_4 =>
    have h8 : field h 8 2 = 0b11#2 := by simp only [imp_false] at *; bv_omega
    split
    · rfl
    · next h7 => exact congrArg Code.thumb (bxHalf_of_fields h10 h8 (Bool.eq_false_iff.mpr h7))
  all_goals next hop => exact congrArg Code.thumb (hiHalf_of_fields h10 hop)

theorem encode_decodeThumbCond (h12 : field h 12 4 = 0b1101#4) : encode (decodeThumbCond h) = .thumb h := by
  have hx {op : BitVec 8} (hop : field h 8 8 = op) : Code.thumb (op ++ field h 0 8) = .thumb h :=
    congrArg Code.thumb (eq_of_field_whole (field_eq_append hop rfl rfl))
  unfold decodeThumbCond
  dsimp only
  split
  case h_15 => rfl
  all_goals next h8 => exact hx (field_eq_append h12 h8 rfl)

/-! ## Every halfword -/

theorem encode_decodeThumb (h : Half) : encode (decodeThumb h) = .thumb h := by
  have hm := thumbFormat_asks h
  unfold decodeThumb
  generalize thumbFormat h = f at hm
  cases f with
  | f1 =>
    obtain ⟨h13, h11⟩ := hm
    dsimp only
    split
    case h_3 =>
      have hne : field h 11 2 ≠ 0b11#2 := fun e => h11 (field_eq_append h13 e rfl)
      have e : field h 11 2 = 0b10#2 := by simp only [imp_false] at *; bv_omega
      exact congrArg Code.thumb (offHalf_of_fields (field_eq_append h13 e rfl))
    all_goals next e => exact congrArg Code.thumb (offHalf_of_fields (field_eq_append h13 e rfl))
  | f2 =>
    have e := threeHalf_of_fields (field_append_bit (field_append_bit hm))
    revert e
    cases h.getLsbD 10 <;> cases h.getLsbD 9 <;> exact congrArg Code.thumb
  | f3 =>
    dsimp only
    split
    case h_4 =>
      have e : field h 11 2 = 0b11#2 := by simp only [imp_false] at *; bv_omega
      exact congrArg Code.thumb (byteHalf_of_fields (field_eq_append hm e rfl))
    all_goals next e => exact congrArg Code.thumb (byteHalf_of_fields (field_eq_append hm e rfl))
  | f4 => exact (encode_decodeThumbAlu _ _ _).trans (congrArg Code.thumb (aluHalf_of_fields hm))
  | f5 => exact encode_decodeThumbHi hm
  | f6 => exact congrArg Code.thumb (byteHalf_of_fields hm)
  | f7 | f8 =>
    obtain ⟨h12, h9⟩ := hm
    have e := threeHalf_of_fields (field_append_bit (field_append_bit (field_append_bit h12)))
    rw [h9] at e
    revert e
    cases h.getLsbD 11 <;> cases h.getLsbD 10 <;> exact congrArg Code.thumb
  | f9 =>
    have e := offHalf_of_fields (field_append_bit (field_append_bit hm))
    revert e
    cases h.getLsbD 12 <;> cases h.getLsbD 11 <;> exact congrArg Code.thumb
  | f10 =>
    have e := offHalf_of_fields (field_append_bit hm)
    revert e
    cases h.getLsbD 11 <;> exact congrArg Code.thumb
  | f11 | f12 | f15 =>
    have e := byteHalf_of_fields (field_append_bit hm)
    revert e
    cases h.getLsbD 11 <;> exact congrArg Code.thumb
  | f13 =>
    have h7 := field_append_bit hm
    exact congrArg Code.thumb (eq_of_field_whole (field_eq_append h7 (rfl : field h 0 7 = _) rfl))
  | f14 =>
    obtain ⟨h12, h9⟩ := hm
    have h8 := field_append_bit (field_eq_append (field_append_bit h12) h9 rfl)
    have e := eq_of_field_whole (field_eq_append h8 (rfl : field h 0 8 = _) rfl)
    revert e
    cases h.getLsbD 11 <;> exact congrArg Code.thumb
  | f16 => exact encode_decodeThumbCond hm
  | f17 => exact congrArg Code.thumb (eq_of_field_whole (field_eq_append hm (rfl : field h 0 8 = _) rfl))
  | f18 => exact congrArg Code.thumb (eq_of_field_whole (field_eq_append hm (rfl : field h 0 11 = _) rfl))
  | f19 =>
    have h12 : field h 12 4 = 0b1111#4 := hm
    have e := eq_of_field_whole (field_eq_append (field_append_bit h12) (rfl : field h 0 11 = _) rfl)
    revert e
    cases h.getLsbD 11 <;> exact congrArg Code.thumb
  | unallocated => rfl

end Sys2Proof
end

section
/-! Every word and every halfword is the encoding of what it decodes to (40_cycle_and_primitives.md R145). -/

namespace Sys2Proof

theorem encode_decodeArm (w : Word) : encode (decodeArm w) = .arm w := by
  have hw := eq_of_field_whole (field_eq_append (rfl : field w 28 4 = _) (rfl : field w 0 28 = _) rfl)
  rw [decodeArm, encode_decodeArmBits, Cond.bits_ofBits]
  exact congrArg Code.arm hw

/-- Among the instructions of the 32-bit set only an UNDEFINED one can be ill-formed, and it keeps its bits. -/
theorem decodeArm_wellFormed (w : Word) : (decodeArm w).wellFormed = true := by
  have he := encode_decodeArm w
  cases hd : decodeArm w with
  | undefinedArm c bits =>
    have hu := (decodeArmBits_eq_undefinedArm_iff _ _).mp ⟨c, bits, hd⟩
    rw [hd] at he
    cases he
    rwa [field_instr] at hu
  | tUndefined bits => rw [hd] at he; cases he
  | _ => rfl

theorem decodeThumb_wellFormed (h : Half) : (decodeThumb h).wellFormed = true := by
  have he := encode_decodeThumb h
  cases hd : decodeThumb h with
  | undefinedArm c bits => rw [hd] at he; cases he
  | tUndefined bits =>
    rw [hd] at he
    cases he
    exact (decodeThumb_eq_tUndefined_iff h).mp hd
  | _ => rfl

/-- Settles O3: in each line of R93 and each format of R110 the fields that the decoder reads are the whole word, and
the encoder joins them again. -/
theorem encodeOfDecode : Obligations.EncodeOfDecode :=
  ⟨fun w => ⟨encode_decodeArm w, decodeArm_wellFormed w⟩,
    fun h => ⟨encode_decodeThumb h, decodeThumb_wellFormed h⟩⟩

end Sys2Proof
end

section
/-! The second operand and the shifter's carry out (41_arm_data_processing.md R181 to R183). -/

namespace Sys2Proof.Machine

/-! ## Amounts that are 0 or are known not to be -/

/-- R181: the carry out of a rotate is the top bit of its result. -/
theorem ror_of_ne_zero (cin : Bool) (v : Word) {n : Nat} (h : n ≠ 0) :
    ror cin v n = (v.rotateRight n, (v.rotateRight n).getLsbD 31) := by
  rw [ror, if_neg h, rotr_carry, ← getLsbD_rotr_31 v (Nat.one_le_iff_ne_zero.mpr h), rotr_eq]

/-- R182: LSR #0 shifts by 32. -/
theorem lsr_zero (v : Word) : lsr v 0 = (0#32, v.getLsbD 31) := by
  rw [lsr, if_pos rfl, shr_carry]
  rfl

/-- R182: ASR #0 shifts by 32, so the sign fills the word. -/
theorem asr_zero (v : Word) :
    asr v 0 = (if v.getLsbD 31 then 0xFFFFFFFF#32 else 0#32, v.getLsbD 31) := by
  rw [asr, if_pos rfl, sar_carry v (by decide), sar, if_neg (by decide), BitVec.msb_eq_getLsbD_last]
  rfl

/-- R183: the amount is the low byte of the register. -/
theorem field_low_byte_toNat (v : Word) : (field v 0 8).toNat = v.toNat % 256 :=
  BitVec.extractLsb'_toNat 0 8 v

theorem State.operand2_regReg (s : State) (rm : Reg) (ty : ShiftType) (rs : Reg) :
    s.operand2 (.regReg rm ty rs) =
      shiftByReg ty s.cpsr.flags.c (s.readReg rm) ((s.readReg rs).toNat % 256) :=
  congrArg (shiftByReg ty s.cpsr.flags.c (s.readReg rm)) (field_low_byte_toNat (s.readReg rs))

/-- Settles O18: each form is its primitive, and amount 0 is the primitive's own case or the bypass of R183. -/
theorem secondOperandForms : Obligations.SecondOperandForms := by
  intro s
  refine ⟨fun _ => rfl, fun rotate imm8 h => ?_, fun _ _ _ => rfl,
    fun rm => ⟨rfl, rfl, lsr_zero _, asr_zero _⟩, fun rm ty rs => ?_, s.readReg_pc⟩
  · have hn : 2 * rotate.val ≠ 0 := mul_ne_zero two_ne_zero (Fin.val_ne_zero_iff.mpr h)
    have hr := ror_of_ne_zero s.cpsr.flags.c (imm8.zeroExtend 32) hn
    rw [State.operand2, hr]
    exact ⟨rfl, rfl⟩
  · rw [State.operand2_regReg]
    exact ⟨fun h => if_pos h, fun h => if_neg h⟩

end Sys2Proof.Machine
end

section
/-! The sixteen data-processing operations and the returns of twelve of them (41_arm_data_processing.md R184 to
R201). -/

namespace Sys2Proof.Machine

variable {s : State} {i : Instr} {op : DpOp} {c : Cond} {sf : Bool} {rn rd : Reg} {o : Operand2}

/-- What an opcode computes from the operands that the state gives it. -/
def State.dpResult (s : State) (op : DpOp) (rn : Reg) (o : Operand2) : AluResult :=
  op.eval s.cpsr.flags (s.operand2 o).2 (s.readReg rn) (s.operand2 o).1

/-! ## Instructions of the two shared meanings -/

theorem computes_dataProcessing {r : AluResult} (hc : condPassed c s.cpsr.flags = true) (hd : sf = true → rd ≠ 15)
    (hi : exec i s = dataProcessing op c sf rn rd o s) (hr : s.dpResult op rn o = r) :
    Computes i s (if sf then r.flags else s.cpsr.flags) (s.seen [(rd, r.value)]) := by
  subst hr
  exact computes_writeReg (hi.trans (dataProcessing_eq op c sf rn rd o hc hd))

theorem computes_logical {v : Word} (hc : condPassed c s.cpsr.flags = true) (hd : sf = true → rd ≠ 15)
    (hi : exec i s = dataProcessing op c sf rn rd o s)
    (hr : s.dpResult op rn o = logical s.cpsr.flags (s.operand2 o).2 v) :
    Computes i s
      (if sf then ⟨v.getLsbD 31, v == 0#32, (s.operand2 o).2, s.cpsr.flags.v⟩ else s.cpsr.flags)
      (s.seen [(rd, v)]) :=
  computes_dataProcessing hc hd hi (hr.trans (logical_eq _ _ v))

theorem computes_dataCompare {g : Flags} (hc : condPassed c s.cpsr.flags = true)
    (hi : exec i s = dataCompare op c rn o s) (hr : (s.dpResult op rn o).flags = g) : Computes i s g [] := by
  subst hr
  exact computes_flags (hi.trans (whenCond_pass _ hc))

theorem returns_dataProcessing {v : Word} (hc : condPassed c s.cpsr.flags = true)
    (hi : exec i s = dataProcessing op c true rn 15 o s) (hr : (s.dpResult op rn o).value = v) :
    Returns i s [] v := by
  subst hr
  exact returns_of (hi.trans (dataProcessing_return op c rn o hc)) (Effect.refl s) rfl fun _ _ => rfl

/-! ## The operations whose result the rules write in another form -/

theorem logical_flags (f : Flags) (cout : Bool) (v : Word) :
    (logical f cout v).flags = ⟨v.getLsbD 31, v == 0#32, cout, f.v⟩ := by rw [logical_eq]

theorem add_zero_value (a b : Word) : (add a b 0#32).value = a + b := BitVec.add_zero (a + b)

theorem sub_zero_value (a b : Word) : (sub a b 0#32).value = a - b := by rw [sub_value, BitVec.sub_zero]

/-- R190: the borrow is the complement of the carry flag. -/
theorem dpResult_sbc : s.dpResult .sbc rn o =
    sub (s.readReg rn) (s.operand2 o).1 (1#32 - boolWord s.cpsr.flags.c) := by
  rw [← boolWord_not]; rfl

/-- R191. -/
theorem dpResult_rsc : s.dpResult .rsc rn o =
    sub (s.operand2 o).1 (s.readReg rn) (1#32 - boolWord s.cpsr.flags.c) := by
  rw [← boolWord_not]; rfl

/-! ## The statements -/

/-- Settles O31: each is `logical` of its value. -/
theorem logicalOperations : Obligations.LogicalOperations := by
  intro c sf rn rd o s hc hd a b
  simp only [List.forall_mem_cons]
  exact ⟨computes_logical hc hd rfl rfl, computes_logical hc hd rfl rfl, computes_logical hc hd rfl rfl,
    computes_logical hc hd rfl rfl, computes_logical hc hd rfl rfl, computes_logical hc hd rfl rfl,
    List.forall_mem_nil _⟩

/-- Settles O32: each is one primitive; SBC and RSC take the complement of the carry flag. -/
theorem arithmeticOperations : Obligations.ArithmeticOperations := by
  intro c sf rn rd o s hc hd a b cin
  simp only [List.forall_mem_cons]
  exact ⟨computes_dataProcessing hc hd rfl rfl, computes_dataProcessing hc hd rfl rfl,
    computes_dataProcessing hc hd rfl rfl, computes_dataProcessing hc hd rfl rfl,
    computes_dataProcessing hc hd rfl dpResult_sbc, computes_dataProcessing hc hd rfl dpResult_rsc,
    List.forall_mem_nil _⟩

/-- Settles O33: the compares are `dataCompare`, which has no destination. -/
theorem compareOperations : Obligations.CompareOperations := by
  intro c rn rd o s hc a b bits
  simp only [List.forall_mem_cons]
  exact ⟨computes_dataCompare hc rfl (logical_flags _ _ _), computes_dataCompare hc rfl (logical_flags _ _ _),
    computes_dataCompare hc rfl rfl, computes_dataCompare hc rfl rfl, List.forall_mem_nil _⟩

/-- Settles O34: with S = 1 and Rd = 15 `dataProcessing` is an exception return to the operation's value. -/
theorem dataProcessingReturn : Obligations.DataProcessingReturn := by
  intro c rn o s hc a b cin
  simp only [List.forall_mem_cons]
  exact ⟨returns_dataProcessing hc rfl rfl, returns_dataProcessing hc rfl rfl,
    returns_dataProcessing hc rfl (sub_zero_value a b), returns_dataProcessing hc rfl (sub_zero_value b a),
    returns_dataProcessing hc rfl (add_zero_value a b), returns_dataProcessing hc rfl rfl,
    returns_dataProcessing hc rfl ((congrArg AluResult.value dpResult_sbc).trans (sub_value a b _)),
    returns_dataProcessing hc rfl ((congrArg AluResult.value dpResult_rsc).trans (sub_value b a _)),
    returns_dataProcessing hc rfl rfl, returns_dataProcessing hc rfl rfl, returns_dataProcessing hc rfl rfl,
    returns_dataProcessing hc rfl rfl, List.forall_mem_nil _⟩

end Sys2Proof.Machine
end

section
/-! MRS and MSR (41_arm_data_processing.md R202 to R204). -/

namespace Sys2Proof.Machine

variable {s : State} {c : Cond} {k : FieldMask} {v : Word}

/-! ## MRS -/

theorem exec_mrs_cpsr (rd : Reg) (hc : condPassed c s.cpsr.flags = true) :
    exec (.mrs c false rd) s = .next (s.writeReg rd s.cpsr.word) := by
  rw [exec, execMrs, whenCond_pass _ hc]
  rfl

theorem exec_mrs_spsr_none (rd : Reg) (hc : condPassed c s.cpsr.flags = true) (hm : s.cpsr.mode.excMode? = none) :
    exec (.mrs c true rd) s = .refused .noSpsr := by
  rw [exec, execMrs, whenCond_pass _ hc]
  simp [hm]

theorem exec_mrs_spsr_some (rd : Reg) {m : ExcMode} (hc : condPassed c s.cpsr.flags = true)
    (hm : s.cpsr.mode.excMode? = some m) :
    exec (.mrs c true rd) s = .next (s.writeReg rd (s.spsr.get m).word) := by
  rw [exec, execMrs, whenCond_pass _ hc]
  simp [hm]

/-- Settles O35: MRS is one register write, of the CPSR or of the current mode's SPSR. -/
theorem mrsReadsStatus : Obligations.MrsReadsStatus := by
  intro c rd s hc
  refine ⟨computes_move (exec_mrs_cpsr rd hc), ?_⟩
  split
  · next hm => exact exec_mrs_spsr_none rd hc hm
  · next m hm => exact computes_move (exec_mrs_spsr_some rd hc hm)

/-! ## MSR -/

/-- The flags that MSR of `v` under a field mask leaves. -/
def Flags.maskedBy (f : Flags) (k : FieldMask) (v : Word) : Flags :=
  if k.f then ⟨v.getLsbD 31, v.getLsbD 30, v.getLsbD 29, v.getLsbD 28⟩ else f

/-- The status that MSR of `v` under a field mask leaves: the flags if `f`, the control byte if `c`. -/
def Psr.maskedBy (p : Psr) (k : FieldMask) (v : Word) : Psr :=
  ⟨p.flags.maskedBy k v, if k.c then v.getLsbD 7 else p.i, if k.c then v.getLsbD 6 else p.f,
    if k.c then v.getLsbD 5 else p.t, if k.c then v.extractLsb' 0 5 else p.m⟩

theorem Psr.ofWord_maskedBy (p : Psr) (k : FieldMask) (v : Word) :
    Psr.ofWord ((p.word &&& ~~~k.word) ||| (v &&& k.word)) = p.maskedBy k v :=
  Psr.ofWord_masked p v k.word k.f k.c (FieldMask.word_getLsbD k)

theorem State.msrOperand_eq (s : State) (o : MsrOperand) : s.msrOperand o = match o with
    | .reg rm => s.readReg rm
    | .imm rotate imm8 => (imm8.zeroExtend 32).rotateRight (2 * rotate.val) := by
  cases o with
  | reg rm => rfl
  | imm rotate imm8 => exact rotr_eq _ _

theorem exec_msr_cpsr {o : MsrOperand} (hc : condPassed c s.cpsr.flags = true) (hv : s.msrOperand o = v) :
    exec (.msr c false k o) s = writeCpsr k v s := by
  rw [exec, execMsr, whenCond_pass _ hc, hv]
  rfl

theorem exec_msr_spsr {o : MsrOperand} (hc : condPassed c s.cpsr.flags = true) (hv : s.msrOperand o = v) :
    exec (.msr c true k o) s = writeSpsr k v s := by
  rw [exec, execMsr, whenCond_pass _ hc, hv]
  rfl

/-! ## To the CPSR -/

/-- R203 with the control field protected or not selected: only the flags can change. -/
theorem writeCpsr_protected (h : ¬ (k.c = true ∧ s.cpsr.mode ≠ .user)) :
    writeCpsr k v s = .next { s with cpsr := { s.cpsr with flags := s.cpsr.flags.maskedBy k v } } := by
  have hsel : (k.c && decide (s.cpsr.mode ≠ .user)) = false := by simpa using h
  simp only [writeCpsr, Cpsr.word, Psr.ofWord_masked _ _ _ _ _ (cpsrMask_getLsbD k s.cpsr.mode),
    cpsrMask_getLsbD, hsel]
  simp [Psr.toCpsr?, Cpsr.toPsr, Mode.ofBits?_bits, Flags.maskedBy]

/-- R203 with the control field selected: the state bit must stay and the mode field must name a mode. -/
theorem writeCpsr_selected (hk : k.c = true) (hu : s.cpsr.mode ≠ .user) :
    writeCpsr k v s = if v.getLsbD 5 ≠ s.cpsr.t then .refused .msrChangesT
      else (Mode.ofBits? (v.extractLsb' 0 5)).elim (.refused .invalidMode) fun m =>
        .next { s with cpsr := ⟨s.cpsr.flags.maskedBy k v, v.getLsbD 7, v.getLsbD 6, s.cpsr.t, m⟩ } := by
  have hsel : (k.c && decide (s.cpsr.mode ≠ .user)) = true := by simp [hk, hu]
  simp only [writeCpsr, Cpsr.word, Psr.ofWord_masked _ _ _ _ _ (cpsrMask_getLsbD k s.cpsr.mode),
    cpsrMask_getLsbD, hsel]
  by_cases ht : v.getLsbD 5 = s.cpsr.t
  · cases hm : Mode.ofBits? (v.extractLsb' 0 5) <;>
      simp [Psr.toCpsr?, Cpsr.toPsr, ht, hm, Flags.maskedBy, -BitVec.getLsbD_eq_getElem]
  · simp [ht, -BitVec.getLsbD_eq_getElem]

/-- Settles O36: `writeCpsr_selected` and `writeCpsr_protected` are the two ways of R203. -/
theorem msrWritesCpsr : Obligations.MsrWritesCpsr := by
  intro c k o s hc v flags
  rw [exec_msr_cpsr hc (show s.msrOperand o = v from s.msrOperand_eq o)]
  split
  · next hsel =>
    obtain ⟨hk, hu⟩ := hsel
    rw [writeCpsr_selected hk hu]
    split
    · rfl
    · cases Mode.ofBits? (v.extractLsb' 0 5) <;> rfl
  · next hsel => exact writeCpsr_protected hsel

/-! ## To the SPSR -/

theorem writeSpsr_none (hm : s.cpsr.mode.excMode? = none) : writeSpsr k v s = .refused .noSpsr := by
  simp [writeSpsr, hm]

/-- R204: T and the mode field are stored as they are. -/
theorem writeSpsr_some {m : ExcMode} (hm : s.cpsr.mode.excMode? = some m) :
    writeSpsr k v s = .next { s with spsr := s.spsr.set m ((s.spsr.get m).maskedBy k v) } := by
  simp only [writeSpsr, hm, Psr.ofWord_maskedBy]

/-- Settles O37: `writeSpsr_some` names the one SPSR that changes and its fields. -/
theorem msrWritesSpsr : Obligations.MsrWritesSpsr := by
  intro c k o s hc v
  rw [exec_msr_spsr hc (show s.msrOperand o = v from s.msrOperand_eq o)]
  split
  · next hm => exact writeSpsr_none hm
  · next m hm =>
    have hnew : (s.spsr.set m ((s.spsr.get m).maskedBy k v)).get m = (s.spsr.get m).maskedBy k v :=
      (SpsrBank.get_set ..).trans (if_pos rfl)
    refine ⟨_, writeSpsr_some hm, rfl, fun m' h => (SpsrBank.get_set ..).trans (if_neg h), ?_, ?_⟩
    · rw [hnew]
      rfl
    · rw [hnew, Psr.maskedBy]
      cases k.c <;> rfl

end Sys2Proof.Machine
end

section
/-! The multiplies of the 32-bit set (42_arm_multiply.md R221 to R226). -/

namespace Sys2Proof.Machine

variable {s : State} {i : Instr} {c : Cond} {sf : Bool} {hi lo : Reg} {p q : BitVec 64}

/-! ## MUL and MLA -/

/-- `computes_writeReg` where the flags written are N and Z of the value. -/
theorem computes_setNZ {rd : Reg} {v w : Word}
    (h : exec i s = .next ((if sf then s.setFlags (s.cpsr.flags.setNZ v) else s).writeReg rd v)) (hv : v = w) :
    Computes i s (if sf then { s.cpsr.flags with n := w.getLsbD 31, z := w == 0#32 } else s.cpsr.flags)
      (s.seen [(rd, w)]) := by
  subst hv
  rw [← setNZ_eq]
  exact computes_writeReg h

theorem mul_eq_ofNat (a b : Word) : a * b = BitVec.ofNat 32 (a.toNat * b.toNat) := rfl

theorem mul_add_eq_ofNat (a b d : Word) : a * b + d = BitVec.ofNat 32 (a.toNat * b.toNat + d.toNat) := by
  rw [BitVec.ofNat_add, ← mul_eq_ofNat, BitVec.ofNat_toNat, BitVec.setWidth_eq]

theorem exec_mul (rd rn rs rm : Reg) (hc : condPassed c s.cpsr.flags = true) :
    exec (.mul c sf rd rn rs rm) s =
      let v := s.readReg rm * s.readReg rs
      .next ((if sf then s.setFlags (s.cpsr.flags.setNZ v) else s).writeReg rd v) := by
  rw [exec, execMul, whenCond_pass _ hc]
  rfl

theorem exec_mla (rd rn rs rm : Reg) (hc : condPassed c s.cpsr.flags = true) :
    exec (.mla c sf rd rn rs rm) s =
      let v := s.readReg rm * s.readReg rs + s.readReg rn
      .next ((if sf then s.setFlags (s.cpsr.flags.setNZ v) else s).writeReg rd v) := by
  rw [exec, execMla, whenCond_pass _ hc]

/-- Settles O38: MUL and MLA are one register write, of the wrapped product or sum. -/
theorem multiplyAndAccumulate : Obligations.MultiplyAndAccumulate := by
  intro c sf rd rn rs rm s hc p q fl
  exact ⟨computes_setNZ (exec_mul rd rn rs rm hc) (mul_eq_ofNat ..),
    computes_setNZ (exec_mla rd rn rs rm hc) (mul_add_eq_ofNat ..)⟩

/-! ## The long multiplies end in `writeLong` -/

theorem setNZ64_eq (f : Flags) (p : BitVec 64) :
    f.setNZ64 p = { f with n := p.getLsbD 63, z := p == 0#64 } := by
  simp [Flags.setNZ64, BitVec.msb_eq_getLsbD_last]

/-- `writeLong` sets the flags and then writes two registers, RdHi last. -/
theorem computes_writeLong (h : exec i s = writeLong sf hi lo p s) (hp : p = q) :
    Computes i s (if sf then { s.cpsr.flags with n := q.getLsbD 63, z := q == 0#64 } else s.cpsr.flags)
      (s.seen [(lo, q.extractLsb' 0 32), (hi, q.extractLsb' 32 32)]) := by
  subst hp
  rw [← setNZ64_eq]
  exact ⟨_, h, (((Effect.refl s).setFlagsIf sf _).writeReg lo _).writeReg hi _,
    .of_mem (by cases sf <;> simp)⟩

theorem exec_umull (hi lo rs rm : Reg) (hc : condPassed c s.cpsr.flags = true) :
    exec (.umull c sf hi lo rs rm) s =
      writeLong sf hi lo (mulLong false (s.readReg rm) (s.readReg rs)) s := by
  rw [exec, execUmull, whenCond_pass _ hc]

theorem exec_umlal (hi lo rs rm : Reg) (hc : condPassed c s.cpsr.flags = true) :
    exec (.umlal c sf hi lo rs rm) s =
      writeLong sf hi lo (mulLong false (s.readReg rm) (s.readReg rs) + s.accumulator hi lo) s := by
  rw [exec, execUmlal, whenCond_pass _ hc]

theorem exec_smull (hi lo rs rm : Reg) (hc : condPassed c s.cpsr.flags = true) :
    exec (.smull c sf hi lo rs rm) s =
      writeLong sf hi lo (mulLong true (s.readReg rm) (s.readReg rs)) s := by
  rw [exec, execSmull, whenCond_pass _ hc]

theorem exec_smlal (hi lo rs rm : Reg) (hc : condPassed c s.cpsr.flags = true) :
    exec (.smlal c sf hi lo rs rm) s =
      writeLong sf hi lo (mulLong true (s.readReg rm) (s.readReg rs) + s.accumulator hi lo) s := by
  rw [exec, execSmlal, whenCond_pass _ hc]

/-! ## Products of 64 bits, and what is added to them -/

theorem mulLong_unsigned (a b : Word) : mulLong false a b = BitVec.ofNat 64 (a.toNat * b.toNat) := by
  simp [mulLong, BitVec.ofNat_mul]

theorem mulLong_signed (a b : Word) : mulLong true a b = BitVec.ofInt 64 (a.toInt * b.toInt) := by
  simp [mulLong, BitVec.ofInt_mul, BitVec.signExtend]

/-- R224: RdHi is the high word of the accumulator. -/
theorem State.accumulator_eq (s : State) (hi lo : Reg) :
    s.accumulator hi lo = BitVec.ofNat 64 (2 ^ 32 * (s.readReg hi).toNat + (s.readReg lo).toNat) := by
  apply BitVec.eq_of_toNat_eq
  rw [State.accumulator, BitVec.toNat_append, ← Nat.shiftLeft_add_eq_or_of_lt (BitVec.isLt _),
    Nat.shiftLeft_eq, Nat.mul_comm, BitVec.toNat_ofNat, Nat.mod_eq_of_lt (by omega)]

theorem mulLong_unsigned_accumulate (s : State) (hi lo : Reg) (a b : Word) :
    mulLong false a b + s.accumulator hi lo = BitVec.ofNat 64
      (a.toNat * b.toNat + (2 ^ 32 * (s.readReg hi).toNat + (s.readReg lo).toNat)) := by
  rw [mulLong_unsigned, State.accumulator_eq, ← BitVec.ofNat_add]

theorem mulLong_signed_accumulate (s : State) (hi lo : Reg) (a b : Word) :
    mulLong true a b + s.accumulator hi lo = BitVec.ofInt 64
      (a.toInt * b.toInt + (2 ^ 32 * (s.readReg hi).toNat + (s.readReg lo).toNat : Nat)) := by
  rw [mulLong_signed, State.accumulator_eq, BitVec.ofInt_add, BitVec.ofInt_natCast]

/-- Settles O39: all four end in `writeLong`, with the exact product and, where they accumulate, RdHi : RdLo. -/
theorem longMultiply : Obligations.LongMultiply := by
  intro c sf hi lo rs rm s hc a b acc
  simp only [List.forall_mem_cons]
  exact ⟨computes_writeLong (exec_umull hi lo rs rm hc) (mulLong_unsigned a b),
    computes_writeLong (exec_umlal hi lo rs rm hc) (mulLong_unsigned_accumulate s hi lo a b),
    computes_writeLong (exec_smull hi lo rs rm hc) (mulLong_signed a b),
    computes_writeLong (exec_smlal hi lo rs rm hc) (mulLong_signed_accumulate s hi lo a b),
    List.forall_mem_nil _⟩

end Sys2Proof.Machine
end

section
/-! B and BL of the 32-bit set (43_arm_branch_system.md R230, R231). -/

namespace Sys2Proof.Machine

variable {s : State} {i : Instr} {c : Cond}

/-- A register write, then a branch. -/
theorem computes_writeReg_branchTo {r : Reg} {v w : Word}
    (h : exec i s = .next ((s.writeReg r v).branchTo w)) :
    Computes i s s.cpsr.flags (s.seen [(r, v), (15, w)]) :=
  ⟨_, h, ((Effect.refl s).writeReg r v).branchTo w, .of_mem (s.writeReg_mem r v)⟩

/-- R230: two bits of shift are a factor of four. -/
theorem State.armTarget_eq (s : State) (imm24 : BitVec 24) :
    s.armTarget imm24 = s.pc + BitVec.ofInt 32 (4 * imm24.toInt) :=
  congrArg (s.pc + ·) (ofInt_mul_toInt imm24 2).symm

theorem exec_b (imm24 : BitVec 24) (hc : condPassed c s.cpsr.flags = true) :
    exec (.b c imm24) s = .next (s.branchTo (s.armTarget imm24)) := by
  rw [exec, execB, whenCond_pass _ hc]

theorem exec_bl (imm24 : BitVec 24) (hc : condPassed c s.cpsr.flags = true) :
    exec (.bl c imm24) s = .next ((s.writeReg 14 (s.pc - 4)).branchTo (s.armTarget imm24)) := by
  rw [exec, execBl, whenCond_pass _ hc]

/-- Settles O40: B is a branch to `State.armTarget`, BL the same after one register write. -/
theorem armBranches : Obligations.ArmBranches := by
  intro c imm24 s hc target
  have ht : s.armTarget imm24 = target := s.armTarget_eq imm24
  rw [← ht]
  exact ⟨computes_branch (exec_b imm24 hc), computes_writeReg_branchTo (exec_bl imm24 hc)⟩

end Sys2Proof.Machine
end

section
/-! The own effect of SWI and of the unallocated encodings of both sets: one pending flag
(43_arm_branch_system.md R233, R234, 47_thumb_branch.md R364, R368). -/

namespace Sys2Proof.Machine

variable {s : State} {c : Cond}

theorem raises_swi (comment : BitVec 24) (hc : condPassed c s.cpsr.flags = true) :
    Raises (.swi c comment) s .softwareInterrupt := by
  rw [Raises, exec, execSwi, whenCond_pass _ hc]
  rfl

theorem raises_undefinedArm (bits : BitVec 28) (hc : condPassed c s.cpsr.flags = true) :
    Raises (.undefinedArm c bits) s .undefinedInstr := by
  rw [Raises, exec, execUndefinedArm, whenCond_pass _ hc]
  rfl

theorem raises_tSwi (value8 : BitVec 8) : Raises (.tSwi value8) s .softwareInterrupt := rfl

theorem raises_tUndefined (bits : Half) : Raises (.tUndefined bits) s .undefinedInstr := rfl

/-- Settles O29: each of the four is `State.raiseException`. -/
theorem trapsOnlyBecomePending : Obligations.TrapsOnlyBecomePending := fun _ _ hc =>
  ⟨fun n => raises_swi n hc, raises_tSwi, fun b => raises_undefinedArm b hc, raises_tUndefined⟩

end Sys2Proof.Machine
end

section
/-! The tick that enters an exception (60_exceptions.md R384 to R386), and a trap from the tick that makes it
pending to the one that enters it. -/

namespace Sys2Proof.Machine

variable {s : State} {k : ExcKind}

/-! ## The entry tick -/

/-- A kind's code is its place in the order of priority (R381). -/
theorem byPriority_split (k : ExcKind) : ExcKind.byPriority =
    ExcKind.byPriority.take k.code ++ k :: ExcKind.byPriority.drop (k.code + 1) := by
  cases k <;> rfl

theorem mem_take_byPriority (k j : ExcKind) : j ∈ ExcKind.byPriority.take k.code ↔ j.code < k.code := by
  cases k <;> cases j <;> decide

/-- A tick enters the first pending kind that is not masked; the flags up to it are cleared. -/
theorem step_enters (hr : s.running = true) (hk : s.pending.get k = true) (hm : s.cpsr.masks k = false)
    (h : ∀ j, j.code < k.code → s.pending.get j = true → s.cpsr.masks j = true) :
    step s = .next (State.enter
      { s with pending := s.pending.clear (ExcKind.byPriority.take k.code ++ [k]) } k).advance := by
  have hpre (j : ExcKind) (hj : j ∈ ExcKind.byPriority.take k.code) := h j ((mem_take_byPriority k j).mp hj)
  have hn : k ∉ ExcKind.byPriority.take k.code := mt (mem_take_byPriority k k).mp (Nat.lt_irrefl _)
  have hs := (congrArg s.serviceFrom (byPriority_split k)).trans (State.serviceFrom_true hpre hn hk hm)
  rw [step, if_pos hr, State.service, hs]

/-- One kind pending alone: nothing is pending after its entry. -/
theorem step_enters_alone (hr : s.running = true) (hp : ∀ j, s.pending.get j = (j == k))
    (hm : s.cpsr.masks k = false) :
    step s = .next (State.enter { s with pending := Pending.none } k).advance := by
  have hclear : s.pending.clear (ExcKind.byPriority.take k.code ++ [k]) = Pending.none :=
    Pending.ext_get fun j => by
      rw [Pending.get_clear, hp]
      by_cases hj : j = k <;> simp [hj]
  rw [← hclear]
  refine step_enters hr (by simp [hp]) hm fun j hj hpj => ?_
  rw [hp, beq_iff_eq] at hpj
  exact absurd hj (hpj ▸ Nat.lt_irrefl _)

/-- The machine at the end of the tick that enters `k` from `s` (R386, R398), but for what is pending. -/
structure Entered (k : ExcKind) (s u : State) : Prop where
  cpsr : u.cpsr = s.cpsr.entered k
  savedStatus : u.spsr.get k.entryMode = s.cpsr.toPsr
  link : u.readReg 14 = s.pc - 4
  pc : u.pc = k.vector + 8
  pipeCur : u.pipeCur = s.readWord k.vector
  pipeNext : u.pipeNext = s.readWord (k.vector + 4)
  otherRegs : ∀ p, p ≠ .pc → p ≠ phys k.entryMode.mode 14 → u.regs.read p = s.regs.read p
  mem : u.mem = s.mem

theorem State.enter_advance_entered (s : State) (k : ExcKind) : Entered k s (s.enter k).advance := by
  obtain ⟨hpc, hcur, hnext⟩ := s.enter_advance k
  refine ⟨rfl, (SpsrBank.get_set ..).trans (if_pos rfl), ?_, hpc, hcur, hnext, fun p hp hl => ?_, rfl⟩
  · exact (State.readReg_advance _ (by decide)).trans (s.enter_link k)
  · rw [State.read_advance _ hp, s.enter_read k hp, if_neg hl]

/-! ## Traps -/

/-- The two kinds that instructions raise are never masked and leave F as it is (R382, R385). -/
theorem Cpsr.masks_of_trap (hk : k = .softwareInterrupt ∨ k = .undefinedInstr) (c : Cpsr) : c.masks k = false := by
  obtain rfl | rfl := hk <;> rfl

theorem Cpsr.entered_of_trap (hk : k = .softwareInterrupt ∨ k = .undefinedInstr) (c : Cpsr) :
    c.entered k = { c with i := true, t := false, mode := k.entryMode.mode } := by
  obtain rfl | rfl := hk <;> simp [Cpsr.entered, ExcKind.setsF]

/-- The tick of a trap: its kind becomes pending and the pipeline advances. -/
theorem step_of_raises (hr : s.running = true) (hp : s.pending = Pending.none)
    (hi : Raises s.currentInstr s k) : step s = .next (s.raiseException k).advance := by
  rw [step_of_none_pending hr hp, hi]
  rfl

/-- 90_conflicts.md C3: R15 is one width further on when the trap is entered, and the link is 4 less. -/
theorem State.trap_link (s : State) : s.pc + s.width - 4 = if s.cpsr.t then s.pc - 2 else s.pc := by
  cases h : s.cpsr.t with
  | false => rw [State.width_arm h]; exact BitVec.add_sub_cancel ..
  | true => rw [State.width_thumb h, if_pos rfl]; bv_omega

/-- Settles O30: the first tick is `step_of_raises`, the second `step_enters_alone`. -/
theorem trapIsEnteredOneTickLater : Obligations.TrapIsEnteredOneTickLater := by
  rintro s k hr hp ha ⟨i, hi, hpass, htrap⟩
  have hk : k = .softwareInterrupt ∨ k = .undefinedInstr := htrap.imp And.left And.left
  have hraises : Raises s.currentInstr s k := by
    rw [hi]
    obtain ⟨rfl, ⟨c, n, rfl⟩ | ⟨n, rfl⟩⟩ | ⟨rfl, ⟨c, b, rfl⟩ | ⟨b, rfl⟩⟩ := htrap
    · exact raises_swi n hpass
    · exact raises_tSwi n
    · exact raises_undefinedArm b hpass
    · exact raises_tUndefined b
  have hpend (j : ExcKind) : (s.raiseException k).advance.pending.get j = (j == k) := by
    rw [State.advance_pending, s.raiseException_get, hp, Pending.get_none, Bool.false_or]
  have hpc : (s.raiseException k).advance.pc = s.pc + s.width := congrArg (· + s.width) ha
  have he := State.enter_advance_entered { (s.raiseException k).advance with pending := Pending.none } k
  refine ⟨_, _, step_of_raises hr hp hraises, hpend, hpc, rfl,
    step_enters_alone hr hpend (Cpsr.masks_of_trap hk _), ?_, congrArg Psr.word he.savedStatus,
    he.cpsr.trans (Cpsr.entered_of_trap hk _), he.pc, he.pipeCur, Pending.get_none, fun p hpp hl => ?_,
    .of_mem he.mem⟩
  · rw [he.link, ← s.trap_link, ← hpc]
    rfl
  · exact (he.otherRegs p hpp hl).trans (State.read_advance _ hpp)

end Sys2Proof.Machine
end

section
/-! The single, halfword and signed transfers and the swaps of the 32-bit set (44_arm_load_store.md R246 to
R263). -/

namespace Sys2Proof.Machine

variable {s : State} {c : Cond}

/-! ## Offsets -/

/-- R246. -/
theorem State.wordOffset_eq (s : State) (o : WordOffset) : s.wordOffset o = match o with
    | .imm imm12 => imm12.zeroExtend 32
    | .reg rm ty n => (shift ty s.cpsr.flags.c (s.readReg rm) n.val).1 := by
  cases o with
  | imm imm12 => rfl
  | reg rm ty n => rfl

/-- R255. -/
theorem State.halfOffset_eq (s : State) (o : HalfOffset) : s.halfOffset o = match o with
    | .imm off8 => off8.zeroExtend 32
    | .reg rm => s.readReg rm := by
  cases o with
  | imm off8 => rfl
  | reg rm => rfl

/-! ## Loads and stores -/

/-- Settles O42: each load is `loadTransfer` with its own access. -/
theorem armLoads : Obligations.ArmLoads := by
  intro c m rn rd s hc base idx addr ws
  refine ⟨fun o => ?_, fun o => ?_⟩
  · intro off
    have ho : s.wordOffset o = off := s.wordOffset_eq o
    rw [← ho]
    exact ⟨computes_load (read := State.readWord) (off := (·.wordOffset o)) rfl hc,
      computes_load (read := State.loadByte) (off := (·.wordOffset o)) rfl hc⟩
  · intro off
    have ho : s.halfOffset o = off := s.halfOffset_eq o
    rw [← ho]
    exact ⟨computes_load (read := State.loadHalf) (off := (·.halfOffset o)) rfl hc,
      computes_load (read := State.loadSignedByte) (off := (·.halfOffset o)) rfl hc,
      computes_load (read := State.loadSignedHalf) (off := (·.halfOffset o)) rfl hc⟩

/-- Settles O43: each store is `storeTransfer` of the bytes of its width. -/
theorem armStores : Obligations.ArmStores := by
  intro c m rn rd s hw hc base v idx addr ws
  refine ⟨fun o => ?_, fun o => ?_⟩
  · intro off
    have ho : s.wordOffset o = off := s.wordOffset_eq o
    rw [← ho]
    exact ⟨stores_transfer (off := (·.wordOffset o)) rfl hw hc State.writeWord_eq fun _ => by simp,
      stores_transfer (off := (·.wordOffset o)) (bs := fun v => [v.extractLsb' 0 8]) rfl hw hc
        State.storeByte_eq fun _ => by simp⟩
  · intro off
    have ho : s.halfOffset o = off := s.halfOffset_eq o
    rw [← ho]
    exact stores_transfer (off := (·.halfOffset o)) (bs := fun v => halfBytes (v.extractLsb' 0 16)) rfl hw hc
      State.storeHalf_eq fun _ => by simp

/-! ## Swaps -/

/-- Bytes stored, then a register write. -/
theorem stores_writeReg {i : Instr} {a v : Word} {bs : List Byte} {rd : Reg}
    (h : exec i s = .next ((s.storeBytes a bs).writeReg rd v)) (hw : s.mem.wf = true) (hl : bs.length ≤ 4) :
    Stores i s (s.seen [(rd, v)]) a bs :=
  stores_of hw (hl.trans (by decide)) h ((Effect.storeBytes s a bs).writeReg rd v) (State.writeReg_mem _ rd v)

theorem exec_swp (rn rd rm : Reg) (hc : condPassed c s.cpsr.flags = true) :
    exec (.swp c rn rd rm) s =
      .next ((s.storeBytes (s.readReg rn) (wordBytes (s.readReg rm))).writeReg rd
        (s.readWord (s.readReg rn))) := by
  rw [exec, execSwp, whenCond_pass _ hc, ← State.writeWord_eq]

theorem exec_swpb (rn rd rm : Reg) (hc : condPassed c s.cpsr.flags = true) :
    exec (.swpb c rn rd rm) s =
      .next ((s.storeBytes (s.readReg rn) [(s.readReg rm).extractLsb' 0 8]).writeReg rd
        ((s.readByte (s.readReg rn)).zeroExtend 32)) := by
  rw [exec, execSwpb, whenCond_pass _ hc, ← State.storeByte_eq]
  rfl

/-- Settles O44: a swap is one store and one register write, of what was read before both. -/
theorem swaps : Obligations.Swaps := by
  intro c rn rd rm s hw hc addr v
  exact ⟨stores_writeReg (exec_swp rn rd rm hc) hw (wordBytes_length v).le,
    stores_writeReg (exec_swpb rn rd rm hc) hw (by simp)⟩

end Sys2Proof.Machine
end

section
/-! LDM and STM of the 32-bit set, and the empty list of both sets (44_arm_load_store.md R265 to R272,
46_thumb_memory.md R353). -/

namespace Sys2Proof.Machine

variable {s : State} {c : Cond} {m : IndexMode} {sf : Bool} {rn : Reg} {list : BitVec 16}

/-! ## The register list -/

theorem mem_allRegs : ∀ r : Reg, r ∈ allRegs := by decide

theorem allRegs_pairwise_lt : allRegs.Pairwise (· < ·) := by decide

theorem mem_regsOfList {r : Reg} : r ∈ regsOfList list ↔ list.getLsbD r.val = true :=
  List.mem_filter.trans (and_iff_right (mem_allRegs r))

/-- Settles O45: the list is a part of the ascending `allRegs`; the addresses are the definitions'. -/
theorem blockAddressing : Obligations.BlockAddressing :=
  ⟨fun _ _ => mem_regsOfList, fun _ => allRegs_pairwise_lt.filter _, fun _ _ _ =>
    ⟨⟨rfl, rfl⟩, ⟨rfl, rfl⟩, ⟨rfl, rfl⟩, rfl, rfl⟩⟩

theorem ne_zero_of_bit15 (h : list.getLsbD 15 = true) : list ≠ 0#16 := by
  rintro rfl
  exact absurd h (by decide)

/-- The registers of a list other than R15, which LDM loads before it goes on at the word of R15. -/
def regsBelowPc (list : BitVec 16) : List Reg := (regsOfList list).filter (· ≠ 15)

theorem regsOfList_of_pc (h : list.getLsbD 15 = true) : regsOfList list = regsBelowPc list ++ [15] :=
  (regsOfList_split list).trans (by rw [if_pos h, regsBelowPc])

theorem regsBelowPc_of_no_pc (h : list.getLsbD 15 = false) : regsBelowPc list = regsOfList list := by
  have hs := regsOfList_split list
  rw [h, if_neg Bool.false_ne_true, List.append_nil] at hs
  exact hs.symm

/-! ## Loaded registers -/

/-- Registers with the words that stand one after another from `a` on. -/
def State.loadedRegs (s : State) (a : Word) (rs : List Reg) : List (Reg × Word) :=
  rs.zipIdx.map fun r => (r.1, s.readWord (a + BitVec.ofNat 32 (4 * r.2)))

theorem State.loadedRegs_concat (s : State) (a : Word) (rs : List Reg) (r : Reg) :
    s.loadedRegs a (rs ++ [r]) = s.loadedRegs a rs ++ [(r, s.readWord (a + blockSize rs.length))] := by
  simp [State.loadedRegs, List.zipIdx_append, blockSize]

theorem State.writeRegs_concat (s : State) (us : List (Reg × Word)) (r : Reg) (v : Word) :
    s.writeRegs (us ++ [(r, v)]) = (s.writeRegs us).writeReg r v := by
  induction us generalizing s with
  | nil => rfl
  | cons u us ih => exact ih _

/-! ## LDM -/

/-- The base writeback that an LDM makes before its loads. -/
def State.ldmBase (s : State) (m : IndexMode) (rn : Reg) (list : BitVec 16) : State :=
  if m.blockWritesBack list then s.writeReg rn (m.blockFinal (s.readReg rn) (regsOfList list).length) else s

/-- What an LDM loads into the registers `rs` of its list. -/
def State.ldmLoaded (s : State) (m : IndexMode) (rn : Reg) (list : BitVec 16) (rs : List Reg) :
    List (Reg × Word) :=
  s.loadedRegs (m.blockStart (s.readReg rn) (regsOfList list).length) rs

theorem State.ldmBase_mem (s : State) (m : IndexMode) (rn : Reg) (list : BitVec 16) :
    (s.ldmBase m rn list).mem = s.mem := by
  rw [State.ldmBase]
  split
  · exact State.writeReg_mem ..
  · rfl

/-- The register writes of an LDM before those of its list. -/
theorem State.ldmBase_effect (s : State) (m : IndexMode) (rn : Reg) (list : BitVec 16) :
    Effect s (s.ldmBase m rn list) s.cpsr.flags (s.seen (if m.w = true ∧ list ≠ 0#16 then
      [(rn, m.blockFinal (s.readReg rn) (regsOfList list).length)] else [])) :=
  (Effect.refl s).blockWriteBack m list rn _

/-- The word that R15 receives when it is listed: the one after those of the other registers. -/
def State.ldmTarget (s : State) (m : IndexMode) (rn : Reg) (list : BitVec 16) : Word :=
  s.readWord (m.blockStart (s.readReg rn) (regsOfList list).length + blockSize (regsBelowPc list).length)

theorem State.ldmLoaded_of_pc (s : State) (m : IndexMode) (rn : Reg) (h15 : list.getLsbD 15 = true) :
    s.ldmLoaded m rn list (regsOfList list) =
      s.ldmLoaded m rn list (regsBelowPc list) ++ [(15, s.ldmTarget m rn list)] := by
  have h := s.loadedRegs_concat (m.blockStart (s.readReg rn) (regsOfList list).length) (regsBelowPc list) 15
  rwa [← regsOfList_of_pc h15] at h

/-- LDM, its four ways: R15 listed or not, with S or without. -/
theorem exec_ldm_cases (hc : condPassed c s.cpsr.flags = true) :
    exec (.ldm c m sf rn list) s =
      let s1 := s.ldmBase m rn list
      let loaded := s.ldmLoaded m rn list (regsBelowPc list)
      if list.getLsbD 15 then
        if sf then (s1.writeRegs loaded).exceptionReturn (s.ldmTarget m rn list)
        else .next ((s1.writeRegs loaded).branchTo (s.ldmTarget m rn list))
      else if sf then .next (s1.writeUserRegs loaded)
      else .next (s1.writeRegs loaded) := by
  rw [exec, execLdm, whenCond_pass _ hc, State.ldmLoaded, State.loadedRegs, ← State.zip_loadWords]
  rfl

/-- LDM without a status restore: R15, if listed, is the last register written. -/
theorem exec_ldm (hc : condPassed c s.cpsr.flags = true) (hsf : sf = true → list.getLsbD 15 = false) :
    exec (.ldm c m sf rn list) s =
      let loaded := s.ldmLoaded m rn list (regsOfList list)
      .next (if sf then (s.ldmBase m rn list).writeUserRegs loaded
        else (s.ldmBase m rn list).writeRegs loaded) := by
  rw [exec_ldm_cases hc]
  cases h15 : list.getLsbD 15 with
  | false =>
    rw [regsBelowPc_of_no_pc h15]
    cases sf <;> rfl
  | true =>
    have hf : sf = false := by simpa [h15, -BitVec.getLsbD_eq_getElem] using hsf
    subst hf
    rw [s.ldmLoaded_of_pc m rn h15]
    exact congrArg Host.Outcome.next (State.writeRegs_concat _ _ 15 _).symm

/-- Settles O46: the effects of `exec_ldm`'s register writes, in their order. -/
theorem blockLoad : Obligations.BlockLoad := by
  intro c m sf rn list s hc hsf regs start loaded base
  have hb := s.ldmBase_effect m rn list
  have hm := s.ldmBase_mem m rn list
  cases sf with
  | false => exact ⟨_, exec_ldm hc hsf, hb.writeRegs _, .of_mem ((State.writeRegs_mem _ _).trans hm)⟩
  | true => exact ⟨_, exec_ldm hc hsf, hb.writeUserRegs _, .of_mem ((State.writeUserRegs_mem _ _).trans hm)⟩

/-- Settles O47: the return's own write of R15 takes the place of the list's. -/
theorem blockLoadReturn : Obligations.BlockLoadReturn := by
  intro c m rn list s hc h15 regs start loaded base
  have hregs : regs = regsBelowPc list ++ [15] := regsOfList_of_pc h15
  have hlen : regs.length - 1 = (regsBelowPc list).length := by simp [hregs]
  have hbase :
      (if m.w = true ∧ list ≠ 0#16 then [(rn, m.blockFinal (s.readReg rn) regs.length)] else []) = base := by
    simp [base, ne_zero_of_bit15 h15]
  have hb := s.ldmBase_effect m rn list
  have hexec := exec_ldm_cases (m := m) (sf := true) (rn := rn) (list := list) hc
  rw [if_pos h15] at hexec
  rw [hlen]
  refine returns_of hexec (hb.writeRegs _) ((State.writeRegs_mem _ _).trans (s.ldmBase_mem m rn list))
    fun p hp => ?_
  have hloaded : loaded = _ := s.ldmLoaded_of_pc m rn h15
  rw [hbase, hloaded, ← State.seen_append, ← List.append_assoc, State.seen_append _ _ [_]]
  exact ((lastWrite_concat p .pc _ _).trans (if_neg (Ne.symm hp))).symm

/-! ## STM -/

/-- R267, R272: what STM stores of a register. -/
def State.stmValue (s : State) (sf : Bool) (r : Reg) : Word :=
  if sf then s.regs.read (phys .user r) else s.readReg r

theorem exec_stm (hc : condPassed c s.cpsr.flags = true) :
    exec (.stm c m sf rn list) s =
      let t := s.storeBytes (m.blockStart (s.readReg rn) (regsOfList list).length)
        ((regsOfList list).flatMap fun r => wordBytes (s.stmValue sf r))
      .next (if m.blockWritesBack list then
        t.writeReg rn (m.blockFinal (s.readReg rn) (regsOfList list).length) else t) := by
  have hv : (if sf then s.readUserReg else s.readReg) = s.stmValue sf := by cases sf <;> rfl
  rw [exec, execStm, whenCond_pass _ hc, hv]
  simp only [State.storeWords_eq, List.flatMap_map]

theorem wordBytes_flatMap_length (v : Reg → Word) (rs : List Reg) :
    (rs.flatMap fun r => wordBytes (v r)).length = 4 * rs.length := by
  simp [List.length_flatMap, Nat.mul_comm]

/-- Settles O48: one store of all the bytes of `exec_stm`, then the writeback. -/
theorem blockStore : Obligations.BlockStore := by
  intro c m sf rn list s hw hc regs v
  have hl : (regs.flatMap fun r => wordBytes (v r)).length ≤ 2 ^ 32 := by
    have hn : regs.length ≤ 16 := regsOfList_length list
    rw [wordBytes_flatMap_length]
    omega
  refine stores_of hw hl (exec_stm hc) ((Effect.storeBytes s _ _).blockWriteBack m list rn _) ?_
  split
  · exact State.writeReg_mem ..
  · rfl

/-! ## The empty list -/

/-- A register written with its own value. -/
theorem State.writeReg_readReg (s : State) {i : Reg} (hi : i ≠ 15) : s.writeReg i (s.readReg i) = s := by
  have hr : s.regs.write (phys s.cpsr.mode i) (s.readReg i) = s.regs :=
    RegFile.ext_read fun p => by
      rw [RegFile.read_write]
      split
      · next hp => rw [hp, State.readReg]
      · rfl
  rw [State.writeReg_ne s i _ hi, State.setPhys, hr]

theorem exec_ldm_empty (hc : condPassed c s.cpsr.flags = true) : exec (.ldm c m sf rn 0#16) s = .next s := by
  rw [exec_ldm hc fun _ => rfl, State.ldmBase, IndexMode.blockWritesBack_zero]
  cases sf <;> rfl

theorem exec_stm_empty (hc : condPassed c s.cpsr.flags = true) : exec (.stm c m sf rn 0#16) s = .next s := by
  rw [exec_stm hc, IndexMode.blockWritesBack_zero]
  rfl

/-- With nothing listed a writeback of the 16-bit set gives the base its own value. -/
theorem State.writeReg_add_empty (s : State) {i : Reg} (hi : i ≠ 15) :
    s.writeReg i (s.readReg i + blockSize 0) = s :=
  (congrArg (s.writeReg i) (BitVec.add_zero _)).trans (s.writeReg_readReg hi)

theorem State.writeReg_sub_empty (s : State) {i : Reg} (hi : i ≠ 15) :
    s.writeReg i (s.readReg i - blockSize 0) = s :=
  (congrArg (s.writeReg i) (BitVec.sub_zero _)).trans (s.writeReg_readReg hi)

/-- Settles O49: without registers nothing is accessed, and a base written back keeps its value. -/
theorem emptyListChangesNothing : Obligations.EmptyListChangesNothing := by
  intro c m sf rn rb s hc
  simp only [List.forall_mem_cons]
  exact ⟨exec_ldm_empty hc, exec_stm_empty hc,
    congrArg Host.Outcome.next (s.writeReg_sub_empty (i := 13) (by decide)),
    congrArg Host.Outcome.next (s.writeReg_add_empty (i := 13) (by decide)),
    congrArg Host.Outcome.next (s.writeReg_add_empty (loReg_ne_pc rb)),
    congrArg Host.Outcome.next (s.writeReg_add_empty (loReg_ne_pc rb)), List.forall_mem_nil _⟩

end Sys2Proof.Machine
end

section
/-! Formats 1 to 5, 12 and 13 of the 16-bit set (45_thumb_alu.md). -/

namespace Sys2Proof.Machine

variable {s : State} {i : Instr} {rd rs : LoReg} {op : DpOp}

/-! ## Instructions of the shared meanings -/

theorem computes_writeLo {r : AluResult} (h : exec i s = writeLo rd r s) :
    Computes i s r.flags (s.seen [(rd.reg, r.value)]) :=
  computes_alu h

theorem computes_flagsOnly {r : AluResult} (h : exec i s = flagsOnly r s) : Computes i s r.flags [] :=
  computes_flags h

/-- A result whose N and Z are its own and whose carry is given; V is unchanged. -/
theorem computes_writeLo_logical {cout : Bool} {v : Word}
    (h : exec i s = writeLo rd (logical s.cpsr.flags cout v) s) :
    Computes i s ⟨v.getLsbD 31, v == 0#32, cout, s.cpsr.flags.v⟩ (s.seen [(rd.reg, v)]) := by
  rw [logical_eq] at h
  exact computes_writeLo h

/-- R303: the amount is the low byte of Rs, and amount 0 bypasses the shifter. -/
theorem computes_thumbShiftReg {ty : ShiftType} (h : exec i s = thumbShiftReg ty rd rs s) :
    let r := shiftByReg ty s.cpsr.flags.c (s.readReg rd.reg) ((s.readReg rs.reg).toNat % 256)
    Computes i s ⟨r.1.getLsbD 31, r.1 == 0#32, r.2, s.cpsr.flags.v⟩ (s.seen [(rd.reg, r.1)]) := by
  rw [thumbShiftReg, field_low_byte_toNat] at h
  exact computes_writeLo_logical h

/-- R301: the flags of a logical operation whose result is discarded, with the carry as it was. -/
theorem computes_thumbCompare_logical {v : Word} (h : exec i s = thumbCompare op rd rs s)
    (hr : op.eval s.cpsr.flags s.cpsr.flags.c (s.readReg rd.reg) (s.readReg rs.reg) =
      logical s.cpsr.flags s.cpsr.flags.c v) :
    Computes i s { s.cpsr.flags with n := v.getLsbD 31, z := v == 0#32 } [] := by
  rw [thumbCompare, hr, logical_eq] at h
  exact computes_flagsOnly h

/-! ## The operations whose result the rules write in another form -/

/-- R299: the borrow is the complement of the carry flag. -/
theorem exec_tSbc : exec (.tSbc rd rs) s =
    writeLo rd (sub (s.readReg rd.reg) (s.readReg rs.reg) (1#32 - boolWord s.cpsr.flags.c)) s := by
  rw [← boolWord_not]; rfl

/-- R160: N and Z are the product's, C and V stay as they were. -/
theorem mul_eq_logical (f : Flags) (a b : Word) : mul f a b = logical f f.c (a * b) := rfl

theorem exec_tMul : exec (.tMul rd rs) s =
    writeLo rd (logical s.cpsr.flags s.cpsr.flags.c
      (BitVec.ofNat 32 ((s.readReg rd.reg).toNat * (s.readReg rs.reg).toNat))) s := by
  rw [← mul_eq_ofNat, ← mul_eq_logical]; rfl

/-- R112: a word offset counts in fours. -/
theorem ofNat_four_mul {n : Nat} (v : BitVec n) : BitVec.ofNat 32 (4 * v.toNat) = v.zeroExtend 32 <<< 2 :=
  ofNat_mul_toNat v 2

/-! ## The statements -/

/-- Settles O50: format 1 hands its amount to the primitive, format 4 is `thumbShiftReg`. -/
theorem thumbShifts : Obligations.ThumbShifts := by
  intro rd rs off5 s cin n reg
  simp only [List.forall_mem_cons]
  exact ⟨computes_writeLo_logical rfl, computes_writeLo_logical rfl, computes_writeLo_logical rfl,
    computes_thumbShiftReg rfl, computes_thumbShiftReg rfl, computes_thumbShiftReg rfl,
    computes_thumbShiftReg rfl, List.forall_mem_nil _⟩

/-- Settles O51: each writes the result and the flags of one primitive. -/
theorem thumbAddSubtract : Obligations.ThumbAddSubtract := by
  intro rd rs rn imm3 off8 s
  simp only [List.forall_mem_cons]
  exact ⟨computes_writeLo rfl, computes_writeLo rfl, computes_writeLo rfl, computes_writeLo rfl,
    computes_writeLo rfl, computes_writeLo rfl, List.forall_mem_nil _⟩

/-- Settles O52: SBC takes the complement of the carry flag; the compares keep only the flags. -/
theorem thumbCarryAndCompare : Obligations.ThumbCarryAndCompare := by
  intro rd rs d e off8 s a b cin
  simp only [List.forall_mem_cons]
  exact ⟨⟨computes_writeLo rfl, computes_writeLo exec_tSbc, computes_writeLo rfl, List.forall_mem_nil _⟩,
    computes_flagsOnly rfl, computes_flagsOnly rfl, computes_flagsOnly rfl, computes_flagsOnly rfl,
    List.forall_mem_nil _⟩

/-- Settles O53: each is `logical` of its value with the carry flag as it was, MUL too. -/
theorem thumbLogical : Obligations.ThumbLogical := by
  intro rd rs off8 s a b fl
  simp only [List.forall_mem_cons]
  exact ⟨⟨computes_writeLo_logical rfl, computes_writeLo_logical rfl, computes_writeLo_logical rfl,
    computes_writeLo_logical rfl, computes_writeLo_logical exec_tMul, computes_writeLo_logical rfl,
    computes_writeLo_logical rfl, List.forall_mem_nil _⟩, computes_thumbCompare_logical rfl rfl⟩

/-- Settles O54: each is one register write, which for register 15 is a branch. -/
theorem thumbHighRegistersAndAddresses : Obligations.ThumbHighRegistersAndAddresses := by
  intro d e rd word8 neg sword7 s
  simp only [List.forall_mem_cons, ofNat_four_mul]
  exact ⟨computes_move rfl, computes_move rfl, computes_move rfl, computes_move rfl, computes_move rfl,
    List.forall_mem_nil _⟩

end Sys2Proof.Machine
end

section
/-! Formats 6 to 11, 14 and 15 of the 16-bit set (46_thumb_memory.md). -/

namespace Sys2Proof.Machine

variable {s : State} {i : Instr} {rd : LoReg} {a b : Word} {rb : Reg} {v : Word}

/-! ## Addresses -/

/-- R112: a scaled offset is a multiple. -/
theorem State.immAddress_eq (s : State) (rb : LoReg) (off5 : BitVec 5) (k : Nat) :
    s.immAddress rb off5 k = s.readReg rb.reg + BitVec.ofNat 32 (2 ^ k * off5.toNat) :=
  congrArg (s.readReg rb.reg + ·) (ofNat_mul_toNat off5 k).symm

theorem State.spAddress_eq (s : State) (word8 : BitVec 8) :
    s.spAddress word8 = s.readReg 13 + BitVec.ofNat 32 (4 * word8.toNat) :=
  congrArg (s.readReg 13 + ·) (ofNat_four_mul word8).symm

theorem State.wordPc_add_eq (s : State) (word8 : BitVec 8) :
    s.wordPc + (word8.zeroExtend 32 <<< 2) =
      (s.pc &&& 0xFFFFFFFD#32) + BitVec.ofNat 32 (4 * word8.toNat) :=
  congrArg (s.wordPc + ·) (ofNat_four_mul word8).symm

/-! ## Instructions of the shared meanings -/

/-- A load whose address the rule writes as `a`. -/
theorem computes_thumbLoad (read : State → Word → Word) (h : exec i s = thumbLoad read rd b s) (ha : b = a) :
    Computes i s s.cpsr.flags (s.seen [(rd.reg, read s a)]) :=
  ha ▸ computes_move h

/-- A store of the bytes of its width whose address the rule writes as `a`. -/
theorem stores_thumbStore {write : State → Word → Word → State} (bs : Word → List Byte)
    (h : exec i s = thumbStore write rd b s) (ha : b = a) (hw : s.mem.wf = true)
    (hb : ∀ s a v, write s a v = s.storeBytes a (bs v)) (hl : ∀ v, (bs v).length ≤ 4) :
    Stores i s [] a (bs (s.readReg rd.reg)) := by
  rw [thumbStore, hb, ha] at h
  exact stores_of hw ((hl _).trans (by decide)) h (Effect.storeBytes s a _) rfl

theorem stores_thumbStore_word (h : exec i s = thumbStore State.writeWord rd b s) (ha : b = a)
    (hw : s.mem.wf = true) : Stores i s [] a (wordBytes (s.readReg rd.reg)) :=
  stores_thumbStore wordBytes h ha hw State.writeWord_eq fun v => (wordBytes_length v).le

theorem stores_thumbStore_half (h : exec i s = thumbStore State.storeHalf rd b s) (ha : b = a)
    (hw : s.mem.wf = true) : Stores i s [] a (halfBytes ((s.readReg rd.reg).extractLsb' 0 16)) :=
  stores_thumbStore (fun v => halfBytes (v.extractLsb' 0 16)) h ha hw State.storeHalf_eq fun _ => by simp

theorem stores_thumbStore_byte (h : exec i s = thumbStore State.storeByte rd b s) (ha : b = a)
    (hw : s.mem.wf = true) : Stores i s [] a [(s.readReg rd.reg).extractLsb' 0 8] :=
  stores_thumbStore (fun v => [v.extractLsb' 0 8]) h ha hw State.storeByte_eq fun _ => by simp

/-- The words of registers stored from `a` on, then the base written back. -/
theorem stores_storeWords {rs : List Reg}
    (h : exec i s = .next ((s.storeWords a (rs.map s.readReg)).writeReg rb v)) (hw : s.mem.wf = true)
    (hl : rs.length ≤ 17) :
    Stores i s (s.seen [(rb, v)]) a (rs.flatMap fun r => wordBytes (s.readReg r)) := by
  have hbytes : (rs.flatMap fun r => wordBytes (s.readReg r)).length ≤ 2 ^ 32 := by
    rw [wordBytes_flatMap_length]
    omega
  rw [State.storeWords_eq, List.flatMap_map] at h
  exact stores_of hw hbytes h ((Effect.storeBytes s a _).writeReg rb v) (State.writeReg_mem ..)

/-- The base written back, then registers loaded, so that a loaded base wins. -/
theorem computes_writeRegs {us : List (Reg × Word)}
    (h : exec i s = .next ((s.writeReg rb v).writeRegs us)) :
    Computes i s s.cpsr.flags (s.seen ((rb, v) :: us)) :=
  ⟨_, h, ((Effect.refl s).writeReg rb v).writeRegs us,
    .of_mem ((State.writeRegs_mem _ us).trans (State.writeReg_mem ..))⟩

/-! ## Formats 6 to 11 -/

/-- Settles O55: each load is `thumbLoad` with its own access, at the address of its format. -/
theorem thumbLoads : Obligations.ThumbLoads := by
  intro rd rb ro off5 word8 s reg imm
  simp only [List.forall_mem_cons]
  exact ⟨computes_thumbLoad State.readWord rfl (s.wordPc_add_eq word8),
    computes_thumbLoad State.readWord rfl rfl, computes_thumbLoad State.loadByte rfl rfl,
    computes_thumbLoad State.loadSignedByte rfl rfl, computes_thumbLoad State.loadHalf rfl rfl,
    computes_thumbLoad State.loadSignedHalf rfl rfl,
    computes_thumbLoad State.readWord rfl (s.immAddress_eq rb off5 2),
    computes_thumbLoad State.loadByte rfl (s.immAddress_eq rb off5 0),
    computes_thumbLoad State.loadHalf rfl (s.immAddress_eq rb off5 1),
    computes_thumbLoad State.readWord rfl (s.spAddress_eq word8), List.forall_mem_nil _⟩

/-- Settles O56: each store is `thumbStore` of the bytes of its width, at the address of its format. -/
theorem thumbStores : Obligations.ThumbStores := by
  intro rd rb ro off5 word8 s hw v reg imm
  simp only [List.forall_mem_cons]
  exact ⟨stores_thumbStore_word rfl rfl hw, stores_thumbStore_byte rfl rfl hw,
    stores_thumbStore_half rfl rfl hw, stores_thumbStore_word rfl (s.immAddress_eq rb off5 2) hw,
    stores_thumbStore_byte rfl (s.immAddress_eq rb off5 0) hw,
    stores_thumbStore_half rfl (s.immAddress_eq rb off5 1) hw,
    stores_thumbStore_word rfl (s.spAddress_eq word8) hw, List.forall_mem_nil _⟩

/-! ## Formats 14 and 15 -/

/-- R347: POP loads R15, if asked for, as the last of its registers. -/
theorem exec_tPop (r : Bool) (list : BitVec 8) :
    exec (.tPop r list) s =
      let popped := loRegsOfList list ++ (if r then [15] else [])
      .next ((s.writeReg 13 (s.readReg 13 + blockSize popped.length)).writeRegs
        (s.loadedRegs (s.readReg 13) popped)) := by
  rw [exec, execTPop, s.zip_loadWords]
  cases r with
  | false =>
    simp only [Bool.false_eq_true, if_false, List.append_nil, Nat.add_zero]
    rfl
  | true =>
    simp only [if_true, s.loadedRegs_concat, State.writeRegs_concat, List.length_append, List.length_singleton]
    rfl

theorem exec_tLdmia (rb : LoReg) (list : BitVec 8) :
    exec (.tLdmia rb list) s =
      .next ((s.writeReg rb.reg (s.readReg rb.reg + blockSize (loRegsOfList list).length)).writeRegs
        (s.loadedRegs (s.readReg rb.reg) (loRegsOfList list))) := by
  rw [exec, execTLdmia, s.zip_loadWords]
  rfl

/-- Settles O57: PUSH is one store of words, POP one list of register writes; each moves R13. -/
theorem thumbPushPop : Obligations.ThumbPushPop := by
  intro r list s low pushed popped sp first
  have hl : pushed.length ≤ 17 := by
    have hlr : (if r then [(14 : Reg)] else []).length ≤ 1 := by cases r <;> simp
    rw [List.length_append]
    exact Nat.add_le_add (regsOfList_length _) hlr
  exact ⟨fun hw => stores_storeWords rfl hw hl, computes_writeRegs (exec_tPop r list)⟩

/-- Settles O58: STMIA reads its words before it writes the base, LDMIA writes them after it. -/
theorem thumbBlockTransfer : Obligations.ThumbBlockTransfer := by
  intro rb list s regs base final
  have hl : regs.length ≤ 17 := (regsOfList_length _).trans (by decide)
  exact ⟨fun hw => stores_storeWords rfl hw hl, computes_writeRegs (exec_tLdmia rb list)⟩

end Sys2Proof.Machine
end

section
/-! The branches of the 16-bit set (47_thumb_branch.md R361, R362, R366, R367). -/

namespace Sys2Proof.Machine

variable {s : State} {i : Instr}

/-! ## Targets -/

/-- R360: an offset in halfwords is twice its value. -/
theorem State.thumbTarget_signExtend {n : Nat} (s : State) (o : BitVec n) :
    s.thumbTarget (o.signExtend 32) = s.pc + BitVec.ofInt 32 (2 * o.toInt) :=
  congrArg (s.pc + ·) (ofInt_mul_toInt o 1).symm

/-! ## Conditional branches -/

/-- An instruction that is the conditional branch on `c` branches if `c` passes and else answers `s` itself. -/
theorem outcome_of_thumbCondBranch (c : Cond) {o : BitVec 8} (h : exec i s = thumbCondBranch c o s) :
    if condPassed c s.cpsr.flags then
      Computes i s s.cpsr.flags (s.seen [(15, s.pc + BitVec.ofInt 32 (2 * o.toInt))])
    else exec i s = .next s := by
  rw [thumbCondBranch] at h
  split
  next hpass =>
    rw [whenCond_pass _ hpass, s.thumbTarget_signExtend] at h
    exact computes_branch h
  next hfail => rwa [whenCond_fail _ (Bool.eq_false_of_not_eq_true hfail)] at h

/-- Settles O59: each of the fourteen is `thumbCondBranch` on its own line of `condPassed`. -/
theorem thumbConditionalBranches : Obligations.ThumbConditionalBranches := by
  intro o s f
  simp only [List.forall_mem_cons]
  exact ⟨outcome_of_thumbCondBranch .eq rfl, outcome_of_thumbCondBranch .ne rfl,
    outcome_of_thumbCondBranch .cs rfl, outcome_of_thumbCondBranch .cc rfl,
    outcome_of_thumbCondBranch .mi rfl, outcome_of_thumbCondBranch .pl rfl,
    outcome_of_thumbCondBranch .vs rfl, outcome_of_thumbCondBranch .vc rfl,
    outcome_of_thumbCondBranch .hi rfl, outcome_of_thumbCondBranch .ls rfl,
    outcome_of_thumbCondBranch .ge rfl, outcome_of_thumbCondBranch .lt rfl,
    outcome_of_thumbCondBranch .gt rfl, outcome_of_thumbCondBranch .le rfl, List.forall_mem_nil _⟩

/-! ## B and the two halves of BL -/

theorem exec_tB (o : BitVec 11) (s : State) :
    exec (.tB o) s = .next (s.branchTo (s.pc + BitVec.ofInt 32 (2 * o.toInt))) := by
  rw [exec, execTB, s.thumbTarget_signExtend]

theorem exec_tBlFirst (o : BitVec 11) (s : State) :
    exec (.tBlFirst o) s = .next (s.writeReg 14 (s.pc + BitVec.ofInt 32 (4096 * o.toInt))) := by
  rw [exec, execTBlFirst, ← ofInt_mul_toInt o 12]
  rfl

theorem exec_tBlSecond (o : BitVec 11) (s : State) :
    exec (.tBlSecond o) s = .next ((s.writeReg 14 ((s.pc - 2) ||| 1)).branchTo
      (s.readReg 14 + BitVec.ofNat 32 (2 * o.toNat))) := by
  rw [exec, execTBlSecond, ← ofNat_mul_toNat o 1]
  rfl

/-! ## A register write and the `advance()` after it: what the second half of BL finds -/

theorem State.read_writeReg_ne (s : State) {j : Reg} {p : Phys} (v : Word) (hpc : p ≠ .pc)
    (hj : p ≠ phys s.cpsr.mode j) : (s.writeReg j v).regs.read p = s.regs.read p := by
  by_cases h : j = 15
  · subst h
    exact s.read_branchTo v hpc
  · rw [State.writeReg_ne _ _ _ h]
    exact RegFile.read_write_ne s.regs v hj

theorem State.readReg_writeReg_advance (s : State) {j : Reg} (v : Word) (hj : j ≠ 15) :
    (s.writeReg j v).advance.readReg j = v := by
  rw [State.readReg_advance _ hj, State.readReg_writeReg_self _ _ hj]

theorem State.pc_writeReg_advance (s : State) {j : Reg} (v : Word) (hj : j ≠ 15) (ha : s.align s.pc = s.pc) :
    (s.writeReg j v).advance.pc = s.pc + s.width := by
  rw [State.pc_advance, s.pc_writeReg v hj]
  simpa [State.align, State.width] using ha

/-- Settles O60: each half of BL is one register write, and the second also a branch; in the pair it finds the
first half's R14, and R15 one halfword on. -/
theorem thumbBranches : Obligations.ThumbBranches := by
  refine ⟨fun o s => ⟨computes_branch (exec_tB o s), computes_move (exec_tBlFirst o s),
    computes_writeReg_branchTo (exec_tBlSecond o s)⟩, fun hi lo s ht ha => ?_⟩
  have h14 : (14 : Reg) ≠ 15 := by decide
  let target := s.pc + BitVec.ofInt 32 (4096 * hi.toInt)
  let t := s.writeReg 14 target
  have hcpsr : t.advance.cpsr = s.cpsr := s.writeReg_cpsr 14 target
  have hlink : t.advance.readReg 14 = target := s.readReg_writeReg_advance target h14
  have hpc : t.advance.pc - 2 = s.pc := by
    rw [s.pc_writeReg_advance target h14 ha, s.width_thumb ht]
    exact BitVec.add_sub_cancel ..
  have hu := exec_tBlSecond lo t.advance
  rw [hlink, hpc] at hu
  refine ⟨t, _, exec_tBlFirst hi s, hu, State.branchTo_at .., ?_, ?_, fun p hp hp14 => ?_, .of_mem ?_⟩
  · rw [State.readReg_branchTo _ _ h14, State.readReg_writeReg_self _ _ h14]
  · rw [State.branchTo_cpsr, State.writeReg_cpsr, hcpsr]
  · rw [State.read_branchTo _ _ hp, State.read_writeReg_ne _ _ hp (by rwa [hcpsr]), State.read_advance _ hp,
      State.read_writeReg_ne _ _ hp hp14]
  · simp [t]

end Sys2Proof.Machine
end

section
/-! The entry sequence and the `reset` operation (60_exceptions.md R382, R386, 70_reset_and_hazards.md R421). -/

namespace Sys2Proof.Machine

variable {s t : State} {k : ExcKind}

/-- R386: the CPSR that an entry leaves, written out. -/
theorem Cpsr.entered_eq (c : Cpsr) (k : ExcKind) : c.entered k =
    { flags := c.flags, i := true, f := c.f || (k == .reset || k == .fastInterrupt), t := false,
      mode := k.entryMode.mode } := by
  cases k <;> rfl

theorem State.enter_spsr_get (s : State) (k : ExcKind) (m : ExcMode) :
    (s.enter k).spsr.get m = if m = k.entryMode then s.cpsr.toPsr else s.spsr.get m := by
  rw [State.enter_spsr, SpsrBank.get_set]

/-- Settles O23: the fields of `State.enter`, one by one. -/
theorem exceptionEntrySequence : Obligations.ExceptionEntrySequence := fun s k =>
  ⟨by cases k <;> rfl, congrArg Psr.word ((s.enter_spsr_get k _).trans (if_pos rfl)),
    fun m' hm => (s.enter_spsr_get k m').trans (if_neg hm), s.cpsr.entered_eq k, s.enter_link k, s.enter_pc k,
    s.enter_pipeNext k, fun _ hp hl => (s.enter_read k hp).trans (if_neg hl), rfl, rfl, .of_mem rfl⟩

/-- The `reset` operation is an entry and one `advance()`, but for R14_svc. -/
theorem State.hostReset_eq (s : State) : s.hostReset =
    (State.enter { s with running := true, pending := Pending.none } .reset).advance.setPhys
      (phys .supervisor 14) 0#32 := rfl

@[simp] theorem State.hostReset_mem (s : State) : s.hostReset.mem = s.mem := rfl

@[simp] theorem State.hostReset_cpsr (s : State) : s.hostReset.cpsr = s.cpsr.entered .reset := rfl

/-- R421: both slots are filled from address 0. -/
theorem State.hostReset_pipeline (s : State) : s.hostReset.pc = 8 ∧ s.hostReset.pipeCur = s.readWord 0 ∧
    s.hostReset.pipeNext = s.readWord 4 :=
  State.enter_advance { s with running := true, pending := Pending.none } .reset

theorem State.hostReset_spsr_get (s : State) (m : ExcMode) :
    s.hostReset.spsr.get m = if m = .supervisor then s.cpsr.toPsr else s.spsr.get m :=
  State.enter_spsr_get { s with running := true, pending := Pending.none } .reset m

theorem State.hostReset_read (s : State) {p : Phys} (hp : p ≠ .pc) :
    s.hostReset.regs.read p = if p = phys .supervisor 14 then 0#32 else s.regs.read p := by
  rw [State.hostReset_eq, State.setPhys_regs, RegFile.read_write]
  split
  · rfl
  · next hl => exact (State.read_advance _ hp).trans ((State.enter_read _ _ hp).trans (if_neg hl))

/-- Settles O27: the fields of `State.hostReset`, one by one. -/
theorem resetOperation : Obligations.ResetOperation := by
  intro s
  obtain ⟨hpc, hcur, hnext⟩ := s.hostReset_pipeline
  refine ⟨rfl, Pending.get_none, ?_, (s.hostReset_read (phys_entry .reset)).trans (if_pos rfl), hpc, hcur, hnext,
    congrArg Psr.word ((s.hostReset_spsr_get _).trans (if_pos rfl)),
    fun m hm => (s.hostReset_spsr_get m).trans (if_neg hm), fun p hp hl => (s.hostReset_read hp).trans (if_neg hl),
    .of_mem rfl⟩
  rw [State.hostReset_cpsr, Cpsr.entered_eq]
  simp [ExcKind.entryMode, ExcMode.mode]

/-- R15 is 8 and the state is ARM, so the invariant asks only for canonical memory. -/
theorem State.hostReset_inv (hm : s.mem.wf = true) : s.hostReset.Inv := by
  refine ⟨hm, fun _ => ⟨?_, fun ht => absurd ht Bool.false_ne_true⟩⟩
  obtain ⟨hpc, -, -⟩ := s.hostReset_pipeline
  rw [hpc, State.align_arm _ rfl]
  rfl

theorem reset_eq_hostReset_powerOn : State.reset = State.powerOn.hostReset := by decide

/-- Settles O9: `State.reset` is `State.hostReset` of a state whose memory is empty. -/
theorem resetMeetsInvariant : Obligations.ResetMeetsInvariant :=
  ⟨reset_eq_hostReset_powerOn ▸ State.hostReset_inv rfl, reset_eq_hostReset_powerOn, fun _ => State.hostReset_inv⟩

end Sys2Proof.Machine
end

section
/-! `service()` as a whole: which kind a tick enters, what it drops and what stays pending (60_exceptions.md R384,
R385, R390). -/

namespace Sys2Proof.Machine

variable {s t : State} {k l : ExcKind}

/-! ## Which kind a tick enters -/

theorem Pending.clear_byPriority (p : Pending) : p.clear ExcKind.byPriority = Pending.none :=
  Pending.ext_get fun j => by simp [Pending.get_clear, mem_byPriority]

/-- Codes tell kinds apart, so a kind that is not up to `k` in the order comes after it. -/
theorem mem_upTo_iff (k j : ExcKind) : j ∈ ExcKind.byPriority.take k.code ++ [k] ↔ ¬ k.code < j.code := by
  cases k <;> cases j <;> decide

theorem Pending.get_clear_upTo (p : Pending) (k j : ExcKind) :
    (p.clear (ExcKind.byPriority.take k.code ++ [k])).get j = (p.get j && decide (k.code < j.code)) := by
  simp only [Pending.get_clear, mem_upTo_iff, not_not]

/-- A tick that enters no exception drops everything pending. -/
theorem step_drops_all (hr : s.running = true) (h : ∀ k, s.pending.get k = true → s.cpsr.masks k = true) :
    step s = thenAdvance (exec s.currentInstr { s with pending := Pending.none }) := by
  rw [step_of_masked hr h, Pending.clear_byPriority]

/-- Settles O6: `step_drops_all` and `step_enters`; the flags that an entry clears are those up to its kind. -/
theorem serviceTakesHighestUnmasked : Obligations.ServiceTakesHighestUnmasked := fun s hr =>
  ⟨step_drops_all hr, fun k hk hm hpre => ⟨_, s.pending.get_clear_upTo k, step_enters hr hk hm hpre⟩⟩

/-- An entry does not depend on what is pending. -/
theorem Entered.of_pending {p : Pending} (h : Entered k { s with pending := p } t) : Entered k s t :=
  ⟨h.cpsr, h.savedStatus, h.link, h.pc, h.pipeCur, h.pipeNext, h.otherRegs, h.mem⟩

/-- The tick that enters a kind, and what stays pending. -/
theorem step_entered (hr : s.running = true) (hk : s.pending.get k = true) (hm : s.cpsr.masks k = false)
    (h : ∀ j, j.code < k.code → s.pending.get j = true → s.cpsr.masks j = true) :
    ∃ t, step s = .next t ∧ Entered k s t ∧ t.running = true ∧
      ∀ j, t.pending.get j = (s.pending.get j && decide (k.code < j.code)) :=
  ⟨_, step_enters hr hk hm h, (State.enter_advance_entered _ k).of_pending, hr, s.pending.get_clear_upTo k⟩

/-- The same for a kind that is pending alone. -/
theorem step_entered_alone (hr : s.running = true) (hp : ∀ j, s.pending.get j = (j == k))
    (hm : s.cpsr.masks k = false) : ∃ t, step s = .next t ∧ Entered k s t ∧ ∀ j, t.pending.get j = false :=
  ⟨_, step_enters_alone hr hp hm, (State.enter_advance_entered _ k).of_pending, Pending.get_none⟩

/-- R386: F after an entry. -/
theorem Cpsr.entered_f_iff (c : Cpsr) (k : ExcKind) :
    (c.entered k).f = true ↔ k = .reset ∨ k = .fastInterrupt ∨ c.f = true := by
  cases k <;> simp [Cpsr.entered, ExcKind.setsF]

/-- Settles O24: every item is a field of `Entered`. -/
theorem entryTickProperties : Obligations.EntryTickProperties := by
  intro s k hr hp hm
  obtain ⟨t, ht, he, hpt⟩ := step_entered_alone hr hp hm
  exact ⟨t, ht, congrArg Cpsr.mode he.cpsr, congrArg Cpsr.t he.cpsr, congrArg Cpsr.i he.cpsr,
    he.cpsr ▸ s.cpsr.entered_f_iff k, (congrArg Cpsr.flags he.cpsr :), he.pc, he.pipeCur, he.pipeNext,
    congrArg Psr.word he.savedStatus, he.link, hpt⟩

/-! ## A masked kind raised -/

/-- Visiting kinds of which none is pending and unmasked only clears their flags. -/
theorem State.serviceFrom_append {ks post : List ExcKind}
    (h : ∀ k ∈ ks, s.pending.get k = true → s.cpsr.masks k = true) :
    s.serviceFrom (ks ++ post) = ({ s with pending := s.pending.clear ks } : State).serviceFrom post := by
  induction ks generalizing s with
  | nil => rfl
  | cons k ks ih =>
    have hrest : ∀ j ∈ ks, (s.pending.set k false).get j = true → s.cpsr.masks j = true := fun j hj hp => by
      rw [Pending.get_set] at hp
      split at hp
      · cases hp
      · exact h j (.tail _ hj) hp
    have hvisit : s.serviceFrom (k :: ks ++ post) = (s.setPending k false).serviceFrom (ks ++ post) := by
      cases hk : s.pending.get k with
      | true => simp [State.serviceFrom, hk, h k (.head _) hk]
      | false => simp [State.serviceFrom, hk, State.setPending, Pending.set_get_false hk]
    exact hvisit.trans (ih (s := s.setPending k false) hrest)

theorem Pending.clear_set {ks : List ExcKind} (hk : k ∈ ks) (p : Pending) (b : Bool) :
    (p.set k b).clear ks = p.clear ks :=
  Pending.ext_get fun j => by
    rw [Pending.get_clear, Pending.get_clear, Pending.get_set]
    by_cases hjk : j = k <;> simp [hjk, hk]

/-- R385: the visit to a masked kind drops it, so the tick after it was raised is the tick without it, where nothing
that is entered before it is pending. -/
theorem step_raise_masked (hr : s.running = true) (hm : s.cpsr.masks k = true)
    (h : ∀ j, j.code < k.code → s.pending.get j = true → s.cpsr.masks j = true) :
    step (s.raiseException k) = step s := by
  have hmasked : ∀ j ∈ ExcKind.byPriority.take k.code ++ [k],
      (j ≠ k → s.pending.get j = true) → s.cpsr.masks j = true := fun j hj hp => by
    by_cases hjk : j = k
    · exact hjk ▸ hm
    · exact h j ((mem_take_byPriority k j).mp (by simpa [hjk] using hj)) (hp hjk)
  have hservice : (s.raiseException k).service = s.service := by
    rw [State.service, State.service, byPriority_split k, List.append_cons,
      State.serviceFrom_append (s := s) fun j hj hp => hmasked j hj fun _ => hp,
      State.serviceFrom_append (s := s.raiseException k) fun j hj hp => hmasked j hj fun hjk => by
        simpa [Pending.get_set, hjk] using hp,
      State.raiseException_pending, Pending.clear_set (by simp)]
    rfl
  simp only [step, hservice, State.raiseException_running, hr, if_true]

/-- Either every pending kind is masked, or there is a first one that is not. -/
theorem masked_or_first_unmasked (s : State) :
    (∀ k, s.pending.get k = true → s.cpsr.masks k = true) ∨
      ∃ k, s.pending.get k = true ∧ s.cpsr.masks k = false ∧
        ∀ j, j.code < k.code → s.pending.get j = true → s.cpsr.masks j = true := by
  by_cases h : ∃ k, s.pending.get k = true ∧ s.cpsr.masks k = false
  · obtain ⟨k, ⟨hk, hm⟩, hmin⟩ := (measure ExcKind.code).wf.has_min
      {k | s.pending.get k = true ∧ s.cpsr.masks k = false} h
    exact .inr ⟨k, hk, hm, fun j hj hp => by simpa using fun hn => hmin j ⟨hp, hn⟩ hj⟩
  · exact .inl fun k hk => by simpa using fun hm => h ⟨k, hk, hm⟩

/-- A kind that no instruction raises is not pending after a tick unless it was before. -/
theorem step_pending_get_false (hr : s.running = true) (h : step s = .next t) (hs : s.pending.get k = false)
    (hswi : k ≠ .softwareInterrupt) (hund : k ≠ .undefinedInstr) : t.pending.get k = false := by
  obtain hm | ⟨j, hj, hm, hpre⟩ := masked_or_first_unmasked s
  · rw [step_drops_all hr hm] at h
    cases hu : exec s.currentInstr { s with pending := Pending.none } with
    | next u =>
      rw [hu] at h
      cases h
      obtain hp | ⟨hp, -⟩ | ⟨hp, -⟩ := (exec_does hu).pending_cases <;>
        simp [hp, Pending.get_set, hswi, hund]
    | fault f => rw [hu] at h; cases h
    | refused r => rw [hu] at h; cases h
  · rw [step_enters hr hj hm hpre] at h
    cases h
    simp [Pending.get_clear, hs]

/-- Settles O25: `step_raise_masked` for FastInterrupt and for Interrupt; no instruction raises an Interrupt. -/
theorem maskedInterruptIsDropped : Obligations.MaskedInterruptIsDropped := by
  intro s hr hreset habort
  have hfirst : ∀ j : ExcKind, j.code < 2 → s.pending.get j = true → s.cpsr.masks j = true := by
    intro j hj hpj
    cases j with
    | reset => exact absurd hpj (ne_true_of_eq_false hreset)
    | dataAbort => exact absurd hpj (ne_true_of_eq_false habort)
    | _ => exact absurd hj (by decide)
  refine ⟨fun hf _ => step_raise_masked hr hf hfirst, fun hi hp hfiq => ?_⟩
  have hstep : step (s.raiseException .interrupt) = step s := step_raise_masked hr hi fun j hj hpj => by
    cases j with
    | fastInterrupt => exact hfiq hpj
    | reset | dataAbort => exact hfirst _ (by decide) hpj
    | _ => exact absurd hj (by decide)
  exact ⟨hstep, fun t ht => step_pending_get_false (k := .interrupt) hr (hstep ▸ ht) hp (by decide) (by decide)⟩

/-! ## Two kinds pending -/

/-- After the entry of a kind that comes before it, only an Interrupt is masked, or a FastInterrupt where F is set:
it was before, or the kind entered is Reset. -/
theorem Cpsr.masks_entered_iff (c : Cpsr) (hkl : k.code < l.code) :
    (c.entered k).masks l = true ↔ l = .interrupt ∨ (l = .fastInterrupt ∧ (k = .reset ∨ c.f = true)) := by
  cases l with
  | interrupt => simp [Cpsr.masks, Cpsr.entered]
  | fastInterrupt =>
    have hk : k ≠ .fastInterrupt := by rintro rfl; exact Nat.lt_irrefl _ hkl
    exact (c.entered_f_iff k).trans (by simp [hk])
  | _ => simp [Cpsr.masks]

/-- Settles O26: `step_entered` for the first kind; at the next tick the other is masked or not as
`Cpsr.masks_entered_iff` says. -/
theorem simultaneousExceptions : Obligations.SimultaneousExceptions := by
  intro s k l hr hkl hp hm
  obtain ⟨t, ht, he, hrt, hpt⟩ := step_entered hr (by simp [hp]) hm fun j hj hpj => by
    rw [hp, Bool.or_eq_true, beq_iff_eq, beq_iff_eq] at hpj
    obtain rfl | rfl := hpj <;> omega
  have hleft (j : ExcKind) : t.pending.get j = (j == l) := by
    rw [hpt, hp, Bool.eq_iff_iff]
    simp only [Bool.and_eq_true, Bool.or_eq_true, beq_iff_eq, decide_eq_true_eq]
    constructor
    · rintro ⟨rfl | rfl, hj⟩
      · exact absurd hj (Nat.lt_irrefl _)
      · rfl
    · rintro rfl
      exact ⟨.inr rfl, hkl⟩
  have hmask : t.cpsr.masks l = true ↔ l = .interrupt ∨ (l = .fastInterrupt ∧ (k = .reset ∨ s.cpsr.f = true)) :=
    he.cpsr ▸ s.cpsr.masks_entered_iff hkl
  refine ⟨t, ht, hleft, he.pc, he.pipeCur, fun hl => ?_, fun hi hf => ?_⟩
  · refine step_drops_all hrt fun j hj => ?_
    rw [hleft, beq_iff_eq] at hj
    exact hj ▸ hmask.mpr hl
  · have hml : t.cpsr.masks l = false := by
      rw [Bool.eq_false_iff, ne_eq, hmask]
      rintro (rfl | ⟨rfl, rfl | hsf⟩)
      · exact hi rfl
      · exact (hf rfl).1 rfl
      · simp [hf rfl] at hsf
    obtain ⟨u, hu, heu, hpu⟩ := step_entered_alone hrt hleft hml
    refine ⟨u, hu, ?_, heu.pc, congrArg Psr.word heu.savedStatus, hpu⟩
    rw [heu.link, he.pc]
    bv_omega

end Sys2Proof.Machine
end

section
/-! Returning from an exception to the code that it interrupted (60_exceptions.md R388, 70_reset_and_hazards.md R432,
41_arm_data_processing.md R200). -/

namespace Sys2Proof.Machine

variable {s t : State} {k : ExcKind} {i : Instr} {v : Word}

theorem ExcMode.excMode?_mode (m : ExcMode) : m.mode.excMode? = some m := by cases m <;> rfl

/-- What returns at the end of an entry tick completes: the mode entered has an SPSR, and it holds the CPSR from
before. -/
theorem Entered.returns (he : Entered k s t) (h : Returns i t [] v) :
    ∃ u, exec i t = .next u ∧ u.cpsr = s.cpsr ∧ u.At v := by
  have hmode : t.cpsr.mode.excMode? = some k.entryMode := he.cpsr ▸ ExcMode.excMode?_mode _
  simp only [Returns, hmode, he.savedStatus, Cpsr.toPsr, Mode.ofBits?_bits] at h
  obtain ⟨u, hu, hcpsr, hat, -⟩ := h
  exact ⟨u, hu, hcpsr, hat⟩

/-- Where control goes under the status of `s`, R15 leads an address aligned there by the width of `s`. -/
theorem State.At.pc_eq (h : t.At v) (hc : t.cpsr = s.cpsr) (ha : s.align v = v) : t.pc = v + s.width := by
  have hw : t.width = s.width := by rw [State.width, hc, State.width]
  rw [h.1, State.align, hw]
  exact congrArg (· + s.width) ha

theorem operand2_imm_four (s : State) : (s.operand2 (.imm 0 4)).1 = 4 := rfl

/-- A shift by 0 is none. -/
theorem operand2_lsl_zero (s : State) (rm : Reg) : (s.operand2 (.regImm rm .lsl 0)).1 = s.readReg rm := rfl

/-- `SUBS PC, LR, #4`. -/
theorem returns_subs (t : State) : Returns (.sub .al true 14 15 (.imm 0 4)) t [] (t.readReg 14 - 4) :=
  returns_dataProcessing (c := .al) (op := .sub) (rn := 14) (o := .imm 0 4) rfl rfl
    ((sub_zero_value _ _).trans (by rw [operand2_imm_four]))

/-- `MOVS PC, LR`. -/
theorem returns_movs (t : State) (rn : Reg) :
    Returns (.mov .al true rn 15 (.regImm 14 .lsl 0)) t [] (t.readReg 14) :=
  returns_dataProcessing (c := .al) (op := .mov) (rn := rn) (o := .regImm 14 .lsl 0) rfl rfl
    (operand2_lsl_zero t 14)

/-- Settles O28: the link of R386 is `x[15] - 4`, and `Entered.returns` restores the status. -/
theorem returnResumesInterruptedCode : Obligations.ReturnResumesInterruptedCode := by
  intro s k hr ha hk hm hpre
  obtain ⟨t, ht, he, -, -⟩ := step_entered hr hk hm hpre
  refine ⟨t, ht, fun harm => ?_, fun hthumb rn => ?_⟩
  · obtain ⟨u, hu, hcpsr, hat⟩ := he.returns (returns_subs t)
    rw [he.link, sub_sub, show (4 : Word) + 4 = 8 from rfl] at hat
    refine ⟨u, hu, hcpsr, hat, ?_⟩
    rw [hat.pc_eq hcpsr (State.align_sub _ _ ha (State.align_arm _ harm)), State.width_arm harm]
    bv_omega
  · obtain ⟨u, hu, hcpsr, hat⟩ := he.returns (returns_movs t rn)
    rw [he.link] at hat
    refine ⟨u, hu, hcpsr, hat, ?_⟩
    rw [hat.pc_eq hcpsr (State.align_sub _ _ ha (State.align_thumb _ hthumb)), State.width_thumb hthumb]
    bv_omega

end Sys2Proof.Machine
end

section
/-! What instructions can change of the status register, and of the other banks from User mode
(60_exceptions.md R401, 70_reset_and_hazards.md R436, 10_state.md R24, R33, R34, R36). -/

namespace Sys2Proof.Machine

variable {s t : State} {i : Instr} {v : Word}

/-! ## User mode -/

theorem Mode.ne_user_of_excMode? {m : Mode} {e : ExcMode} (h : m.excMode? = some e) : m ≠ .user := by
  rintro rfl
  cases h

theorem lastWrite_eq_none {p : Phys} {ws : List (Phys × Word)} (h : ∀ w ∈ ws, w.1 ≠ p) :
    lastWrite p ws = none := by
  induction ws with
  | nil => rfl
  | cons w ws ih =>
    rw [lastWrite, ih fun w' hw => h w' (.tail _ hw), if_neg (h w (.head _))]
    rfl

/-- From User mode, an ordinary effect writes registers that User mode names. -/
theorem Plain.read_of_user (h : Plain s t) (hu : s.cpsr.mode = .user) {p : Phys} (hp : ∀ r, phys .user r ≠ p) :
    t.regs.read p = s.regs.read p := by
  obtain ⟨_, ws, he, hws⟩ := h
  obtain ⟨hregs, -⟩ := he.regs
  have hnone : lastWrite p ws = none := lastWrite_eq_none fun w hw => by
    obtain ⟨r, hr⟩ := hws w hw
    rw [hu, or_self] at hr
    exact hr ▸ hp r
  rw [hregs p (Ne.symm (hp 15)), hnone]
  rfl

theorem State.branchExchange_read (s : State) (v : Word) {p : Phys} (hp : p ≠ .pc) :
    (s.branchExchange v).regs.read p = s.regs.read p := by
  rw [State.branchExchange_eq]
  exact State.read_branchTo _ _ hp

theorem Does.read_of_user (h : Does i s t) (hu : s.cpsr.mode = .user) {p : Phys} (hp : ∀ r, phys .user r ≠ p) :
    t.regs.read p = s.regs.read p := by
  cases h with
  | plain _ h _ => exact h.read_of_user hu hp
  | store _ _ h _ => exact h.read_of_user hu hp
  | exchange _ v => exact s.branchExchange_read v (Ne.symm (hp 15))
  | back _ _ _ _ he _ _ _ => exact absurd hu (Mode.ne_user_of_excMode? he)
  | control _ _ _ _ => rfl
  | saved _ _ _ _ => rfl
  | trap _ _ => rfl

/-! ## The mode and the masks -/

/-- The mode and both interrupt masks are as before. -/
def SameControl (s t : State) : Prop :=
  t.cpsr.mode = s.cpsr.mode ∧ t.cpsr.i = s.cpsr.i ∧ t.cpsr.f = s.cpsr.f

theorem Plain.sameControl (h : Plain s t) : SameControl s t :=
  let ⟨_, _, he, _⟩ := h
  ⟨he.mode, he.maskI, he.maskF⟩

theorem State.branchExchange_sameControl (s : State) (v : Word) : SameControl s (s.branchExchange v) := by
  rw [State.branchExchange_eq]
  exact ⟨rfl, rfl, rfl⟩

/-- R34: the mode and the masks are written by MSR to the CPSR outside User mode and by a return from an exception
mode. -/
theorem Does.sameControl (h : Does i s t) : SameControl s t ∨
    (s.cpsr.mode ≠ .user ∧ ((∃ c k o, i = .msr c false k o) ∨ isReturn i = true)) := by
  cases h with
  | plain _ h _ => exact .inl h.sameControl
  | store _ _ h _ => exact .inl h.sameControl
  | exchange _ v => exact .inl (s.branchExchange_sameControl v)
  | back hi _ _ _ he _ _ _ => exact .inr ⟨Mode.ne_user_of_excMode? he, .inr hi⟩
  | control hi new _ hu =>
    by_cases hm : s.cpsr.mode = .user
    · obtain ⟨hmode, hmasks⟩ := hu hm
      exact .inl ⟨hmode.trans hm.symm, hmasks⟩
    · exact .inr ⟨hm, .inl hi⟩
  | saved _ _ _ _ => exact .inl ⟨rfl, rfl, rfl⟩
  | trap _ _ => exact .inl ⟨rfl, rfl, rfl⟩

theorem Does.spsr_of_user (h : Does i s t) (hu : s.cpsr.mode = .user) : t.spsr = s.spsr := by
  cases h with
  | plain _ h _ => exact h.spsr_eq
  | store _ _ h _ => exact h.spsr_eq
  | exchange _ v => exact s.branchExchange_spsr v
  | back _ h _ _ _ _ _ _ => exact h.spsr_eq
  | control _ _ _ _ => rfl
  | saved _ _ he _ => exact absurd hu (Mode.ne_user_of_excMode? he)
  | trap _ _ => rfl

/-- Settles O11: `exec_does`; User mode has no SPSR, so a return and MSR to the SPSR do not complete in it. -/
theorem userModeIsConfined : Obligations.UserModeIsConfined := by
  intro i s t hu h
  have hd := exec_does h
  obtain ⟨hmode, hi, hf⟩ | ⟨hnu, -⟩ := hd.sameControl
  · exact ⟨hmode.trans hu, hi, hf, hd.spsr_of_user hu, fun _ => hd.read_of_user hu⟩
  · exact absurd hu hnu

/-! ## The state bit -/

/-- A reload leaves R15 aligned, and in the next slot what was fetched one width before it. -/
theorem State.At.aligned (h : t.At v) : t.align t.pc = t.pc ∧ t.pipeNext = t.fetch (t.pc - t.width) := by
  obtain ⟨hpc, hnext⟩ := h
  rw [hpc, BitVec.add_sub_cancel]
  exact ⟨State.align_add _ _ (State.align_align _) State.align_width, hnext⟩

theorem State.branchExchange_at (s : State) (v : Word) : ∃ a, (s.branchExchange v).At a := by
  rw [State.branchExchange_eq]
  exact ⟨_, State.branchTo_at _ _⟩

/-- R36: the state bit is written by BX and by a return, and then the pipeline reloads. -/
theorem Does.stateBit (h : Does i s t) : t.cpsr.t = s.cpsr.t ∨
    (((∃ c rm, i = .bx c rm) ∨ (∃ rs low, i = .tBx rs low) ∨ isReturn i = true) ∧ ∃ a, t.At a) := by
  cases h with
  | plain _ h _ => obtain ⟨_, _, he, _⟩ := h; exact .inl he.stateBit
  | store _ _ h _ => obtain ⟨_, _, he, _⟩ := h; exact .inl he.stateBit
  | exchange hi v => exact .inr ⟨or_assoc.mp (.inl hi), s.branchExchange_at v⟩
  | back hi _ _ _ _ _ _ v => exact .inr ⟨.inr (.inr hi), v, State.branchTo_at _ v⟩
  | control _ _ ht _ => exact .inl ht
  | saved _ _ _ _ => exact .inl rfl
  | trap _ _ => exact .inl rfl

/-- An entry ends in a reload at the vector. -/
theorem State.enter_at (s : State) (k : ExcKind) : (s.enter k).At k.vector := State.branchTo_at _ _

/-- Settles O12: `Does.stateBit` for T, `Does.sameControl` for the mode and the masks. -/
theorem statusControlChanges : Obligations.StatusControlChanges := by
  refine ⟨fun i s t h ht => ?_, fun s k => ⟨rfl, s.enter_at k⟩, fun i s t h hc => ?_⟩
  · obtain hsame | ⟨hi, a, hat⟩ := (exec_does h).stateBit
    · exact absurd hsame ht
    · exact ⟨hi, hat.aligned⟩
  · obtain ⟨hmode, hmi, hmf⟩ | ⟨-, hi⟩ := (exec_does h).sameControl
    · simp [hmode, hmi, hmf] at hc
    · exact hi

end Sys2Proof.Machine
end
